-- ==== Sys2Proof/Word.lean ====
section
/-!
DEFINITION. The two word types of the machine (R5): 8-bit data, 16-bit CPU addresses.
-/

namespace Sys2Proof

/-- A byte: the only width of data and of an access (R5, R97). -/
abbrev Byte := BitVec 8

/-- A 16-bit CPU address, the width of PC (R5, R22). -/
abbrev Word := BitVec 16

end Sys2Proof
end

