-- ==== Sys2Proof/Machine/Bits.lean ====
section
/-!
DEFINITION. The bit-field, sign-extension and byte-order helpers of R9, in one place.
-/

namespace Sys2Proof

/-- `lo | (hi << 8)` (R9): a 16-bit value from its bytes, little-endian (R90). -/
def wordOf (lo hi : Byte) : Word := hi ++ lo

/-- The low byte of a 16-bit value, `v & 0xFF`. -/
def loByte (w : Word) : Byte := w.extractLsb' 0 8

/-- The high byte of a 16-bit value, `v >> 8`. -/
def hiByte (w : Word) : Byte := w.extractLsb' 8 8

/-- `zext_16` (R9). -/
def zext16 (b : Byte) : Word := b.setWidth 16

/-- `sext_16` (R9): the 16-bit two's-complement value of a signed byte. -/
def sext16 (b : Byte) : Word := b.signExtend 16

/-- Two addresses lie in different pages: `(u & 0xFF00) != (v & 0xFF00)` (R168, R172, R173). -/
def crosses (u v : Word) : Bool := decide (hiByte u ≠ hiByte v)

/-- `v[7]`, the sign bit of a byte (R12). -/
def bit7 (v : Byte) : Bool := v.getLsbD 7

end Sys2Proof
end

