-- ==== Sys2Proof/Syntax.lean ====
section
/-!
DEFINITION. The instructions as syntax: the addressing modes of R131, the operand an instruction carries, and `Instr`, one
constructor per mnemonic of the opcode table (R140, R141). Where several opcode bytes share one mnemonic and one mode
(JAM, ANC, the undocumented NOPs, the invalid bytes) the constructor carries the byte (log 17).
-/

namespace Sys2Proof

/-- The thirteen addressing modes of R131, and `none` for the mode column `-` of an invalid opcode (R140). -/
inductive Mode where
  | imp | acc | imm | zp | zpx | zpy | rel | abs | abx | aby | ind | izx | izy | none
deriving DecidableEq, Repr

/-- The length in bytes of an instruction in each mode (R131). -/
def Mode.len : Mode → Nat
  | .imp | .acc | .none => 1
  | .imm | .zp | .zpx | .zpy | .rel | .izx | .izy => 2
  | .abs | .abx | .aby | .ind => 3

/-- An operand with its bytes assembled (R133): the modes an instruction of more than one mode can have. `rel` and `ind`
belong to the branches and to JMP alone, whose constructors carry the byte or the address. -/
inductive Operand where
  | imp
  | acc
  | imm (v : Byte)
  | zp  (d : Byte)
  | zpx (d : Byte)
  | zpy (d : Byte)
  | abs (a : Word)
  | abx (base : Word)
  | aby (base : Word)
  | izx (d : Byte)
  | izy (d : Byte)
deriving DecidableEq, Repr

/-- The addressing mode of an operand. -/
def Operand.mode : Operand → Mode
  | .imp => .imp
  | .acc => .acc
  | .imm _ => .imm
  | .zp _ => .zp
  | .zpx _ => .zpx
  | .zpy _ => .zpy
  | .abs _ => .abs
  | .abx _ => .abx
  | .aby _ => .aby
  | .izx _ => .izx
  | .izy _ => .izy

/-- The instructions. The rule of the spec that gives each its meaning stands beside it. -/
inductive Instr where
  | lda (m : Operand)  -- LDA (R181)
  | ldx (m : Operand)  -- LDX (R182)
  | ldy (m : Operand)  -- LDY (R183)
  | sta (m : Operand)  -- STA (R184)
  | stx (m : Operand)  -- STX (R185)
  | sty (m : Operand)  -- STY (R186)
  | tax  -- TAX (R187)
  | tay  -- TAY (R188)
  | txa  -- TXA (R189)
  | tya  -- TYA (R190)
  | tsx  -- TSX (R191)
  | txs  -- TXS (R192)
  | adc (m : Operand)  -- ADC (R203)
  | sbc (m : Operand)  -- SBC (R204)
  | and (m : Operand)  -- AND (R206)
  | ora (m : Operand)  -- ORA (R207)
  | eor (m : Operand)  -- EOR (R208)
  | cmp (m : Operand)  -- CMP (R210)
  | cpx (m : Operand)  -- CPX (R211)
  | cpy (m : Operand)  -- CPY (R212)
  | bit (m : Operand)  -- BIT (R213)
  | inc (m : Operand)  -- INC (R214)
  | dec (m : Operand)  -- DEC (R215)
  | inx  -- INX (R216)
  | iny  -- INY (R217)
  | dex  -- DEX (R218)
  | dey  -- DEY (R219)
  | asl (m : Operand)  -- ASL (R231)
  | lsr (m : Operand)  -- LSR (R232)
  | rol (m : Operand)  -- ROL (R233)
  | ror (m : Operand)  -- ROR (R234)
  | jmp (target : Word)  -- JMP (R241, mode abs)
  | jmpInd (ptr : Word)  -- JMP (R241, mode ind)
  | jsr (target : Word)  -- JSR (R242)
  | rts  -- RTS (R243)
  | rti  -- RTI (R244)
  | brk  -- BRK (R246)
  | bcc (d : Byte)  -- BCC (R247)
  | bcs (d : Byte)  -- BCS (R248)
  | beq (d : Byte)  -- BEQ (R249)
  | bne (d : Byte)  -- BNE (R250)
  | bmi (d : Byte)  -- BMI (R251)
  | bpl (d : Byte)  -- BPL (R252)
  | bvc (d : Byte)  -- BVC (R253)
  | bvs (d : Byte)  -- BVS (R254)
  | pha  -- PHA (R261)
  | php  -- PHP (R262)
  | pla  -- PLA (R263)
  | plp  -- PLP (R264)
  | clc  -- CLC (R265)
  | sec  -- SEC (R266)
  | cli  -- CLI (R267)
  | sei  -- SEI (R268)
  | cld  -- CLD (R269)
  | sed  -- SED (R270)
  | clv  -- CLV (R271)
  | nop  -- NOP (R272, the official 0xEA)
  | lax (m : Operand)  -- LAX (R281)
  | sax (m : Operand)  -- SAX (R282)
  | usbc (v : Byte)  -- USBC (R283)
  | dcp (m : Operand)  -- DCP (R284)
  | isb (m : Operand)  -- ISB (R285)
  | slo (m : Operand)  -- SLO (R286)
  | rla (m : Operand)  -- RLA (R287)
  | sre (m : Operand)  -- SRE (R288)
  | rra (m : Operand)  -- RRA (R289)
  | anc (op v : Byte)  -- ANC (R290)
  | alr (v : Byte)  -- ALR (R291)
  | jam (op : Byte)  -- JAM (R292)
  | nopUndoc (op : Byte) (m : Operand)  -- NOP (R293, the undocumented variants)
  | invalid (op : Byte)  -- INVALID (R145)
deriving DecidableEq, Repr

/-- The mnemonics of the opcode table, letter for letter but for the capitals. -/
inductive Mnemonic where
  | lda | ldx | ldy | sta | stx | sty | tax | tay | txa | tya | tsx | txs
  | adc | sbc | and | ora | eor | cmp | cpx | cpy | bit | inc | dec | inx
  | iny | dex | dey | asl | lsr | rol | ror | jmp | jsr | rts | rti | brk
  | bcc | bcs | beq | bne | bmi | bpl | bvc | bvs | pha | php | pla | plp
  | clc | sec | cli | sei | cld | sed | clv | nop | lax | sax | usbc | dcp
  | isb | slo | rla | sre | rra | anc | alr | jam | invalid
deriving DecidableEq, Repr

end Sys2Proof
end

