-- ==== Sys2Proof/WellFormed.lean ====
section
/-!
DEFINITION. Which terms of `Instr` are instructions of this hardware: the modes each rule's "Encoding" line lists, and the
opcode bytes that a constructor which carries one may carry. Written from the rules of each mnemonic and from R141, not from
the matrix R140 that the decoder is built on, so that the round trip of the decoder checks one against the other.
-/

namespace Sys2Proof

/-- The eight modes of LDA, ADC, SBC, AND, ORA, EOR and CMP (R181, R203, R204, R206, R207, R208, R210). -/
def Mode.read8 : List Mode := [.imm, .zp, .zpx, .abs, .abx, .aby, .izx, .izy]

/-- The five modes of the shifts and rotates (R230). -/
def Mode.shift5 : List Mode := [.acc, .zp, .zpx, .abs, .abx]

/-- The seven modes of the undocumented read-modify-write instructions (R284: "Modes as DCP"). -/
def Mode.rmw7 : List Mode := [.zp, .zpx, .abs, .abx, .aby, .izx, .izy]

/-- The opcode bytes of JAM (R292). -/
def Instr.jamOps : List Byte := [0x02, 0x12, 0x22, 0x32, 0x42, 0x52, 0x62, 0x72, 0x92, 0xB2, 0xD2, 0xF2]

/-- The ten invalid opcode bytes (R145). -/
def Instr.invalidOps : List Byte := [0x6B, 0x8B, 0x93, 0x9B, 0x9C, 0x9E, 0x9F, 0xAB, 0xBB, 0xCB]

/-- The opcode bytes of ANC (R290). -/
def Instr.ancOps : List Byte := [0x0B, 0x2B]

/-- The opcode bytes of the undocumented NOPs, by mode (R293). -/
def Instr.nopOps : Mode → List Byte
  | .imp => [0x1A, 0x3A, 0x5A, 0x7A, 0xDA, 0xFA]
  | .imm => [0x80, 0x82, 0x89, 0xC2, 0xE2]
  | .zp  => [0x04, 0x44, 0x64]
  | .zpx => [0x14, 0x34, 0x54, 0x74, 0xD4, 0xF4]
  | .abs => [0x0C]
  | .abx => [0x1C, 0x3C, 0x5C, 0x7C, 0xDC, 0xFC]
  | .acc | .zpy | .rel | .aby | .ind | .izx | .izy | .none => []

/-- An instruction of this hardware: its mode is one its rule lists, and an opcode byte it carries is one of its own. -/
def Instr.wf : Instr → Bool
  | .lda m => Mode.read8.contains m.mode
  | .ldx m => ([.imm, .zp, .zpy, .abs, .aby] : List Mode).contains m.mode
  | .ldy m => ([.imm, .zp, .zpx, .abs, .abx] : List Mode).contains m.mode
  | .sta m => ([.zp, .zpx, .abs, .abx, .aby, .izx, .izy] : List Mode).contains m.mode
  | .stx m => ([.zp, .zpy, .abs] : List Mode).contains m.mode
  | .sty m => ([.zp, .zpx, .abs] : List Mode).contains m.mode
  | .tax => true
  | .tay => true
  | .txa => true
  | .tya => true
  | .tsx => true
  | .txs => true
  | .adc m => Mode.read8.contains m.mode
  | .sbc m => Mode.read8.contains m.mode
  | .and m => Mode.read8.contains m.mode
  | .ora m => Mode.read8.contains m.mode
  | .eor m => Mode.read8.contains m.mode
  | .cmp m => Mode.read8.contains m.mode
  | .cpx m => ([.imm, .zp, .abs] : List Mode).contains m.mode
  | .cpy m => ([.imm, .zp, .abs] : List Mode).contains m.mode
  | .bit m => ([.zp, .abs] : List Mode).contains m.mode
  | .inc m => ([.zp, .zpx, .abs, .abx] : List Mode).contains m.mode
  | .dec m => ([.zp, .zpx, .abs, .abx] : List Mode).contains m.mode
  | .inx => true
  | .iny => true
  | .dex => true
  | .dey => true
  | .asl m => Mode.shift5.contains m.mode
  | .lsr m => Mode.shift5.contains m.mode
  | .rol m => Mode.shift5.contains m.mode
  | .ror m => Mode.shift5.contains m.mode
  | .jmp _ => true
  | .jmpInd _ => true
  | .jsr _ => true
  | .rts => true
  | .rti => true
  | .brk => true
  | .bcc _ => true
  | .bcs _ => true
  | .beq _ => true
  | .bne _ => true
  | .bmi _ => true
  | .bpl _ => true
  | .bvc _ => true
  | .bvs _ => true
  | .pha => true
  | .php => true
  | .pla => true
  | .plp => true
  | .clc => true
  | .sec => true
  | .cli => true
  | .sei => true
  | .cld => true
  | .sed => true
  | .clv => true
  | .nop => true
  | .lax m => ([.zp, .zpy, .abs, .aby, .izx, .izy] : List Mode).contains m.mode
  | .sax m => ([.zp, .zpy, .abs, .izx] : List Mode).contains m.mode
  | .usbc _ => true
  | .dcp m => Mode.rmw7.contains m.mode
  | .isb m => Mode.rmw7.contains m.mode
  | .slo m => Mode.rmw7.contains m.mode
  | .rla m => Mode.rmw7.contains m.mode
  | .sre m => Mode.rmw7.contains m.mode
  | .rra m => Mode.rmw7.contains m.mode
  | .anc op _ => Instr.ancOps.contains op
  | .alr _ => true
  | .jam op => Instr.jamOps.contains op
  | .nopUndoc op m => (Instr.nopOps m.mode).contains op
  | .invalid op => Instr.invalidOps.contains op

end Sys2Proof
end

