-- ==== Sys2Proof/Decode.lean ====
section
/-!
DEFINITION. The decoder and the encoder. The decoder is the 256-row opcode matrix of R140 and nothing else (R132): the opcode
byte alone gives the mnemonic, the mode, the length and the cost (R130). It is total on the byte (R134): an invalid opcode is
an instruction of its own, whose meaning is the trap of R145. The only byte strings it rejects are those that end before the
instruction does, and it says so by name. The encoder is written from the same matrix.
-/

namespace Sys2Proof

/-- The `pen` column of R140 (R135): `p` page-cross penalty, `b` branch penalties, `-` none. -/
inductive Pen where
  | none
  | p
  | b
deriving DecidableEq, Repr

/-- The `class` column of R140 (R135, R146). -/
inductive OpClass where
  | official
  | illegal
  | invalid
deriving DecidableEq, Repr

/-- A row of the opcode matrix (R135). -/
structure OpRow where
  op   : Byte
  mn   : Mnemonic
  mode : Mode
  cyc  : Nat
  pen  : Pen
  cls  : OpClass
deriving DecidableEq, Repr

/-- R140, rows 0x00 to 0x0F. -/
def opRows0 : List OpRow := [
  ⟨0x00, .brk, .imp, 7, .none, .official⟩,
  ⟨0x01, .ora, .izx, 6, .none, .official⟩,
  ⟨0x02, .jam, .imp, 2, .none, .illegal⟩,
  ⟨0x03, .slo, .izx, 8, .none, .illegal⟩,
  ⟨0x04, .nop, .zp, 3, .none, .illegal⟩,
  ⟨0x05, .ora, .zp, 3, .none, .official⟩,
  ⟨0x06, .asl, .zp, 5, .none, .official⟩,
  ⟨0x07, .slo, .zp, 5, .none, .illegal⟩,
  ⟨0x08, .php, .imp, 3, .none, .official⟩,
  ⟨0x09, .ora, .imm, 2, .none, .official⟩,
  ⟨0x0A, .asl, .acc, 2, .none, .official⟩,
  ⟨0x0B, .anc, .imm, 2, .none, .illegal⟩,
  ⟨0x0C, .nop, .abs, 4, .none, .illegal⟩,
  ⟨0x0D, .ora, .abs, 4, .none, .official⟩,
  ⟨0x0E, .asl, .abs, 6, .none, .official⟩,
  ⟨0x0F, .slo, .abs, 6, .none, .illegal⟩]

/-- R140, rows 0x10 to 0x1F. -/
def opRows1 : List OpRow := [
  ⟨0x10, .bpl, .rel, 2, .b, .official⟩,
  ⟨0x11, .ora, .izy, 5, .p, .official⟩,
  ⟨0x12, .jam, .imp, 2, .none, .illegal⟩,
  ⟨0x13, .slo, .izy, 8, .none, .illegal⟩,
  ⟨0x14, .nop, .zpx, 4, .none, .illegal⟩,
  ⟨0x15, .ora, .zpx, 4, .none, .official⟩,
  ⟨0x16, .asl, .zpx, 6, .none, .official⟩,
  ⟨0x17, .slo, .zpx, 6, .none, .illegal⟩,
  ⟨0x18, .clc, .imp, 2, .none, .official⟩,
  ⟨0x19, .ora, .aby, 4, .p, .official⟩,
  ⟨0x1A, .nop, .imp, 2, .none, .illegal⟩,
  ⟨0x1B, .slo, .aby, 7, .none, .illegal⟩,
  ⟨0x1C, .nop, .abx, 4, .p, .illegal⟩,
  ⟨0x1D, .ora, .abx, 4, .p, .official⟩,
  ⟨0x1E, .asl, .abx, 7, .none, .official⟩,
  ⟨0x1F, .slo, .abx, 7, .none, .illegal⟩]

/-- R140, rows 0x20 to 0x2F. -/
def opRows2 : List OpRow := [
  ⟨0x20, .jsr, .abs, 6, .none, .official⟩,
  ⟨0x21, .and, .izx, 6, .none, .official⟩,
  ⟨0x22, .jam, .imp, 2, .none, .illegal⟩,
  ⟨0x23, .rla, .izx, 8, .none, .illegal⟩,
  ⟨0x24, .bit, .zp, 3, .none, .official⟩,
  ⟨0x25, .and, .zp, 3, .none, .official⟩,
  ⟨0x26, .rol, .zp, 5, .none, .official⟩,
  ⟨0x27, .rla, .zp, 5, .none, .illegal⟩,
  ⟨0x28, .plp, .imp, 4, .none, .official⟩,
  ⟨0x29, .and, .imm, 2, .none, .official⟩,
  ⟨0x2A, .rol, .acc, 2, .none, .official⟩,
  ⟨0x2B, .anc, .imm, 2, .none, .illegal⟩,
  ⟨0x2C, .bit, .abs, 4, .none, .official⟩,
  ⟨0x2D, .and, .abs, 4, .none, .official⟩,
  ⟨0x2E, .rol, .abs, 6, .none, .official⟩,
  ⟨0x2F, .rla, .abs, 6, .none, .illegal⟩]

/-- R140, rows 0x30 to 0x3F. -/
def opRows3 : List OpRow := [
  ⟨0x30, .bmi, .rel, 2, .b, .official⟩,
  ⟨0x31, .and, .izy, 5, .p, .official⟩,
  ⟨0x32, .jam, .imp, 2, .none, .illegal⟩,
  ⟨0x33, .rla, .izy, 8, .none, .illegal⟩,
  ⟨0x34, .nop, .zpx, 4, .none, .illegal⟩,
  ⟨0x35, .and, .zpx, 4, .none, .official⟩,
  ⟨0x36, .rol, .zpx, 6, .none, .official⟩,
  ⟨0x37, .rla, .zpx, 6, .none, .illegal⟩,
  ⟨0x38, .sec, .imp, 2, .none, .official⟩,
  ⟨0x39, .and, .aby, 4, .p, .official⟩,
  ⟨0x3A, .nop, .imp, 2, .none, .illegal⟩,
  ⟨0x3B, .rla, .aby, 7, .none, .illegal⟩,
  ⟨0x3C, .nop, .abx, 4, .p, .illegal⟩,
  ⟨0x3D, .and, .abx, 4, .p, .official⟩,
  ⟨0x3E, .rol, .abx, 7, .none, .official⟩,
  ⟨0x3F, .rla, .abx, 7, .none, .illegal⟩]

/-- R140, rows 0x40 to 0x4F. -/
def opRows4 : List OpRow := [
  ⟨0x40, .rti, .imp, 6, .none, .official⟩,
  ⟨0x41, .eor, .izx, 6, .none, .official⟩,
  ⟨0x42, .jam, .imp, 2, .none, .illegal⟩,
  ⟨0x43, .sre, .izx, 8, .none, .illegal⟩,
  ⟨0x44, .nop, .zp, 3, .none, .illegal⟩,
  ⟨0x45, .eor, .zp, 3, .none, .official⟩,
  ⟨0x46, .lsr, .zp, 5, .none, .official⟩,
  ⟨0x47, .sre, .zp, 5, .none, .illegal⟩,
  ⟨0x48, .pha, .imp, 3, .none, .official⟩,
  ⟨0x49, .eor, .imm, 2, .none, .official⟩,
  ⟨0x4A, .lsr, .acc, 2, .none, .official⟩,
  ⟨0x4B, .alr, .imm, 2, .none, .illegal⟩,
  ⟨0x4C, .jmp, .abs, 3, .none, .official⟩,
  ⟨0x4D, .eor, .abs, 4, .none, .official⟩,
  ⟨0x4E, .lsr, .abs, 6, .none, .official⟩,
  ⟨0x4F, .sre, .abs, 6, .none, .illegal⟩]

/-- R140, rows 0x50 to 0x5F. -/
def opRows5 : List OpRow := [
  ⟨0x50, .bvc, .rel, 2, .b, .official⟩,
  ⟨0x51, .eor, .izy, 5, .p, .official⟩,
  ⟨0x52, .jam, .imp, 2, .none, .illegal⟩,
  ⟨0x53, .sre, .izy, 8, .none, .illegal⟩,
  ⟨0x54, .nop, .zpx, 4, .none, .illegal⟩,
  ⟨0x55, .eor, .zpx, 4, .none, .official⟩,
  ⟨0x56, .lsr, .zpx, 6, .none, .official⟩,
  ⟨0x57, .sre, .zpx, 6, .none, .illegal⟩,
  ⟨0x58, .cli, .imp, 2, .none, .official⟩,
  ⟨0x59, .eor, .aby, 4, .p, .official⟩,
  ⟨0x5A, .nop, .imp, 2, .none, .illegal⟩,
  ⟨0x5B, .sre, .aby, 7, .none, .illegal⟩,
  ⟨0x5C, .nop, .abx, 4, .p, .illegal⟩,
  ⟨0x5D, .eor, .abx, 4, .p, .official⟩,
  ⟨0x5E, .lsr, .abx, 7, .none, .official⟩,
  ⟨0x5F, .sre, .abx, 7, .none, .illegal⟩]

/-- R140, rows 0x60 to 0x6F. -/
def opRows6 : List OpRow := [
  ⟨0x60, .rts, .imp, 6, .none, .official⟩,
  ⟨0x61, .adc, .izx, 6, .none, .official⟩,
  ⟨0x62, .jam, .imp, 2, .none, .illegal⟩,
  ⟨0x63, .rra, .izx, 8, .none, .illegal⟩,
  ⟨0x64, .nop, .zp, 3, .none, .illegal⟩,
  ⟨0x65, .adc, .zp, 3, .none, .official⟩,
  ⟨0x66, .ror, .zp, 5, .none, .official⟩,
  ⟨0x67, .rra, .zp, 5, .none, .illegal⟩,
  ⟨0x68, .pla, .imp, 4, .none, .official⟩,
  ⟨0x69, .adc, .imm, 2, .none, .official⟩,
  ⟨0x6A, .ror, .acc, 2, .none, .official⟩,
  ⟨0x6B, .invalid, .none, 0, .none, .invalid⟩,
  ⟨0x6C, .jmp, .ind, 5, .none, .official⟩,
  ⟨0x6D, .adc, .abs, 4, .none, .official⟩,
  ⟨0x6E, .ror, .abs, 6, .none, .official⟩,
  ⟨0x6F, .rra, .abs, 6, .none, .illegal⟩]

/-- R140, rows 0x70 to 0x7F. -/
def opRows7 : List OpRow := [
  ⟨0x70, .bvs, .rel, 2, .b, .official⟩,
  ⟨0x71, .adc, .izy, 5, .p, .official⟩,
  ⟨0x72, .jam, .imp, 2, .none, .illegal⟩,
  ⟨0x73, .rra, .izy, 8, .none, .illegal⟩,
  ⟨0x74, .nop, .zpx, 4, .none, .illegal⟩,
  ⟨0x75, .adc, .zpx, 4, .none, .official⟩,
  ⟨0x76, .ror, .zpx, 6, .none, .official⟩,
  ⟨0x77, .rra, .zpx, 6, .none, .illegal⟩,
  ⟨0x78, .sei, .imp, 2, .none, .official⟩,
  ⟨0x79, .adc, .aby, 4, .p, .official⟩,
  ⟨0x7A, .nop, .imp, 2, .none, .illegal⟩,
  ⟨0x7B, .rra, .aby, 7, .none, .illegal⟩,
  ⟨0x7C, .nop, .abx, 4, .p, .illegal⟩,
  ⟨0x7D, .adc, .abx, 4, .p, .official⟩,
  ⟨0x7E, .ror, .abx, 7, .none, .official⟩,
  ⟨0x7F, .rra, .abx, 7, .none, .illegal⟩]

/-- R140, rows 0x80 to 0x8F. -/
def opRows8 : List OpRow := [
  ⟨0x80, .nop, .imm, 2, .none, .illegal⟩,
  ⟨0x81, .sta, .izx, 6, .none, .official⟩,
  ⟨0x82, .nop, .imm, 2, .none, .illegal⟩,
  ⟨0x83, .sax, .izx, 6, .none, .illegal⟩,
  ⟨0x84, .sty, .zp, 3, .none, .official⟩,
  ⟨0x85, .sta, .zp, 3, .none, .official⟩,
  ⟨0x86, .stx, .zp, 3, .none, .official⟩,
  ⟨0x87, .sax, .zp, 3, .none, .illegal⟩,
  ⟨0x88, .dey, .imp, 2, .none, .official⟩,
  ⟨0x89, .nop, .imm, 2, .none, .illegal⟩,
  ⟨0x8A, .txa, .imp, 2, .none, .official⟩,
  ⟨0x8B, .invalid, .none, 0, .none, .invalid⟩,
  ⟨0x8C, .sty, .abs, 4, .none, .official⟩,
  ⟨0x8D, .sta, .abs, 4, .none, .official⟩,
  ⟨0x8E, .stx, .abs, 4, .none, .official⟩,
  ⟨0x8F, .sax, .abs, 4, .none, .illegal⟩]

/-- R140, rows 0x90 to 0x9F. -/
def opRows9 : List OpRow := [
  ⟨0x90, .bcc, .rel, 2, .b, .official⟩,
  ⟨0x91, .sta, .izy, 6, .none, .official⟩,
  ⟨0x92, .jam, .imp, 2, .none, .illegal⟩,
  ⟨0x93, .invalid, .none, 0, .none, .invalid⟩,
  ⟨0x94, .sty, .zpx, 4, .none, .official⟩,
  ⟨0x95, .sta, .zpx, 4, .none, .official⟩,
  ⟨0x96, .stx, .zpy, 4, .none, .official⟩,
  ⟨0x97, .sax, .zpy, 4, .none, .illegal⟩,
  ⟨0x98, .tya, .imp, 2, .none, .official⟩,
  ⟨0x99, .sta, .aby, 5, .none, .official⟩,
  ⟨0x9A, .txs, .imp, 2, .none, .official⟩,
  ⟨0x9B, .invalid, .none, 0, .none, .invalid⟩,
  ⟨0x9C, .invalid, .none, 0, .none, .invalid⟩,
  ⟨0x9D, .sta, .abx, 5, .none, .official⟩,
  ⟨0x9E, .invalid, .none, 0, .none, .invalid⟩,
  ⟨0x9F, .invalid, .none, 0, .none, .invalid⟩]

/-- R140, rows 0xA0 to 0xAF. -/
def opRowsA : List OpRow := [
  ⟨0xA0, .ldy, .imm, 2, .none, .official⟩,
  ⟨0xA1, .lda, .izx, 6, .none, .official⟩,
  ⟨0xA2, .ldx, .imm, 2, .none, .official⟩,
  ⟨0xA3, .lax, .izx, 6, .none, .illegal⟩,
  ⟨0xA4, .ldy, .zp, 3, .none, .official⟩,
  ⟨0xA5, .lda, .zp, 3, .none, .official⟩,
  ⟨0xA6, .ldx, .zp, 3, .none, .official⟩,
  ⟨0xA7, .lax, .zp, 3, .none, .illegal⟩,
  ⟨0xA8, .tay, .imp, 2, .none, .official⟩,
  ⟨0xA9, .lda, .imm, 2, .none, .official⟩,
  ⟨0xAA, .tax, .imp, 2, .none, .official⟩,
  ⟨0xAB, .invalid, .none, 0, .none, .invalid⟩,
  ⟨0xAC, .ldy, .abs, 4, .none, .official⟩,
  ⟨0xAD, .lda, .abs, 4, .none, .official⟩,
  ⟨0xAE, .ldx, .abs, 4, .none, .official⟩,
  ⟨0xAF, .lax, .abs, 4, .none, .illegal⟩]

/-- R140, rows 0xB0 to 0xBF. -/
def opRowsB : List OpRow := [
  ⟨0xB0, .bcs, .rel, 2, .b, .official⟩,
  ⟨0xB1, .lda, .izy, 5, .p, .official⟩,
  ⟨0xB2, .jam, .imp, 2, .none, .illegal⟩,
  ⟨0xB3, .lax, .izy, 5, .p, .illegal⟩,
  ⟨0xB4, .ldy, .zpx, 4, .none, .official⟩,
  ⟨0xB5, .lda, .zpx, 4, .none, .official⟩,
  ⟨0xB6, .ldx, .zpy, 4, .none, .official⟩,
  ⟨0xB7, .lax, .zpy, 4, .none, .illegal⟩,
  ⟨0xB8, .clv, .imp, 2, .none, .official⟩,
  ⟨0xB9, .lda, .aby, 4, .p, .official⟩,
  ⟨0xBA, .tsx, .imp, 2, .none, .official⟩,
  ⟨0xBB, .invalid, .none, 0, .none, .invalid⟩,
  ⟨0xBC, .ldy, .abx, 4, .p, .official⟩,
  ⟨0xBD, .lda, .abx, 4, .p, .official⟩,
  ⟨0xBE, .ldx, .aby, 4, .p, .official⟩,
  ⟨0xBF, .lax, .aby, 4, .p, .illegal⟩]

/-- R140, rows 0xC0 to 0xCF. -/
def opRowsC : List OpRow := [
  ⟨0xC0, .cpy, .imm, 2, .none, .official⟩,
  ⟨0xC1, .cmp, .izx, 6, .none, .official⟩,
  ⟨0xC2, .nop, .imm, 2, .none, .illegal⟩,
  ⟨0xC3, .dcp, .izx, 8, .none, .illegal⟩,
  ⟨0xC4, .cpy, .zp, 3, .none, .official⟩,
  ⟨0xC5, .cmp, .zp, 3, .none, .official⟩,
  ⟨0xC6, .dec, .zp, 5, .none, .official⟩,
  ⟨0xC7, .dcp, .zp, 5, .none, .illegal⟩,
  ⟨0xC8, .iny, .imp, 2, .none, .official⟩,
  ⟨0xC9, .cmp, .imm, 2, .none, .official⟩,
  ⟨0xCA, .dex, .imp, 2, .none, .official⟩,
  ⟨0xCB, .invalid, .none, 0, .none, .invalid⟩,
  ⟨0xCC, .cpy, .abs, 4, .none, .official⟩,
  ⟨0xCD, .cmp, .abs, 4, .none, .official⟩,
  ⟨0xCE, .dec, .abs, 6, .none, .official⟩,
  ⟨0xCF, .dcp, .abs, 6, .none, .illegal⟩]

/-- R140, rows 0xD0 to 0xDF. -/
def opRowsD : List OpRow := [
  ⟨0xD0, .bne, .rel, 2, .b, .official⟩,
  ⟨0xD1, .cmp, .izy, 5, .p, .official⟩,
  ⟨0xD2, .jam, .imp, 2, .none, .illegal⟩,
  ⟨0xD3, .dcp, .izy, 8, .none, .illegal⟩,
  ⟨0xD4, .nop, .zpx, 4, .none, .illegal⟩,
  ⟨0xD5, .cmp, .zpx, 4, .none, .official⟩,
  ⟨0xD6, .dec, .zpx, 6, .none, .official⟩,
  ⟨0xD7, .dcp, .zpx, 6, .none, .illegal⟩,
  ⟨0xD8, .cld, .imp, 2, .none, .official⟩,
  ⟨0xD9, .cmp, .aby, 4, .p, .official⟩,
  ⟨0xDA, .nop, .imp, 2, .none, .illegal⟩,
  ⟨0xDB, .dcp, .aby, 7, .none, .illegal⟩,
  ⟨0xDC, .nop, .abx, 4, .p, .illegal⟩,
  ⟨0xDD, .cmp, .abx, 4, .p, .official⟩,
  ⟨0xDE, .dec, .abx, 7, .none, .official⟩,
  ⟨0xDF, .dcp, .abx, 7, .none, .illegal⟩]

/-- R140, rows 0xE0 to 0xEF. -/
def opRowsE : List OpRow := [
  ⟨0xE0, .cpx, .imm, 2, .none, .official⟩,
  ⟨0xE1, .sbc, .izx, 6, .none, .official⟩,
  ⟨0xE2, .nop, .imm, 2, .none, .illegal⟩,
  ⟨0xE3, .isb, .izx, 8, .none, .illegal⟩,
  ⟨0xE4, .cpx, .zp, 3, .none, .official⟩,
  ⟨0xE5, .sbc, .zp, 3, .none, .official⟩,
  ⟨0xE6, .inc, .zp, 5, .none, .official⟩,
  ⟨0xE7, .isb, .zp, 5, .none, .illegal⟩,
  ⟨0xE8, .inx, .imp, 2, .none, .official⟩,
  ⟨0xE9, .sbc, .imm, 2, .none, .official⟩,
  ⟨0xEA, .nop, .imp, 2, .none, .official⟩,
  ⟨0xEB, .usbc, .imm, 2, .none, .illegal⟩,
  ⟨0xEC, .cpx, .abs, 4, .none, .official⟩,
  ⟨0xED, .sbc, .abs, 4, .none, .official⟩,
  ⟨0xEE, .inc, .abs, 6, .none, .official⟩,
  ⟨0xEF, .isb, .abs, 6, .none, .illegal⟩]

/-- R140, rows 0xF0 to 0xFF. -/
def opRowsF : List OpRow := [
  ⟨0xF0, .beq, .rel, 2, .b, .official⟩,
  ⟨0xF1, .sbc, .izy, 5, .p, .official⟩,
  ⟨0xF2, .jam, .imp, 2, .none, .illegal⟩,
  ⟨0xF3, .isb, .izy, 8, .none, .illegal⟩,
  ⟨0xF4, .nop, .zpx, 4, .none, .illegal⟩,
  ⟨0xF5, .sbc, .zpx, 4, .none, .official⟩,
  ⟨0xF6, .inc, .zpx, 6, .none, .official⟩,
  ⟨0xF7, .isb, .zpx, 6, .none, .illegal⟩,
  ⟨0xF8, .sed, .imp, 2, .none, .official⟩,
  ⟨0xF9, .sbc, .aby, 4, .p, .official⟩,
  ⟨0xFA, .nop, .imp, 2, .none, .illegal⟩,
  ⟨0xFB, .isb, .aby, 7, .none, .illegal⟩,
  ⟨0xFC, .nop, .abx, 4, .p, .illegal⟩,
  ⟨0xFD, .sbc, .abx, 4, .p, .official⟩,
  ⟨0xFE, .inc, .abx, 7, .none, .official⟩,
  ⟨0xFF, .isb, .abx, 7, .none, .illegal⟩]

/-- The opcode matrix (R140), in opcode order. An invalid byte's row has no cost in the spec and 0 here; nothing reads it. -/
def opcodeMatrix : List OpRow :=
  opRows0 ++ opRows1 ++ opRows2 ++ opRows3 ++ opRows4 ++ opRows5 ++ opRows6 ++ opRows7 ++
  opRows8 ++ opRows9 ++ opRowsA ++ opRowsB ++ opRowsC ++ opRowsD ++ opRowsE ++ opRowsF

/-- The sixteen rows whose opcode has a given high digit. -/
def opRowsOf : Nat → List OpRow
  | 0x0 => opRows0
  | 0x1 => opRows1
  | 0x2 => opRows2
  | 0x3 => opRows3
  | 0x4 => opRows4
  | 0x5 => opRows5
  | 0x6 => opRows6
  | 0x7 => opRows7
  | 0x8 => opRows8
  | 0x9 => opRows9
  | 0xA => opRowsA
  | 0xB => opRowsB
  | 0xC => opRowsC
  | 0xD => opRowsD
  | 0xE => opRowsE
  | 0xF => opRowsF
  | _ => []

/-- The row of an opcode byte: the matrix indexed by the byte (R130, R134). Every byte has one. -/
def rowOf (op : Byte) : OpRow :=
  (opRowsOf (op.toNat / 16)).getD (op.toNat % 16) ⟨op, .invalid, .none, 0, .none, .invalid⟩

/-- The length in bytes of the instruction that begins with an opcode byte (R130, R131). -/
def lengthOf (op : Byte) : Nat := (rowOf op).mode.len

/-- The operand assembled from the operand bytes, per mode (R133); the modes that are no `Operand` give the empty one. -/
def operandOf (mode : Mode) (l h : Byte) : Operand :=
  match mode with
  | .acc => .acc
  | .imm => .imm l
  | .zp => .zp l
  | .zpx => .zpx l
  | .zpy => .zpy l
  | .abs => .abs (wordOf l h)
  | .abx => .abx (wordOf l h)
  | .aby => .aby (wordOf l h)
  | .izx => .izx l
  | .izy => .izy l
  | .imp | .rel | .ind | .none => .imp

/-- The instruction of a mnemonic in a mode, from its opcode byte and its operand bytes. -/
def Mnemonic.build (mn : Mnemonic) (op : Byte) (mode : Mode) (l h : Byte) : Instr :=
  match mn with
  | .lda => .lda (operandOf mode l h)
  | .ldx => .ldx (operandOf mode l h)
  | .ldy => .ldy (operandOf mode l h)
  | .sta => .sta (operandOf mode l h)
  | .stx => .stx (operandOf mode l h)
  | .sty => .sty (operandOf mode l h)
  | .tax => .tax
  | .tay => .tay
  | .txa => .txa
  | .tya => .tya
  | .tsx => .tsx
  | .txs => .txs
  | .adc => .adc (operandOf mode l h)
  | .sbc => .sbc (operandOf mode l h)
  | .and => .and (operandOf mode l h)
  | .ora => .ora (operandOf mode l h)
  | .eor => .eor (operandOf mode l h)
  | .cmp => .cmp (operandOf mode l h)
  | .cpx => .cpx (operandOf mode l h)
  | .cpy => .cpy (operandOf mode l h)
  | .bit => .bit (operandOf mode l h)
  | .inc => .inc (operandOf mode l h)
  | .dec => .dec (operandOf mode l h)
  | .inx => .inx
  | .iny => .iny
  | .dex => .dex
  | .dey => .dey
  | .asl => .asl (operandOf mode l h)
  | .lsr => .lsr (operandOf mode l h)
  | .rol => .rol (operandOf mode l h)
  | .ror => .ror (operandOf mode l h)
  | .jmp => if mode = .ind then .jmpInd (wordOf l h) else .jmp (wordOf l h)
  | .jsr => .jsr (wordOf l h)
  | .rts => .rts
  | .rti => .rti
  | .brk => .brk
  | .bcc => .bcc l
  | .bcs => .bcs l
  | .beq => .beq l
  | .bne => .bne l
  | .bmi => .bmi l
  | .bpl => .bpl l
  | .bvc => .bvc l
  | .bvs => .bvs l
  | .pha => .pha
  | .php => .php
  | .pla => .pla
  | .plp => .plp
  | .clc => .clc
  | .sec => .sec
  | .cli => .cli
  | .sei => .sei
  | .cld => .cld
  | .sed => .sed
  | .clv => .clv
  | .nop => if op = 0xEA then .nop else .nopUndoc op (operandOf mode l h)
  | .lax => .lax (operandOf mode l h)
  | .sax => .sax (operandOf mode l h)
  | .usbc => .usbc l
  | .dcp => .dcp (operandOf mode l h)
  | .isb => .isb (operandOf mode l h)
  | .slo => .slo (operandOf mode l h)
  | .rla => .rla (operandOf mode l h)
  | .sre => .sre (operandOf mode l h)
  | .rra => .rra (operandOf mode l h)
  | .anc => .anc op l
  | .alr => .alr l
  | .jam => .jam op
  | .invalid => .invalid op

/-- The instruction of an opcode byte and the two bytes after it; a byte beyond its length is not looked at (R131). -/
def assemble (op l h : Byte) : Instr := (rowOf op).mn.build op (rowOf op).mode l h

/-- Why a byte string is no instruction: it ends before the instruction does. -/
inductive DecodeError where
  /-- There is no opcode byte. -/
  | empty
  /-- Operand bytes are missing: how many the instruction has, how many bytes there are. -/
  | truncated (len got : Nat)
deriving DecidableEq, Repr

/-- Decode the first instruction of a byte string and give the bytes after it. -/
def decode : List Byte → Except DecodeError (Instr × List Byte)
  | [] => .error .empty
  | op :: rest =>
    match lengthOf op, rest with
    | 1, _ => .ok (assemble op 0 0, rest)
    | 2, l :: rest' => .ok (assemble op l 0, rest')
    | 3, l :: h :: rest' => .ok (assemble op l h, rest')
    | n, _ => .error (.truncated n (1 + rest.length))

/-- The operand bytes of an operand, in memory order (R131, R133). -/
def Operand.bytes : Operand → List Byte
  | .imp | .acc => []
  | .imm v => [v]
  | .zp d | .zpx d | .zpy d | .izx d | .izy d => [d]
  | .abs a | .abx a | .aby a => [loByte a, hiByte a]

/-- What an instruction is in the matrix: its mnemonic, the opcode byte it carries if it carries one, its mode, its operand
bytes in memory order (R131, R133). -/
def Instr.parts : Instr → Mnemonic × Option Byte × Mode × List Byte
  | .lda m => (.lda, none, m.mode, m.bytes)
  | .ldx m => (.ldx, none, m.mode, m.bytes)
  | .ldy m => (.ldy, none, m.mode, m.bytes)
  | .sta m => (.sta, none, m.mode, m.bytes)
  | .stx m => (.stx, none, m.mode, m.bytes)
  | .sty m => (.sty, none, m.mode, m.bytes)
  | .tax => (.tax, none, .imp, [])
  | .tay => (.tay, none, .imp, [])
  | .txa => (.txa, none, .imp, [])
  | .tya => (.tya, none, .imp, [])
  | .tsx => (.tsx, none, .imp, [])
  | .txs => (.txs, none, .imp, [])
  | .adc m => (.adc, none, m.mode, m.bytes)
  | .sbc m => (.sbc, none, m.mode, m.bytes)
  | .and m => (.and, none, m.mode, m.bytes)
  | .ora m => (.ora, none, m.mode, m.bytes)
  | .eor m => (.eor, none, m.mode, m.bytes)
  | .cmp m => (.cmp, none, m.mode, m.bytes)
  | .cpx m => (.cpx, none, m.mode, m.bytes)
  | .cpy m => (.cpy, none, m.mode, m.bytes)
  | .bit m => (.bit, none, m.mode, m.bytes)
  | .inc m => (.inc, none, m.mode, m.bytes)
  | .dec m => (.dec, none, m.mode, m.bytes)
  | .inx => (.inx, none, .imp, [])
  | .iny => (.iny, none, .imp, [])
  | .dex => (.dex, none, .imp, [])
  | .dey => (.dey, none, .imp, [])
  | .asl m => (.asl, none, m.mode, m.bytes)
  | .lsr m => (.lsr, none, m.mode, m.bytes)
  | .rol m => (.rol, none, m.mode, m.bytes)
  | .ror m => (.ror, none, m.mode, m.bytes)
  | .jmp a => (.jmp, none, .abs, [loByte a, hiByte a])
  | .jmpInd a => (.jmp, none, .ind, [loByte a, hiByte a])
  | .jsr a => (.jsr, none, .abs, [loByte a, hiByte a])
  | .rts => (.rts, none, .imp, [])
  | .rti => (.rti, none, .imp, [])
  | .brk => (.brk, none, .imp, [])
  | .bcc d => (.bcc, none, .rel, [d])
  | .bcs d => (.bcs, none, .rel, [d])
  | .beq d => (.beq, none, .rel, [d])
  | .bne d => (.bne, none, .rel, [d])
  | .bmi d => (.bmi, none, .rel, [d])
  | .bpl d => (.bpl, none, .rel, [d])
  | .bvc d => (.bvc, none, .rel, [d])
  | .bvs d => (.bvs, none, .rel, [d])
  | .pha => (.pha, none, .imp, [])
  | .php => (.php, none, .imp, [])
  | .pla => (.pla, none, .imp, [])
  | .plp => (.plp, none, .imp, [])
  | .clc => (.clc, none, .imp, [])
  | .sec => (.sec, none, .imp, [])
  | .cli => (.cli, none, .imp, [])
  | .sei => (.sei, none, .imp, [])
  | .cld => (.cld, none, .imp, [])
  | .sed => (.sed, none, .imp, [])
  | .clv => (.clv, none, .imp, [])
  | .nop => (.nop, some 0xEA, .imp, [])
  | .lax m => (.lax, none, m.mode, m.bytes)
  | .sax m => (.sax, none, m.mode, m.bytes)
  | .usbc v => (.usbc, none, .imm, [v])
  | .dcp m => (.dcp, none, m.mode, m.bytes)
  | .isb m => (.isb, none, m.mode, m.bytes)
  | .slo m => (.slo, none, m.mode, m.bytes)
  | .rla m => (.rla, none, m.mode, m.bytes)
  | .sre m => (.sre, none, m.mode, m.bytes)
  | .rra m => (.rra, none, m.mode, m.bytes)
  | .anc op v => (.anc, some op, .imm, [v])
  | .alr v => (.alr, none, .imm, [v])
  | .jam op => (.jam, some op, .imp, [])
  | .nopUndoc op m => (.nop, some op, m.mode, m.bytes)
  | .invalid op => (.invalid, some op, .none, [])

/-- The mnemonic of an instruction. -/
def Instr.mnemonic (i : Instr) : Mnemonic := i.parts.1

/-- The addressing mode of an instruction. -/
def Instr.mode (i : Instr) : Mode := i.parts.2.2.1

/-- The operand bytes of an instruction, in memory order. -/
def Instr.operandBytes (i : Instr) : List Byte := i.parts.2.2.2

/-- The opcode byte of a mnemonic in a mode, searched in the matrix; 0 for a pair the matrix does not hold, which no
well-formed instruction has. -/
def opcodeFor (mn : Mnemonic) (mode : Mode) : Byte :=
  match opcodeMatrix.find? (fun r => decide (r.mn = mn) && decide (r.mode = mode)) with
  | some r => r.op
  | none => 0

/-- The opcode byte of an instruction: the one it carries, or the matrix's for its mnemonic and mode. -/
def Instr.opcode (i : Instr) : Byte := i.parts.2.1.getD (opcodeFor i.mnemonic i.mode)

/-- The bytes of an instruction in memory order: the opcode, then the operand bytes (R91, R131). -/
def encode (i : Instr) : List Byte := i.opcode :: i.operandBytes

/-- The length in bytes of an instruction (R131). -/
def Instr.len (i : Instr) : Nat := i.mode.len

/-- The base cost of an instruction: the `cyc` column of its row (R135, R140). -/
def Instr.baseCycles (i : Instr) : Nat := (rowOf i.opcode).cyc

/-- The three bytes from an instruction's table bits on, in memory order: the table numbers bit 0 as the least significant
bit of the first byte; every bit from `nbits` on is 0. -/
def tableBytes (nbits w : Nat) : List Byte :=
  let v := w % 2 ^ nbits
  [BitVec.ofNat 8 v, BitVec.ofNat 8 (v / 256), BitVec.ofNat 8 (v / 65536)]

/-- The instruction the decoder reads from an instruction's bits as the opcode table numbers them. -/
def decodeTableWord (nbits w : Nat) : Option Instr :=
  match decode (tableBytes nbits w) with
  | .ok (i, _) => some i
  | .error _ => none

end Sys2Proof
end

