-- ==== Sys2Proof/Config.lean ====
section
/-!
DEFINITION. The named parameters of R8, which the machine takes as arguments, and the one open value.
The parameters with a default stand in `State.config` (log 5), so that a statement about every state is a statement about
every setting of them; `Config.systemPalette` is the constant the spec leaves OPEN (log 12).
-/

namespace Sys2Proof

/-- `BRK_MODE` (R8, D3): what opcode 0x00 does (R246). -/
inductive BrkMode where
  | trap
  | vector
deriving DecidableEq, Repr

/-- `NMI_ON_CTRL_WRITE` (R8, D24): which PPUCTRL writes during VBlank request an NMI (R306). -/
inductive NmiOnCtrlWrite where
  | level
  | rising
deriving DecidableEq, Repr

/-- `DMA_CYCLES` (R8, R362, D30): the two costs the source allows for one OAM DMA. -/
inductive DmaCycles where
  | c513
  | c514
deriving DecidableEq, Repr

/-- The number of CPU cycles billed for one OAM DMA. -/
def DmaCycles.toNat : DmaCycles → Nat
  | .c513 => 513
  | .c514 => 514

/-- The parameters of R8 that rules of the core read, fixed for a run. -/
structure Config where
  brkMode        : BrkMode
  unmappedRead   : Byte
  dmaCycles      : DmaCycles
  jamCycles      : Nat
  nmiOnCtrlWrite : NmiOnCtrlWrite
deriving DecidableEq, Repr

/-- The defaults of R8. -/
def Config.default : Config where
  brkMode := .trap
  unmappedRead := 0x00
  dmaCycles := .c513
  jamCycles := 2
  nmiOnCtrlWrite := .level

/-- R8: `JAM_CYCLES` must be at least 1 (R292 says why: R430 would not terminate). -/
def Config.wf (c : Config) : Bool := decide (1 ≤ c.jamCycles)

/-- `SYSTEM_PALETTE` (R8, R347, D19): the RGBA8 pixel of each 6-bit colour number. OPEN: the spec gives no value, and
nothing in Lean can prove one. -/
opaque Config.systemPalette : BitVec 6 → BitVec 32

end Sys2Proof
end

