-- ==== Sys2Proof/Machine/State.lean ====
section
/-!
DEFINITION. The state of the machine as plain data: everything `10_state.md` lists, the parameters of R8, and three fields
that say which agent moves next (R15, R440). Every memory is a list of keyed cells in one canonical form (log 11).
-/

namespace Sys2Proof.Machine

/-- A sparse memory: keys strictly rising, and no cell that holds what an unlisted key reads as (`Machine/Store.lean`). -/
abbrev Cells (α : Type) := List (Nat × α)

/-- A byte memory. An unlisted address reads as 0x00: the reset content of every RAM of this hardware (R51). -/
abbrev Memory := List Host.Cell

/-- The six stored flags of P (R25). Bit 5 is not stored and reads 1, bit 4 exists only in pushed copies (R25, R27). -/
structure Flags where
  c : Bool
  z : Bool
  i : Bool
  d : Bool
  v : Bool
  n : Bool
deriving DecidableEq, Repr

/-- The direction of a bus access (R13). -/
inductive Dir where
  | read
  | write
deriving DecidableEq, Repr

/-- The eight PPU registers on the CPU bus, in the order of their numbers 0 to 7 (R75, R300). -/
inductive PpuReg where
  | ppuctrl | ppumask | ppustatus | oamaddr | oamdata | ppuscroll | ppuaddr | ppudata
deriving DecidableEq, Repr

/-- The kinds of fatal trap (R13, R380). -/
inductive TrapKind where
  | invalidOpcode (op : Byte)
  | brk
  | ppuRegisterMisuse (r : PpuReg) (dir : Dir)
  | cartridgeOutOfRange
deriving DecidableEq, Repr

/-- The two mappers (R110): `MAPPER_ID` 0 and 2. -/
inductive Mapper where
  | nrom
  | uxrom
deriving DecidableEq, Repr

/-- Nametable mirroring (R6, R103); four-screen is refused at load (R7, C7). -/
inductive Mirroring where
  | horizontal
  | vertical
deriving DecidableEq, Repr

/-- The cartridge (R6, R35, R36): configuration and ROM fixed at load, `chrRam` and `bankSelect` changing. `bankSelect`
exists for UxROM only (R36): NROM neither reads nor writes it. -/
structure Cart where
  mapper     : Mapper
  prgBanks   : Nat
  chrBanks   : Nat
  mirroring  : Mirroring
  prg        : Memory
  chr        : Memory
  chrRam     : Memory
  bankSelect : BitVec 4
deriving DecidableEq, Repr

/-- A pixel of the framebuffer: the zero it holds after reset (R51), or `SYSTEM_PALETTE(k)`, kept as the colour number `k`
(R347: "A model keeps pixels symbolic or stores k itself"; log 12). -/
inductive Pixel where
  | clear
  | colour (k : BitVec 6)
deriving DecidableEq, Repr

/-- The RGBA8 value of a pixel (R347, R48). -/
def Pixel.rgba : Pixel → BitVec 32
  | .clear => 0
  | .colour k => Config.systemPalette k

/-- The PPU (R37 to R48). Rows of `framebuffer` and `bgmask` are keyed by the screen row (log 13). -/
structure Ppu where
  ctrl        : Byte
  mask        : Byte
  vblank      : Bool
  spr0hit     : Bool
  oamAddr     : Byte
  scrollX     : Byte
  scrollY     : Byte
  scrollLatch : Bool
  vramAddr    : Word
  addrLatch   : Bool
  readBuffer  : Byte
  vram        : Memory
  palette     : Memory
  oam         : Memory
  scanline    : Nat
  dot         : Nat
  framebuffer : Cells (List Pixel)
  bgmask      : Cells (List (BitVec 2))
deriving DecidableEq, Repr

/-- A joypad (R49). -/
structure Joypad where
  buttons : Byte
  index   : Byte
  strobe  : Bool
deriving DecidableEq, Repr

/-- Whether the core can run (R7, R420, R422): no valid image; a valid image that has not been reset yet; running. -/
inductive RomStatus where
  | absent
  | loaded
  | ready
deriving DecidableEq, Repr

/-- The buttons of a joypad, bit 0 to bit 7 of `buttons` (R368). -/
inductive Button where
  | a | b | select | start | up | down | left | right
deriving DecidableEq, Repr

/-- What the outside does to the core between ticks (R440), the external interrupt line among it (R31, log 6). -/
inductive HostMove where
  /-- `LoadRom(rom)` (R422). -/
  | loadRom (rom : List Byte)
  /-- `reset()` (R421). -/
  | reset
  /-- `Tick(n)` (R436). -/
  | tick (n : Nat)
  /-- Press a button of joypad 1 (R368). -/
  | keydown (b : Button)
  /-- Release a button of joypad 1 (R368). -/
  | keyup (b : Button)
  /-- Read the picture (R440: "no effect on state"). -/
  | readPicture
  /-- The interrupt line takes a level between two ticks (R31, D9). -/
  | irq (level : Bool)
deriving DecidableEq, Repr

/-- Which agent moves next (R15): the host, or the CPU inside its share of a `Tick(n)` with the budget that is left (R430). -/
inductive Turn where
  | between
  | inTick (n budget : Nat)
deriving DecidableEq, Repr

/-- The whole machine. `irqLevels` are the levels of the interrupt line at the coming instruction boundaries (R8: it "may
change between instruction boundaries", `92_eei_decisions.md`; log 6). -/
structure State where
  a               : Byte
  x               : Byte
  y               : Byte
  sp              : Byte
  pc              : Word
  p               : Flags
  remainingCycles : Int
  nmiPending      : Bool
  irqLine         : Bool
  irqLevels       : List Bool
  fault           : Option TrapKind
  config          : Config
  ram             : Memory
  cart            : Cart
  ppu             : Ppu
  joy1            : Joypad
  joy2            : Joypad
  rom             : RomStatus
  turn            : Turn
  hostMoves       : List HostMove
deriving DecidableEq, Repr

/-- Why the machine stops. -/
inductive Fault where
  /-- Raised by `step`, never by an instruction: the machine is in the fault state of R381 ("While `fault ≠ none` no agent
  steps") and the host has no move queued. Safe: the machine goes no further (log 7). -/
  | trapped (k : TrapKind)
deriving DecidableEq, Repr

/-- What the model does not run. -/
inductive Refusal where
  /-- Raised by `exec` for an instruction without a meaning: none in this model. Safe. -/
  | notModelled (mnemonic : String)
  /-- Raised by `step`: the host ticks or resets the core while no valid image is loaded (R7, R420). Safe. -/
  | noCartridge
  /-- Raised by `step`: the host ticks the core between `LoadRom` and `reset()` (R422, D34). Safe. -/
  | notReset
deriving DecidableEq, Repr

/-- The flags after reset: only I is set (R25, R51). -/
def Flags.reset : Flags := { c := false, z := false, i := true, d := false, v := false, n := false }

/-- The PPU after reset (R51). -/
def Ppu.reset : Ppu where
  ctrl := 0x00
  mask := 0x00
  vblank := false
  spr0hit := false
  oamAddr := 0x00
  scrollX := 0x00
  scrollY := 0x00
  scrollLatch := false
  vramAddr := 0x0000
  addrLatch := false
  readBuffer := 0x00
  vram := []
  palette := []
  oam := []
  scanline := 0
  dot := 0
  framebuffer := []
  bgmask := []

/-- A joypad after reset with no button held (R51; `buttons1` default 0x00). -/
def Joypad.reset : Joypad := { buttons := 0x00, index := 0x00, strobe := false }

/-- DESIGN CHOICE (log 1): the cartridge of `State.reset`, for which the spec gives no image. A legal NROM image (R6, R7)
with two PRG banks and one CHR bank, horizontal mirroring, every ROM byte 0x00. -/
def Cart.blank : Cart where
  mapper := .nrom
  prgBanks := 2
  chrBanks := 1
  mirroring := .horizontal
  prg := []
  chr := []
  chrRam := []
  bankSelect := 0

/-- The machine right after `reset()` (R51), with the blank cartridge loaded (log 1), the default parameters of R8, and no
host move queued. PC is `Rd16(0xFFFC)`, which reads 0x0000 from the blank cartridge. -/
def State.reset : State where
  a := 0x00
  x := 0x00
  y := 0x00
  sp := 0xFD
  pc := 0x0000
  p := Flags.reset
  remainingCycles := 7
  nmiPending := false
  irqLine := false
  irqLevels := []
  fault := none
  config := Config.default
  ram := []
  cart := Cart.blank
  ppu := Ppu.reset
  joy1 := Joypad.reset
  joy2 := Joypad.reset
  rom := .ready
  turn := .between
  hostMoves := []

end Sys2Proof.Machine
end

