-- ==== Sys2Proof/Machine/Flags.lean ====
section
/-!
DEFINITION. The flags: the byte images of P (R27, R28), and every flag computation the rules give.
-/

namespace Sys2Proof.Machine

/-- `Pbyte(b)` (R27): the pushed image of P, bit 5 one and bit 4 the given B. -/
def Flags.pbyte (p : Flags) (b : Bool) : Byte :=
  BitVec.ofBool p.n ++ BitVec.ofBool p.v ++ BitVec.ofBool true ++ BitVec.ofBool b ++
    BitVec.ofBool p.d ++ BitVec.ofBool p.i ++ BitVec.ofBool p.z ++ BitVec.ofBool p.c

/-- `SetP(v)` (R28): the six stored flags from a byte; its bits 5 and 4 are dropped. -/
def Flags.ofByte (v : Byte) : Flags where
  c := v.getLsbD 0
  z := v.getLsbD 1
  i := v.getLsbD 2
  d := v.getLsbD 3
  v := v.getLsbD 6
  n := v.getLsbD 7

/-- `SetNZ(v)` (R12). -/
def Flags.setNZ (p : Flags) (v : Byte) : Flags := { p with z := decide (v = 0), n := bit7 v }

/-- `AddCore(a, m, c)` (R202): the byte, the carry out, the signed overflow. -/
def addCore (a m : Byte) (c : Bool) : Byte × Bool × Bool :=
  let sum := a.toNat + m.toNat + c.toNat
  let r := BitVec.ofNat 8 sum
  (r, decide (sum > 0xFF), decide ((a ^^^ r) &&& (m ^^^ r) &&& 0x80 ≠ 0))

/-- ADC's result and flags (R203): A, then C, V, N, Z. The flag D plays no part (R201). -/
def adcCore (a m : Byte) (p : Flags) : Byte × Flags :=
  let s := addCore a m p.c
  (s.1, { p with c := s.2.1, v := s.2.2 }.setNZ s.1)

/-- SBC's result and flags (R204): ADC of the complement of the operand. -/
def sbcCore (a m : Byte) (p : Flags) : Byte × Flags := adcCore a (~~~m) p

/-- `Compare(r, m)` (R209): C, Z, N; V and the register are left alone. -/
def Flags.compare (p : Flags) (r m : Byte) : Flags :=
  { p with c := decide (m.toNat ≤ r.toNat), z := decide (r = m), n := bit7 (r - m) }

/-- BIT's flags (R213): Z from A and M, N and V from bits 7 and 6 of M. -/
def Flags.bitTest (p : Flags) (a m : Byte) : Flags :=
  { p with z := decide (a &&& m = 0), n := bit7 m, v := m.getLsbD 6 }

/-- ASL's result and the carry (R231). -/
def aslCore (m : Byte) (p : Flags) : Byte × Flags := (m <<< 1, { p with c := bit7 m })

/-- LSR's result and the carry (R232). -/
def lsrCore (m : Byte) (p : Flags) : Byte × Flags := (m >>> 1, { p with c := m.getLsbD 0 })

/-- ROL's result and the carry (R233): a 9-bit rotation of (C, M). -/
def rolCore (m : Byte) (p : Flags) : Byte × Flags :=
  ((m <<< 1) ||| (BitVec.ofBool p.c).setWidth 8, { p with c := bit7 m })

/-- ROR's result and the carry (R234). -/
def rorCore (m : Byte) (p : Flags) : Byte × Flags :=
  ((m >>> 1) ||| ((BitVec.ofBool p.c).setWidth 8 <<< 7), { p with c := m.getLsbD 0 })

end Sys2Proof.Machine
end

