-- ==== Sys2Proof/Machine/Store.lean ====
section
/-!
DEFINITION. The one kind of memory of the model: a sparse list of keyed cells. `d` is what an unlisted key reads as. A write
removes the old cell and lists a new one only if it differs from `d`, so equal memories are equal lists (log 11).
-/

namespace Sys2Proof.Machine

/-- What the cell at key `k` holds. -/
def Cells.read {α : Type} (d : α) : Cells α → Nat → α
  | [], _ => d
  | (k', v) :: m, k => if k' = k then v else Cells.read d m k

/-- The memory without the cell at key `k`. -/
def Cells.erase {α : Type} (m : Cells α) (k : Nat) : Cells α := m.filter (fun c => decide (c.1 ≠ k))

/-- The memory with one more cell, before the first cell of a greater key. -/
def Cells.insert {α : Type} (k : Nat) (v : α) : Cells α → Cells α
  | [] => [(k, v)]
  | c :: m => if k < c.1 then (k, v) :: c :: m else c :: Cells.insert k v m

/-- The memory after `v` is written at key `k`. -/
def Cells.write {α : Type} [DecidableEq α] (d : α) (m : Cells α) (k : Nat) (v : α) : Cells α :=
  if v = d then m.erase k else Cells.insert k v (m.erase k)

/-- The canonical form: keys strictly rising, no cell that holds `d`. -/
def Cells.wf {α : Type} [DecidableEq α] (d : α) : Cells α → Bool
  | [] => true
  | c :: m => decide (c.2 ≠ d) && m.all (fun c' => decide (c.1 < c'.1)) && Cells.wf d m

/-- Every key lies below a bound: the size of the memory. -/
def Cells.below {α : Type} (n : Nat) (m : Cells α) : Bool := m.all (fun c => decide (c.1 < n))

/-- One byte of a byte memory; unlisted bytes read 0x00 (R51). -/
def Memory.read (m : Memory) (k : Nat) : Byte := Cells.read 0x00 m k

/-- A byte memory after one byte is written. -/
def Memory.write (m : Memory) (k : Nat) (v : Byte) : Memory := Cells.write 0x00 m k v

/-- The canonical form of a byte memory of `size` bytes. -/
def Memory.wf (size : Nat) (m : Memory) : Bool := Cells.wf (0x00 : Byte) m && Cells.below size m

/-- A byte memory that holds a list of bytes from key `k` on, in canonical form. -/
def Memory.ofBytes (k : Nat) : List Byte → Memory
  | [] => []
  | b :: bs => if b = 0x00 then Memory.ofBytes (k + 1) bs else (k, b) :: Memory.ofBytes (k + 1) bs

end Sys2Proof.Machine
end

