-- ==== Sys2Proof/Machine/Joypad.lean ====
section
/-!
DEFINITION. The joypads (R365 to R369).
-/

namespace Sys2Proof.Machine

/-- `JoyWrite(j, v)` (R365). -/
def Joypad.write (j : Joypad) (v : Byte) : Joypad :=
  { j with strobe := v.getLsbD 0, index := if v.getLsbD 0 then 0 else j.index }

/-- `JoyRead(j)` (R367): the byte read, 0x00 or 0x01, and the joypad after it. -/
def Joypad.read (j : Joypad) : Byte × Joypad :=
  if j.strobe then ((BitVec.ofBool (j.buttons.getLsbD 0)).setWidth 8, j)
  else if j.index.toNat ≥ 8 then (0x01, j)
  else ((BitVec.ofBool (j.buttons.getLsbD j.index.toNat)).setWidth 8, { j with index := j.index + 1 })

/-- The bit of a button in `buttons` (R368). -/
def Button.bit : Button → Nat
  | .a => 0
  | .b => 1
  | .select => 2
  | .start => 3
  | .up => 4
  | .down => 5
  | .left => 6
  | .right => 7

/-- The button pressed (R368). -/
def Joypad.press (j : Joypad) (k : Button) : Joypad := { j with buttons := j.buttons ||| BitVec.twoPow 8 k.bit }

/-- The button released (R368). -/
def Joypad.release (j : Joypad) (k : Button) : Joypad :=
  { j with buttons := j.buttons &&& ~~~(BitVec.twoPow 8 k.bit) }

/-- What `reset()` does to a joypad (R421): index and strobe cleared, the buttons untouched. -/
def Joypad.clear (j : Joypad) : Joypad := { j with index := 0, strobe := false }

end Sys2Proof.Machine
end

