-- ==== Sys2Proof/Machine/Cartridge.lean ====
section
/-!
DEFINITION. The cartridge: the mapper's five operations (R110), NROM (R111 to R113, R118, R119), UxROM (R114 to R117, R120,
R121), and the reading of a ROM image (R6, R7).
-/

namespace Sys2Proof.Machine

/-- The PRG byte a CPU address in 0x8000-0xFFFF reaches, or the trap of R117: NROM R111, UxROM R115. -/
def Cart.prgIndex (c : Cart) (a : Nat) : Except TrapKind Nat :=
  match c.mapper with
  | .nrom => if c.prgBanks = 1 then .ok ((a - 0x8000) % 0x4000) else .ok (a - 0x8000)
  | .uxrom =>
    if a < 0xC000 then
      if c.bankSelect.toNat ≥ c.prgBanks then .error .cartridgeOutOfRange
      else .ok (c.bankSelect.toNat * 0x4000 + (a - 0x8000))
    else .ok ((c.prgBanks - 1) * 0x4000 + (a - 0xC000))

/-- `MapperRdPrg(a)` (R111, R115), `a` in 0x8000-0xFFFF. -/
def Cart.readPrg (c : Cart) (a : Nat) : Except TrapKind Byte := (c.prgIndex a).map c.prg.read

/-- `MapperWrPrg(a, v)` (R112: NROM ignores it; R116: UxROM selects a bank whatever the address). -/
def Cart.writePrg (c : Cart) (v : Byte) : Cart :=
  match c.mapper with
  | .nrom => c
  | .uxrom => { c with bankSelect := v.setWidth 4 }

/-- `MapperReset` (R113, R116). -/
def Cart.reset (c : Cart) : Cart :=
  match c.mapper with
  | .nrom => c
  | .uxrom => { c with bankSelect := 0 }

/-- CHR is the 8 KiB scratch RAM: UxROM without CHR ROM (R35, R120). -/
def Cart.chrIsRam (c : Cart) : Bool := decide (c.mapper = .uxrom) && decide (c.chrBanks = 0)

/-- `ChrRd(a)` (R118, R120), `a` in 0x0000-0x1FFF. -/
def Cart.readChr (c : Cart) (a : Nat) : Byte := if c.chrIsRam then c.chrRam.read a else c.chr.read a

/-- `ChrWr(a, v)` (R119, R121): stored in `chr_ram` only, dropped on ROM. -/
def Cart.writeChr (c : Cart) (a : Nat) (v : Byte) : Cart :=
  if c.chrIsRam then { c with chrRam := c.chrRam.write a v } else c

/-- Why a ROM image is refused (R7, D34). -/
inductive LoadError where
  | signature
  | version
  | mapper
  | prgBanks
  | nromBanks
  | fourScreen
  | tooShort
deriving DecidableEq, Repr

/-- `MAPPER_ID` (R6): the high digit of byte 7 over the high digit of byte 6. -/
def headerMapperId (b6 b7 : Byte) : Nat := (b7.toNat / 16) * 16 + b6.toNat / 16

/-- `MIRRORING` (R6), none for four-screen, which bit 3 selects before bit 0 is looked at. -/
def headerMirroring (b6 : Byte) : Option Mirroring :=
  if b6.getLsbD 3 then none else if b6.getLsbD 0 then some .vertical else some .horizontal

/-- The offset of PRG in the image (R6): after the header and the trainer, if there is one. -/
def prgOffset (b6 : Byte) : Nat := 16 + if b6.getLsbD 2 then 512 else 0

/-- The cartridge of a header whose mapper, mirroring and bank counts are accepted. -/
def cartOf (rom : List Byte) (mapper : Mapper) (mir : Mirroring) (b4 b5 b6 : Byte) : Except LoadError Cart :=
  let prgSize := b4.toNat * 16384
  let chrSize := b5.toNat * 8192
  let off := prgOffset b6
  if rom.length < off + prgSize + chrSize then .error .tooShort
  else .ok {
    mapper := mapper
    prgBanks := b4.toNat
    chrBanks := b5.toNat
    mirroring := mir
    prg := Memory.ofBytes 0 ((rom.drop off).take prgSize)
    chr := Memory.ofBytes 0 ((rom.drop (off + prgSize)).take chrSize)
    chrRam := []
    bankSelect := 0 }

/-- The cartridge of a ROM image (R6), or the reason it is refused (R7): the signature, a version field that is not 0, a
mapper other than 0 and 2, no PRG, an NROM image with more than two PRG banks or no CHR, four-screen mirroring, an image
shorter than its header implies. -/
def Cart.ofRom (rom : List Byte) : Except LoadError Cart :=
  match rom with
  | 0x4E :: 0x45 :: 0x53 :: 0x1A :: b4 :: b5 :: b6 :: b7 :: _ =>
    if b7 &&& 0x0C ≠ 0 then .error .version
    else if headerMapperId b6 b7 ≠ 0 ∧ headerMapperId b6 b7 ≠ 2 then .error .mapper
    else if b4 = 0 then .error .prgBanks
    else if headerMapperId b6 b7 = 0 ∧ (b4.toNat > 2 ∨ b5 = 0) then .error .nromBanks
    else match headerMirroring b6 with
      | none => .error .fourScreen
      | some mir => cartOf rom (if headerMapperId b6 b7 = 0 then .nrom else .uxrom) mir b4 b5 b6
  | _ => .error .signature

/-- A cartridge that `LoadRom` can produce (R6, R7): bank counts of one header byte, NROM with one or two PRG banks and
some CHR, memories in canonical form and within their sizes. -/
def Cart.wf (c : Cart) : Bool :=
  decide (1 ≤ c.prgBanks) && decide (c.prgBanks < 256) && decide (c.chrBanks < 256) &&
  (match c.mapper with
    | .nrom => decide (c.prgBanks ≤ 2) && decide (1 ≤ c.chrBanks) && decide (c.bankSelect = 0)
    | .uxrom => true) &&
  Memory.wf (c.prgBanks * 16384) c.prg && Memory.wf (c.chrBanks * 8192) c.chr && Memory.wf 8192 c.chrRam &&
  (c.chrIsRam || decide (c.chrRam = []))

end Sys2Proof.Machine
end

