-- ==== Sys2Proof/Machine/PpuBus.lean ====
section
/-!
DEFINITION. The PPU bus (R99 to R106): CHR through the mapper, nametables through the mirroring, palette.
-/

namespace Sys2Proof.Machine

/-- `NtIndex(a)` (R103, R102): the cell of the 2 KiB `vram` behind a PPU address in 0x2000-0x3EFF. -/
def ntIndex (mir : Mirroring) (a : Nat) : Nat :=
  let r := (a - 0x2000) % 0x1000
  let t := r / 0x0400
  let off := r % 0x0400
  let phys := match mir with
    | .horizontal => t / 2
    | .vertical => t % 2
  phys * 0x0400 + off

/-- `PalIndex(a)` (R105): the cell of `palette` behind a PPU address in 0x3F00-0x3FFF. -/
def palIndex (a : Nat) : Nat :=
  let i := a % 0x20
  if i = 0x10 ∨ i = 0x14 ∨ i = 0x18 ∨ i = 0x1C then i - 0x10 else i

/-- `PpuRd(addr)` (R100). No read of this bus has a side effect. -/
def ppuRd (c : Cart) (p : Ppu) (addr : Nat) : Byte :=
  let a := addr % 0x4000
  if a < 0x2000 then c.readChr a
  else if a < 0x3F00 then p.vram.read (ntIndex c.mirroring a)
  else p.palette.read (palIndex a)

/-- `PpuWr(addr, v)` (R101). -/
def ppuWr (c : Cart) (p : Ppu) (addr : Nat) (v : Byte) : Cart × Ppu :=
  let a := addr % 0x4000
  if a < 0x2000 then (c.writeChr a v, p)
  else if a < 0x3F00 then (c, { p with vram := p.vram.write (ntIndex c.mirroring a) v })
  else (c, { p with palette := p.palette.write (palIndex a) v })

/-- `ppuctrl.nt` (R37). -/
def Ppu.nt0 (p : Ppu) : Bool := p.ctrl.getLsbD 0

/-- `ppuctrl.nt` bit 1 (R37). -/
def Ppu.nt1 (p : Ppu) : Bool := p.ctrl.getLsbD 1

/-- `ppuctrl.inc32` (R37). -/
def Ppu.inc32 (p : Ppu) : Bool := p.ctrl.getLsbD 2

/-- `ppuctrl.spr_bank` (R37). -/
def Ppu.sprBank (p : Ppu) : Bool := p.ctrl.getLsbD 3

/-- `ppuctrl.bg_bank` (R37). -/
def Ppu.bgBank (p : Ppu) : Bool := p.ctrl.getLsbD 4

/-- `ppuctrl.spr16` (R37). -/
def Ppu.spr16 (p : Ppu) : Bool := p.ctrl.getLsbD 5

/-- `ppuctrl.nmi_en` (R37). -/
def Ppu.nmiEn (p : Ppu) : Bool := p.ctrl.getLsbD 7

/-- `ppumask.bg_left8` (R38): 1 shows. -/
def Ppu.bgLeft8 (p : Ppu) : Bool := p.mask.getLsbD 1

/-- `ppumask.spr_left8` (R38): 1 shows. -/
def Ppu.sprLeft8 (p : Ppu) : Bool := p.mask.getLsbD 2

/-- `ppumask.bg_en` (R38). -/
def Ppu.bgEn (p : Ppu) : Bool := p.mask.getLsbD 3

/-- `ppumask.spr_en` (R38). -/
def Ppu.sprEn (p : Ppu) : Bool := p.mask.getLsbD 4

end Sys2Proof.Machine
end

