-- ==== Sys2Proof/Machine/PpuRegs.lean ====
section
/-!
DEFINITION. What an access to each PPU register does to the PPU (R300 to R319). The traps of R303 are raised by the CPU bus in
`Ops.lean`.
-/

namespace Sys2Proof.Machine

/-- The register a CPU address in 0x2000-0x3FFF selects, `addr & 7` (R75). -/
def PpuReg.select (n : Nat) : PpuReg :=
  match n % 8 with
  | 0 => .ppuctrl
  | 1 => .ppumask
  | 2 => .ppustatus
  | 3 => .oamaddr
  | 4 => .oamdata
  | 5 => .ppuscroll
  | 6 => .ppuaddr
  | _ => .ppudata

/-- The byte a PPUSTATUS read returns: bit 7 `vblank`, bit 6 `spr0hit`, bits 5:0 zero (R39, R308). -/
def Ppu.statusByte (p : Ppu) : Byte :=
  BitVec.ofBool p.vblank ++ BitVec.ofBool p.spr0hit ++ (0 : BitVec 6)

/-- `StatusRead()` (R308): the value before the clearing; `vblank` and both latches are cleared. -/
def Ppu.statusRead (p : Ppu) : Byte × Ppu :=
  (p.statusByte, { p with vblank := false, scrollLatch := false, addrLatch := false })

/-- `oam[oam_addr]` (R310). -/
def Ppu.oamDataRead (p : Ppu) : Byte := p.oam.read p.oamAddr.toNat

/-- `OamDataWrite(v)` (R311). -/
def Ppu.oamDataWrite (p : Ppu) (v : Byte) : Ppu :=
  { p with oam := p.oam.write p.oamAddr.toNat v, oamAddr := p.oamAddr + 1 }

/-- `ScrollWrite(v)` (R313). -/
def Ppu.scrollWrite (p : Ppu) (v : Byte) : Ppu :=
  if p.scrollLatch then { p with scrollY := v, scrollLatch := false }
  else { p with scrollX := v, scrollLatch := true }

/-- `AddrWrite(v)` (R314). -/
def Ppu.addrWrite (p : Ppu) (v : Byte) : Ppu :=
  if p.addrLatch then { p with vramAddr := wordOf v (hiByte p.vramAddr), addrLatch := false }
  else { p with vramAddr := wordOf (loByte p.vramAddr) v, addrLatch := true }

/-- `IncVramAddr()` (R316). -/
def Ppu.incVramAddr (p : Ppu) : Ppu :=
  { p with vramAddr := p.vramAddr + (if p.inc32 then 32 else 1) }

/-- `DataRead()` (R315): below 0x3F00 the buffered byte, the buffer refilled from the address; from 0x3F00 on the palette
byte, the buffer filled from the nametable under it. -/
def Ppu.dataRead (c : Cart) (p : Ppu) : Byte × Ppu :=
  let a := p.vramAddr.toNat % 0x4000
  if a < 0x3F00 then (p.readBuffer, { p with readBuffer := ppuRd c p a }.incVramAddr)
  else (ppuRd c p a, { p with readBuffer := ppuRd c p (a - 0x1000) }.incVramAddr)

/-- `DataWrite(v)` (R317). -/
def Ppu.dataWrite (c : Cart) (p : Ppu) (v : Byte) : Cart × Ppu :=
  let r := ppuWr c p (p.vramAddr.toNat % 0x4000) v
  (r.1, r.2.incVramAddr)

/-- A PPUCTRL write of `v` requests an NMI (R306): bit 7 written while VBlank is set, and under `rising` not set before. -/
def Ppu.ctrlWriteNmi (mode : NmiOnCtrlWrite) (p : Ppu) (v : Byte) : Bool :=
  bit7 v && p.vblank && (decide (mode = .level) || !p.nmiEn)

end Sys2Proof.Machine
end

