-- ==== Sys2Proof/Machine/Ops.lean ====
section
/-!
DEFINITION. The named operations: the CPU bus (R70 to R78), the stack (R95, R96), the OAM-DMA engine (R361), taking a trap
(R381), entering an interrupt (R386) and returning from one (R244, R392), and retiring an instruction (R23, R431).
-/

namespace Sys2Proof.Machine

/-- What a bus operation does: it yields a value and the next state, or it raises a trap (R13). -/
inductive Res (α : Type) where
  | ok (v : α) (s : State)
  | trap (k : TrapKind)
deriving DecidableEq, Repr

/-- One operation after another; the first trap ends them (R383). -/
def Res.bind {α β : Type} (r : Res α) (f : α → State → Res β) : Res β :=
  match r with
  | .ok v s => f v s
  | .trap k => .trap k

/-- The three outcomes, with this machine's reasons. -/
abbrev Result := Host.Outcome State Fault Refusal

/-- `raise Trap(kind)` (R381): every piece of state as it was at the boundary before the faulting dispatch, and `fault` set.
The trap is taken: a next state, in which no agent steps until a reset. -/
def raiseTrap (boundary : State) (k : TrapKind) : Result := .next { boundary with fault := some k }

/-- The outcome of a bus operation of an instruction that began in state `s`. -/
def finish (s : State) : Res Unit → Result
  | .ok _ t => .next t
  | .trap k => raiseTrap s k

/-- More cycles to elapse before the next dispatch (R14, R29, R431; log 9). -/
def State.bill (s : State) (n : Nat) : State := { s with remainingCycles := s.remainingCycles + n }

/-- One byte of RAM by its index (R34). -/
def State.ramAt (s : State) (k : Nat) : Byte := s.ram.read k

/-- A read of PPU register `r` (R301, R303). -/
def ppuRegRead (r : PpuReg) (s : State) : Res Byte :=
  match r with
  | .ppustatus => .ok s.ppu.statusRead.1 { s with ppu := s.ppu.statusRead.2 }
  | .oamdata => .ok s.ppu.oamDataRead s
  | .ppudata => .ok (s.ppu.dataRead s.cart).1 { s with ppu := (s.ppu.dataRead s.cart).2 }
  | .ppuctrl | .ppumask | .oamaddr | .ppuscroll | .ppuaddr => .trap (.ppuRegisterMisuse r .read)

/-- `CtrlWrite(v)` (R306): all bits stored; an NMI is requested by setting `nmi_pending` (R385). -/
def ctrlWrite (v : Byte) (s : State) : State :=
  { s with
    ppu := { s.ppu with ctrl := v }
    nmiPending := s.nmiPending || s.ppu.ctrlWriteNmi s.config.nmiOnCtrlWrite v }

/-- A write of `v` to PPU register `r` (R302, R303). -/
def ppuRegWrite (r : PpuReg) (v : Byte) (s : State) : Res Unit :=
  match r with
  | .ppuctrl => .ok () (ctrlWrite v s)
  | .ppumask => .ok () { s with ppu := { s.ppu with mask := v } }
  | .ppustatus => .trap (.ppuRegisterMisuse .ppustatus .write)
  | .oamaddr => .ok () { s with ppu := { s.ppu with oamAddr := v } }
  | .oamdata => .ok () { s with ppu := s.ppu.oamDataWrite v }
  | .ppuscroll => .ok () { s with ppu := s.ppu.scrollWrite v }
  | .ppuaddr => .ok () { s with ppu := s.ppu.addrWrite v }
  | .ppudata => .ok () { s with cart := (s.ppu.dataWrite s.cart v).1, ppu := (s.ppu.dataWrite s.cart v).2 }

/-- `Rd(addr)`, the read router (R72): one byte, with the side effects and the traps of the device that answers. -/
def rd (addr : Word) (s : State) : Res Byte :=
  let a := addr.toNat
  if a < 0x2000 then .ok (s.ramAt (a % 0x800)) s
  else if a < 0x4000 then ppuRegRead (.select a) s
  else if a = 0x4016 then .ok s.joy1.read.1 { s with joy1 := s.joy1.read.2 }
  else if a = 0x4017 then .ok s.joy2.read.1 { s with joy2 := s.joy2.read.2 }
  else if a < 0x8000 then .ok s.config.unmappedRead s
  else match s.cart.readPrg a with
    | .ok v => .ok v s
    | .error k => .trap k

/-- `Rd16(addr)` (R92): low byte first, the address increment carries into the high byte. -/
def rd16 (addr : Word) (s : State) : Res Word :=
  (rd addr s).bind fun lo s1 => (rd (addr + 1) s1).bind fun hi s2 => .ok (wordOf lo hi) s2

/-- `n` bytes of an OAM DMA from page `v`, beginning with byte `i` (R361). -/
def dmaBytes (v : Byte) : Nat → Nat → State → Res Unit
  | 0, _, s => .ok () s
  | n + 1, i, s =>
    (rd (wordOf 0 v + BitVec.ofNat 16 i) s).bind fun b s1 =>
      dmaBytes v n (i + 1)
        { s1 with ppu := { s1.ppu with oam := s1.ppu.oam.write ((s1.ppu.oamAddr.toNat + i) % 256) b } }

/-- `OamDma(v)` (R361): 256 bytes through the read router into OAM from `oam_addr` on, and `DMA_CYCLES` billed (R362). -/
def oamDma (v : Byte) (s : State) : Res Unit :=
  (dmaBytes v 256 0 s).bind fun _ t => .ok () (t.bill t.config.dmaCycles.toNat)

/-- `Wr(addr, v)`, the write router (R73). -/
def wr (addr : Word) (v : Byte) (s : State) : Res Unit :=
  let a := addr.toNat
  if a < 0x2000 then .ok () { s with ram := s.ram.write (a % 0x800) v }
  else if a < 0x4000 then ppuRegWrite (.select a) v s
  else if a = 0x4014 then oamDma v s
  else if a = 0x4016 then .ok () { s with joy1 := s.joy1.write v }
  else if a = 0x4017 then .ok () { s with joy2 := s.joy2.write v }
  else if a < 0x8000 then .ok () s
  else .ok () { s with cart := s.cart.writePrg v }

/-- `RdZp16(p)` (R93): the 16-bit pointer at `p` in page 0, its high byte at `(p + 1) mod 256`. Page 0 is RAM (R74), so the
two reads are reads of `ram` and have no side effect. -/
def State.rdZp16 (s : State) (p : Byte) : Word := wordOf (s.ramAt p.toNat) (s.ramAt (p + 1).toNat)

/-- The address of the stack cell S points at, `0x0100 | S` (R21). -/
def stackAddr (sp : Byte) : Word := wordOf sp 0x01

/-- `Push(v)` (R95). -/
def push (v : Byte) (s : State) : Res Unit :=
  (wr (stackAddr s.sp) v s).bind fun _ t => .ok () { t with sp := t.sp - 1 }

/-- `Pull()` (R96). -/
def pull (s : State) : Res Byte := rd (stackAddr (s.sp + 1)) { s with sp := s.sp + 1 }

/-- Push a 16-bit value, high byte first (R90, R242, R386). -/
def pushWord (w : Word) (s : State) : Res Unit := (push (hiByte w) s).bind fun _ t => push (loByte w) t

/-- Pull a 16-bit value, low byte first (R243, R244). -/
def pullWord (s : State) : Res Word :=
  (pull s).bind fun lo t => (pull t).bind fun hi u => .ok (wordOf lo hi) u

/-- The NMI vector (R79). -/
def nmiVector : Word := 0xFFFA

/-- The reset vector (R79). -/
def resetVector : Word := 0xFFFC

/-- The vector of IRQ and BRK (R79). -/
def irqVector : Word := 0xFFFE

/-- Taking an interrupt, the one sequence of NMI, IRQ (R386, B = 0) and of BRK in vector mode (R246, B = 1): the return
address, high byte first, and `Pbyte(b)` pushed, I set, PC from the vector, 7 cycles. -/
def interruptEntry (vector ret : Word) (b : Bool) (s : State) : Res Unit :=
  (pushWord ret s).bind fun _ s1 =>
    (push (s1.p.pbyte b) s1).bind fun _ s2 =>
      (rd16 vector { s2 with p := { s2.p with i := true } }).bind fun target s3 =>
        .ok () ({ s3 with pc := target }.bill 7)

/-- Returning from an interrupt (R244, R392): P, then PC, pulled; nothing added to PC. -/
def interruptReturn (s : State) : Res Unit :=
  (pull s).bind fun v s1 =>
    (pullWord { s1 with p := .ofByte v }).bind fun target s2 => .ok () { s2 with pc := target }

/-- The end of an instruction that is no control transfer (R23, R431): PC past its bytes, its cost billed. -/
def State.retire (s : State) (len cost : Nat) : State :=
  { s with pc := s.pc + BitVec.ofNat 16 len }.bill cost

end Sys2Proof.Machine
end

