-- ==== Sys2Proof/Machine/Operands.lean ====
section
/-!
DEFINITION. The addressing modes (R160 to R173), the use of an operand (R174, R175), its cost (R176), and the shapes of
instruction built on them.
-/

namespace Sys2Proof.Machine

/-- What resolution yields (R160): the kind of the operand, its effective address, the page-cross indicator. -/
inductive Resolved where
  | none
  | acc
  | imm (v : Byte)
  | mem (ea : Word) (crossed : Bool)
deriving DecidableEq, Repr

/-- Resolution of an operand (R161 to R169, R171, R172). The operand bytes are fetched already; the pointer reads of `izx`
and `izy` are in page 0. -/
def resolve (m : Operand) (s : State) : Resolved :=
  match m with
  | .imp => .none
  | .acc => .acc
  | .imm v => .imm v
  | .zp d => .mem (zext16 d) false
  | .zpx d => .mem (zext16 (d + s.x)) false
  | .zpy d => .mem (zext16 (d + s.y)) false
  | .abs a => .mem a false
  | .abx base => .mem (base + zext16 s.x) (crosses base (base + zext16 s.x))
  | .aby base => .mem (base + zext16 s.y) (crosses base (base + zext16 s.y))
  | .izx d => .mem (s.rdZp16 (d + s.x)) false
  | .izy d => .mem (s.rdZp16 d + zext16 s.y) (crosses (s.rdZp16 d) (s.rdZp16 d + zext16 s.y))

/-- The page-cross indicator of a resolved operand (R160). -/
def Resolved.crossed : Resolved → Bool
  | .mem _ c => c
  | .none | .acc | .imm _ => false

/-- The effective address of a resolved operand in memory. -/
def Resolved.addr : Resolved → Option Word
  | .mem ea _ => some ea
  | .none | .acc | .imm _ => Option.none

/-- `Load()` (R174): at most one bus read. On `none`, which no instruction of R140 loads, the datum is A (R160; log 16). -/
def load (r : Resolved) (s : State) : Res Byte :=
  match r with
  | .imm v => .ok v s
  | .acc | .none => .ok s.a s
  | .mem ea _ => rd ea s

/-- `Store(v)` (R174): at most one bus write. On `imm` and `none`, which no instruction of R140 stores to, nothing happens
(log 16). -/
def store (r : Resolved) (v : Byte) (s : State) : Res Unit :=
  match r with
  | .acc => .ok () { s with a := v }
  | .mem ea _ => wr ea v s
  | .imm _ | .none => .ok () s

/-- The pointer reads of mode `ind` (R170): the high byte comes from the same page as the low byte. -/
def rdInd (ptr : Word) (s : State) : Res Word :=
  (rd ptr s).bind fun lo s1 => (rd (wordOf (loByte ptr + 1) (hiByte ptr)) s1).bind fun hi s2 => .ok (wordOf lo hi) s2

/-- Mode `rel` (R173): the target of a branch whose opcode is at `pc0`. -/
def branchTarget (pc0 : Word) (d : Byte) : Word := pc0 + 2 + sext16 d

/-- The length in bytes of an instruction with this operand (R131). -/
def lenOf (m : Operand) : Nat := m.mode.len

/-- The base cost of a read instruction per mode (R140; LDA, ADC, CMP, LAX, the undocumented NOPs and their like). -/
def readCycles : Operand → Nat
  | .imp | .acc | .imm _ => 2
  | .zp _ => 3
  | .zpx _ | .zpy _ | .abs _ | .abx _ | .aby _ => 4
  | .izy _ => 5
  | .izx _ => 6

/-- The cost of a store per mode (R140; R176: no penalty). -/
def writeCycles : Operand → Nat
  | .imp | .acc | .imm _ => 2
  | .zp _ => 3
  | .zpx _ | .zpy _ | .abs _ => 4
  | .abx _ | .aby _ => 5
  | .izx _ | .izy _ => 6

/-- The cost of a read-modify-write instruction per mode (R140, R230, R280; R176: no penalty). -/
def rmwCycles : Operand → Nat
  | .imp | .acc | .imm _ => 2
  | .zp _ => 5
  | .zpx _ | .zpy _ | .abs _ => 6
  | .abx _ | .aby _ => 7
  | .izx _ | .izy _ => 8

/-- The page-cross penalty (R176). -/
def penalty (crossed : Bool) : Nat := if crossed then 1 else 0

/-- A read instruction (R175): one `Load`, then its effect `f` on the datum. -/
def readInstr (m : Operand) (f : Byte → State → State) (s : State) : Result :=
  finish s ((load (resolve m s) s).bind fun v t =>
    .ok () ((f v t).retire (lenOf m) (readCycles m + penalty (resolve m s).crossed)))

/-- A store (R175): one `Store`, the effective address not read. -/
def writeInstr (m : Operand) (v : Byte) (s : State) : Result :=
  finish s ((store (resolve m s) v s).bind fun _ t => .ok () (t.retire (lenOf m) (writeCycles m)))

/-- A read-modify-write instruction (R175): one `Load`; the new value and flags by `g`; one `Store` of it; then the second
component `h` of the instruction, which works on the value just stored (R280). -/
def rmwInstr (m : Operand) (g : Byte → Flags → Byte × Flags) (h : Byte → State → State) (s : State) : Result :=
  finish s ((load (resolve m s) s).bind fun v t =>
    (store (resolve m s) (g v t.p).1 { t with p := (g v t.p).2 }).bind fun _ u =>
      .ok () ((h (g v t.p).1 u).retire (lenOf m) (rmwCycles m)))

/-- An implied instruction of two cycles that touches no memory (R161). -/
def impliedInstr (f : State → State) (s : State) : Result := .next ((f s).retire 1 2)

/-- `Branch(cond)` (R245). -/
def branch (d : Byte) (cond : Bool) (s : State) : Result :=
  if cond then
    .next ({ s with pc := branchTarget s.pc d }.bill (3 + penalty (crosses (s.pc + 2) (branchTarget s.pc d))))
  else .next (s.retire 2 2)

/-- `A <- v; SetNZ(A)`. -/
def State.loadA (v : Byte) (s : State) : State := { s with a := v, p := s.p.setNZ v }

/-- `X <- v; SetNZ(X)`. -/
def State.loadX (v : Byte) (s : State) : State := { s with x := v, p := s.p.setNZ v }

/-- `Y <- v; SetNZ(Y)`. -/
def State.loadY (v : Byte) (s : State) : State := { s with y := v, p := s.p.setNZ v }

/-- `SetNZ(v)`. -/
def State.testNZ (v : Byte) (s : State) : State := { s with p := s.p.setNZ v }

/-- The adder's effect on A and the flags (R203). -/
def State.addA (m : Byte) (s : State) : State := { s with a := (adcCore s.a m s.p).1, p := (adcCore s.a m s.p).2 }

/-- The subtraction's effect on A and the flags (R204). -/
def State.subA (m : Byte) (s : State) : State := { s with a := (sbcCore s.a m s.p).1, p := (sbcCore s.a m s.p).2 }

/-- The comparison of a register with the operand (R209). -/
def State.compareWith (r m : Byte) (s : State) : State := { s with p := s.p.compare r m }

end Sys2Proof.Machine
end

