-- ==== Sys2Proof/Machine/Arith.lean ====
section
/-!
DEFINITION. Arithmetic, logic, compare, bit test, increment and decrement (R200 to R220).
-/

namespace Sys2Proof.Machine

/-- ADC (R203). -/
def execAdc (m : Operand) (s : State) : Result := readInstr m State.addA s

/-- SBC (R204). -/
def execSbc (m : Operand) (s : State) : Result := readInstr m State.subA s

/-- AND (R206): `A <- A & M; SetNZ(A)`. -/
def execAnd (m : Operand) (s : State) : Result := readInstr m (fun v t => t.loadA (t.a &&& v)) s

/-- ORA (R207): `A <- A | M; SetNZ(A)`. -/
def execOra (m : Operand) (s : State) : Result := readInstr m (fun v t => t.loadA (t.a ||| v)) s

/-- EOR (R208): `A <- A ^ M; SetNZ(A)`. -/
def execEor (m : Operand) (s : State) : Result := readInstr m (fun v t => t.loadA (t.a ^^^ v)) s

/-- CMP (R210): `Compare(A, M)`. -/
def execCmp (m : Operand) (s : State) : Result := readInstr m (fun v t => t.compareWith t.a v) s

/-- CPX (R211): `Compare(X, M)`. -/
def execCpx (m : Operand) (s : State) : Result := readInstr m (fun v t => t.compareWith t.x v) s

/-- CPY (R212): `Compare(Y, M)`. -/
def execCpy (m : Operand) (s : State) : Result := readInstr m (fun v t => t.compareWith t.y v) s

/-- BIT (R213). -/
def execBit (m : Operand) (s : State) : Result := readInstr m (fun v t => { t with p := t.p.bitTest t.a v }) s

/-- INC (R214): one read, one write of `(M + 1) mod 256`, then N and Z. -/
def execInc (m : Operand) (s : State) : Result := rmwInstr m (fun v p => (v + 1, p)) State.testNZ s

/-- DEC (R215). -/
def execDec (m : Operand) (s : State) : Result := rmwInstr m (fun v p => (v - 1, p)) State.testNZ s

/-- INX (R216). -/
def execInx (s : State) : Result := impliedInstr (fun t => t.loadX (t.x + 1)) s

/-- INY (R217). -/
def execIny (s : State) : Result := impliedInstr (fun t => t.loadY (t.y + 1)) s

/-- DEX (R218). -/
def execDex (s : State) : Result := impliedInstr (fun t => t.loadX (t.x - 1)) s

/-- DEY (R219). -/
def execDey (s : State) : Result := impliedInstr (fun t => t.loadY (t.y - 1)) s

end Sys2Proof.Machine
end

