-- ==== Sys2Proof/Machine/Control.lean ====
section
/-!
DEFINITION. Jumps, subroutines, branches, RTI and BRK (R240 to R255).
-/

namespace Sys2Proof.Machine

/-- JMP in mode `abs` (R241): `PC <- ea`, 3 cycles. -/
def execJmp (target : Word) (s : State) : Result := .next ({ s with pc := target }.bill 3)

/-- JMP in mode `ind` (R241, R170): the target read through the pointer, 5 cycles. -/
def execJmpInd (ptr : Word) (s : State) : Result :=
  finish s ((rdInd ptr s).bind fun target t => .ok () ({ t with pc := target }.bill 5))

/-- JSR (R242): `pc0 + 2` pushed, high byte first, then the jump; 6 cycles. -/
def execJsr (target : Word) (s : State) : Result :=
  finish s ((pushWord (s.pc + 2) s).bind fun _ t => .ok () ({ t with pc := target }.bill 6))

/-- RTS (R243): the pulled address plus 1; 6 cycles. -/
def execRts (s : State) : Result :=
  finish s ((pullWord s).bind fun ret t => .ok () ({ t with pc := ret + 1 }.bill 6))

/-- RTI (R244): P, then PC; 6 cycles. -/
def execRti (s : State) : Result := finish s ((interruptReturn s).bind fun _ t => .ok () (t.bill 6))

/-- BRK (R246): under `BRK_MODE = trap` the fatal trap of R384; under `vector` the software interrupt, which pushes `pc0 + 2`
and P with B = 1. -/
def execBrk (s : State) : Result :=
  match s.config.brkMode with
  | .trap => raiseTrap s .brk
  | .vector => finish s (interruptEntry irqVector (s.pc + 2) true s)

/-- BCC (R247). -/
def execBcc (d : Byte) (s : State) : Result := branch d (!s.p.c) s

/-- BCS (R248). -/
def execBcs (d : Byte) (s : State) : Result := branch d s.p.c s

/-- BEQ (R249). -/
def execBeq (d : Byte) (s : State) : Result := branch d s.p.z s

/-- BNE (R250). -/
def execBne (d : Byte) (s : State) : Result := branch d (!s.p.z) s

/-- BMI (R251). -/
def execBmi (d : Byte) (s : State) : Result := branch d s.p.n s

/-- BPL (R252). -/
def execBpl (d : Byte) (s : State) : Result := branch d (!s.p.n) s

/-- BVC (R253). -/
def execBvc (d : Byte) (s : State) : Result := branch d (!s.p.v) s

/-- BVS (R254). -/
def execBvs (d : Byte) (s : State) : Result := branch d s.p.v s

end Sys2Proof.Machine
end

