-- ==== Sys2Proof/Machine/Illegal.lean ====
section
/-!
DEFINITION. The undocumented opcodes (R280 to R294) and the invalid ones (R145).
-/

namespace Sys2Proof.Machine

/-- LAX (R281): LDA then TAX. -/
def execLax (m : Operand) (s : State) : Result := readInstr m (fun v t => { t.loadA v with x := v }) s

/-- SAX (R282): `Store(A & X)`; no flag. -/
def execSax (m : Operand) (s : State) : Result := writeInstr m (s.a &&& s.x) s

/-- USBC (R283): SBC immediate. -/
def execUsbc (v : Byte) (s : State) : Result := readInstr (.imm v) State.subA s

/-- DCP (R284): DEC then CMP. -/
def execDcp (m : Operand) (s : State) : Result :=
  rmwInstr m (fun v p => (v - 1, p)) (fun r t => t.compareWith t.a r) s

/-- ISB (R285): INC then SBC. -/
def execIsb (m : Operand) (s : State) : Result := rmwInstr m (fun v p => (v + 1, p)) State.subA s

/-- SLO (R286): ASL then ORA. -/
def execSlo (m : Operand) (s : State) : Result := rmwInstr m aslCore (fun r t => t.loadA (t.a ||| r)) s

/-- RLA (R287): ROL then AND. -/
def execRla (m : Operand) (s : State) : Result := rmwInstr m rolCore (fun r t => t.loadA (t.a &&& r)) s

/-- SRE (R288): LSR then EOR. -/
def execSre (m : Operand) (s : State) : Result := rmwInstr m lsrCore (fun r t => t.loadA (t.a ^^^ r)) s

/-- RRA (R289): ROR then ADC; the carry added is the bit the ROR shifted out. -/
def execRra (m : Operand) (s : State) : Result := rmwInstr m rorCore State.addA s

/-- ANC (R290), both opcode bytes alike: AND, then C from N. -/
def execAnc (v : Byte) (s : State) : Result :=
  readInstr (.imm v) (fun w t => { t.loadA (t.a &&& w) with p := { (t.p.setNZ (t.a &&& w)) with c := bit7 (t.a &&& w) } }) s

/-- ALR (R291): AND, then LSR of A. -/
def execAlr (v : Byte) (s : State) : Result :=
  readInstr (.imm v)
    (fun w t => { t with p := (lsrCore (t.a &&& w) t.p).2 }.loadA (lsrCore (t.a &&& w) t.p).1) s

/-- JAM (R292): PC stays, `JAM_CYCLES` pass, nothing else changes. -/
def execJam (s : State) : Result := .next (s.bill s.config.jamCycles)

/-- The undocumented NOPs (R293): the operand bytes are fetched, the effective address is computed for its cost and not
accessed. -/
def execNopUndoc (m : Operand) (s : State) : Result :=
  .next (s.retire (lenOf m) (readCycles m + penalty (resolve m s).crossed))

/-- An invalid opcode (R145, R382): the fatal trap. -/
def execInvalid (op : Byte) (s : State) : Result := raiseTrap s (.invalidOpcode op)

end Sys2Proof.Machine
end

