-- ==== Sys2Proof/Machine/LoadStore.lean ====
section
/-!
DEFINITION. Load, store and transfer instructions (R180 to R192).
-/

namespace Sys2Proof.Machine

/-- LDA (R181): `A <- M; SetNZ(A)`. -/
def execLda (m : Operand) (s : State) : Result := readInstr m State.loadA s

/-- LDX (R182): `X <- M; SetNZ(X)`. -/
def execLdx (m : Operand) (s : State) : Result := readInstr m State.loadX s

/-- LDY (R183): `Y <- M; SetNZ(Y)`. -/
def execLdy (m : Operand) (s : State) : Result := readInstr m State.loadY s

/-- STA (R184): `Store(A)`; no flag. -/
def execSta (m : Operand) (s : State) : Result := writeInstr m s.a s

/-- STX (R185): `Store(X)`; no flag. -/
def execStx (m : Operand) (s : State) : Result := writeInstr m s.x s

/-- STY (R186): `Store(Y)`; no flag. -/
def execSty (m : Operand) (s : State) : Result := writeInstr m s.y s

/-- TAX (R187). -/
def execTax (s : State) : Result := impliedInstr (State.loadX s.a) s

/-- TAY (R188). -/
def execTay (s : State) : Result := impliedInstr (State.loadY s.a) s

/-- TXA (R189). -/
def execTxa (s : State) : Result := impliedInstr (State.loadA s.x) s

/-- TYA (R190). -/
def execTya (s : State) : Result := impliedInstr (State.loadA s.y) s

/-- TSX (R191). -/
def execTsx (s : State) : Result := impliedInstr (State.loadX s.sp) s

/-- TXS (R192): `S <- X`; no flag (C8). -/
def execTxs (s : State) : Result := impliedInstr (fun t => { t with sp := t.x }) s

end Sys2Proof.Machine
end

