-- ==== Sys2Proof/Machine/Shift.lean ====
section
/-!
DEFINITION. Shifts and rotates (R230 to R234), on A and on memory.
-/

namespace Sys2Proof.Machine

/-- ASL (R231). -/
def execAsl (m : Operand) (s : State) : Result := rmwInstr m aslCore State.testNZ s

/-- LSR (R232). -/
def execLsr (m : Operand) (s : State) : Result := rmwInstr m lsrCore State.testNZ s

/-- ROL (R233). -/
def execRol (m : Operand) (s : State) : Result := rmwInstr m rolCore State.testNZ s

/-- ROR (R234). -/
def execRor (m : Operand) (s : State) : Result := rmwInstr m rorCore State.testNZ s

end Sys2Proof.Machine
end

