-- ==== Sys2Proof/Machine/StackFlags.lean ====
section
/-!
DEFINITION. Stack instructions, flag instructions and the official NOP (R260 to R272).
-/

namespace Sys2Proof.Machine

/-- PHA (R261): `Push(A)`, 3 cycles. -/
def execPha (s : State) : Result := finish s ((push s.a s).bind fun _ t => .ok () (t.retire 1 3))

/-- PHP (R262): `Push(Pbyte(1))`, 3 cycles. -/
def execPhp (s : State) : Result := finish s ((push (s.p.pbyte true) s).bind fun _ t => .ok () (t.retire 1 3))

/-- PLA (R263): `A <- Pull(); SetNZ(A)`, 4 cycles. -/
def execPla (s : State) : Result := finish s ((pull s).bind fun v t => .ok () ((t.loadA v).retire 1 4))

/-- PLP (R264): `SetP(Pull())`, 4 cycles. -/
def execPlp (s : State) : Result :=
  finish s ((pull s).bind fun v t => .ok () ({ t with p := .ofByte v }.retire 1 4))

/-- CLC (R265). -/
def execClc (s : State) : Result := impliedInstr (fun t => { t with p := { t.p with c := false } }) s

/-- SEC (R266). -/
def execSec (s : State) : Result := impliedInstr (fun t => { t with p := { t.p with c := true } }) s

/-- CLI (R267). -/
def execCli (s : State) : Result := impliedInstr (fun t => { t with p := { t.p with i := false } }) s

/-- SEI (R268). -/
def execSei (s : State) : Result := impliedInstr (fun t => { t with p := { t.p with i := true } }) s

/-- CLD (R269). -/
def execCld (s : State) : Result := impliedInstr (fun t => { t with p := { t.p with d := false } }) s

/-- SED (R270). -/
def execSed (s : State) : Result := impliedInstr (fun t => { t with p := { t.p with d := true } }) s

/-- CLV (R271). -/
def execClv (s : State) : Result := impliedInstr (fun t => { t with p := { t.p with v := false } }) s

/-- NOP (R272): nothing but the advance of PC. -/
def execNop (s : State) : Result := impliedInstr (fun t => t) s

end Sys2Proof.Machine
end

