-- ==== Sys2Proof/Machine/CpuStep.lean ====
section
/-!
DEFINITION. One step of the CPU (R431): an interrupt entry, or the fetch and execution of one instruction.
-/

namespace Sys2Proof.Machine

/-- The fetch of the instruction at PC (R91, R130, R160): the opcode, then as many operand bytes as its row says, each a bus
read with its side effects (R127). PC stays at the opcode (`pc0`, R10). -/
def fetch (s : State) : Res Instr :=
  (rd s.pc s).bind fun op s1 =>
    match lengthOf op with
    | 1 => .ok (assemble op 0 0) s1
    | 2 => (rd (s.pc + 1) s1).bind fun l s2 => .ok (assemble op l 0) s2
    | _ => (rd (s.pc + 1) s1).bind fun l s2 => (rd (s.pc + 2) s2).bind fun h s3 => .ok (assemble op l h) s3

/-- An instruction's outcome, with the fetch that came before it: where the instruction trapped, the side effects of the
fetch are undone too (R381: the state at the boundary before the dispatch). -/
def settle (boundary : State) (o : Result) : Result :=
  match o with
  | .next t =>
    match t.fault with
    | none => .next t
    | some k => raiseTrap boundary k
  | .fault r => .fault r
  | .refused r => .refused r

/-- The external interrupt line at an instruction boundary where a dispatch is due (R31, R387): the next of the levels it is
to take, or the level it has (log 6). -/
def sampleIrq (s : State) : State :=
  { s with irqLine := s.irqLevels.headD s.irqLine, irqLevels := s.irqLevels.tail }

/-- An interrupt is taken at this dispatch (R388, R389, R390): the vector. -/
def pendingVector (s : State) : Option Word :=
  if s.nmiPending then some nmiVector
  else if s.irqLine && !s.p.i then some irqVector
  else none

/-- The state an interrupt entry starts from: an NMI request is consumed (R388), an IRQ is a level and stays (R389). The
wait before the dispatch has elapsed (R430; log 9). -/
def acknowledge (s : State) : State := { s with nmiPending := false, remainingCycles := 0 }

/-- `CpuStep()` (R431), with the order of R390: nothing in the fault state; NMI; IRQ; one instruction. The cost is left in
`remainingCycles`. -/
def dispatch (s : State) : Result :=
  match s.fault with
  | some _ => .next s
  | none =>
    match pendingVector s with
    | some v => finish s (interruptEntry v s.pc false (acknowledge s))
    | none =>
      match fetch { s with remainingCycles := 0 } with
      | .trap k => raiseTrap s k
      | .ok i t => settle s (exec i t)

end Sys2Proof.Machine
end

