-- ==== Sys2Proof/Machine/PpuRender.lean ====
section
/-!
DEFINITION. Rendering of one visible line (R337 to R347) and the schedule of scanlines (R330 to R336).
-/

namespace Sys2Proof.Machine

/-- The 2-bit colour of one pixel from the two planes of a tile row: bit `b` of each (R339, R341). -/
def planePixel (lo hi : Byte) (b : Nat) : BitVec 2 := BitVec.ofBool (hi.getLsbD b) ++ BitVec.ofBool (lo.getLsbD b)

/-- A Bool as a 0 or a 1. -/
def bitNat (b : Bool) : Nat := if b then 1 else 0

/-- `BgPixel(x, y)` (R338, R339): the colour index and the palette number of the background at screen column `x`, row `y`. -/
def bgPixel (c : Cart) (p : Ppu) (x y : Nat) : BitVec 2 × Nat :=
  let wx := x + p.scrollX.toNat
  let wy := y + p.scrollY.toNat
  let h := wx / 256
  let cx := wx % 256
  let v := (wy / 240) % 2
  let cy := wy % 240
  let ntx := (bitNat p.nt0 + h) % 2
  let nty := (bitNat p.nt1 + v) % 2
  let base := 0x2000 + 0x0400 * (2 * nty + ntx)
  let col := cx / 8
  let fx := cx % 8
  let row := cy / 8
  let fy := cy % 8
  let tile := ppuRd c p (base + row * 32 + col)
  let ab := ppuRd c p (base + 0x03C0 + (row / 4) * 8 + col / 4)
  let sh := 4 * (row / 2 % 2) + 2 * (col / 2 % 2)
  let pal := (ab.toNat / 2 ^ sh) % 4
  let pa := bitNat p.bgBank * 0x1000 + tile.toNat * 16 + fy
  (planePixel (ppuRd c p pa) (ppuRd c p (pa + 8)) (7 - fx), pal)

/-- One column of `BgLine(y)` (R337): the mask entry and the palette entry of a background pixel. -/
def bgColumn (c : Cart) (p : Ppu) (y x : Nat) : BitVec 2 × Byte :=
  if p.bgEn = false ∨ (x < 8 ∧ p.bgLeft8 = false) then (0, p.palette.read 0)
  else
    let r := bgPixel c p x y
    (r.1, if r.1 = 0 then p.palette.read 0 else p.palette.read (r.2 * 4 + r.1.toNat))

/-- `BgLine(y)` (R337): the 256 columns. -/
def bgLine (c : Cart) (p : Ppu) (y : Nat) : List (BitVec 2 × Byte) := (List.range 256).map (bgColumn c p y)

/-- The pixel of a palette entry: `SYSTEM_PALETTE(entry & 0x3F)` as its colour number (R347). -/
def pixelOf (entry : Byte) : Pixel := .colour (entry.setWidth 6)

/-- A sprite's four OAM bytes (R340). -/
structure Sprite where
  y    : Byte
  tile : Byte
  attr : Byte
  x    : Byte
deriving DecidableEq, Repr

/-- Sprite `i` of OAM (R46, R340). -/
def Ppu.sprite (p : Ppu) (i : Nat) : Sprite :=
  { y := p.oam.read (4 * i), tile := p.oam.read (4 * i + 1), attr := p.oam.read (4 * i + 2), x := p.oam.read (4 * i + 3) }

/-- The height of sprites, H (R341, R342). -/
def Ppu.spriteHeight (p : Ppu) : Nat := if p.spr16 then 16 else 8

/-- The row `r` of a sprite that lies on screen row `y`, if one does (R341, R346): sprites with Y at or above 0xEF are
skipped, the top row is on line Y + 1. -/
def spriteRow (p : Ppu) (s : Sprite) (y : Nat) : Option Nat :=
  if s.y.toNat ≥ 0xEF then none
  else if y < s.y.toNat + 1 then none
  else if y - (s.y.toNat + 1) ≥ p.spriteHeight then none
  else some (y - (s.y.toNat + 1))

/-- `SpritePattern(T, r, fv, H)` (R343): the two planes of a sprite's row. -/
def spritePattern (c : Cart) (p : Ppu) (s : Sprite) (r : Nat) : Byte × Byte :=
  let r' := if s.attr.getLsbD 7 then p.spriteHeight - 1 - r else r
  let pa :=
    if p.spr16 then bitNat (s.tile.getLsbD 0) * 0x1000 + ((s.tile &&& 0xFE).toNat + r' / 8) * 16 + r' % 8
    else bitNat p.sprBank * 0x1000 + s.tile.toNat * 16 + r'
  (ppuRd c p pa, ppuRd c p (pa + 8))

/-- The colour of column `col` of a sprite row (R341): mirrored left-right under `flip_h`. -/
def spriteColumn (s : Sprite) (planes : Byte × Byte) (col : Nat) : BitVec 2 :=
  planePixel planes.1 planes.2 (if s.attr.getLsbD 6 then col else 7 - col)

/-- One column of one sprite on a line (R341, R344): the pixel is written unless it is off screen, transparent, in the
masked left columns, or behind an opaque background pixel. -/
def drawSpriteColumn (p : Ppu) (s : Sprite) (planes : Byte × Byte) (bg : List (BitVec 2)) (line : List Pixel) (col : Nat) :
    List Pixel :=
  let px := s.x.toNat + col
  let ci := spriteColumn s planes col
  if px > 255 then line
  else if ci = 0 then line
  else if px < 8 ∧ p.sprLeft8 = false then line
  else if s.attr.getLsbD 5 = true ∧ bg.getD px 0 ≠ 0 then line
  else line.set px (pixelOf (p.palette.read (0x10 + (s.attr &&& 3).toNat * 4 + ci.toNat)))

/-- One sprite on a line (R341). -/
def drawSprite (c : Cart) (p : Ppu) (y : Nat) (bg : List (BitVec 2)) (line : List Pixel) (i : Nat) : List Pixel :=
  let s := p.sprite i
  match spriteRow p s y with
  | none => line
  | some r => (List.range 8).foldl (drawSpriteColumn p s (spritePattern c p s r) bg) line

/-- `SpriteLine(y)` (R341): OAM in reverse, so that earlier sprites win (R345). -/
def spriteLine (c : Cart) (p : Ppu) (y : Nat) (bg : List (BitVec 2)) (line : List Pixel) : List Pixel :=
  if p.sprEn then (List.range 64).reverse.foldl (drawSprite c p y bg) line else line

/-- `Spr0Detect(y)` (R346): sprite 0 has an opaque pixel on this line, on screen. The background is not looked at (C5). -/
def spr0OnLine (c : Cart) (p : Ppu) (y : Nat) : Bool :=
  p.sprEn &&
  match spriteRow p (p.sprite 0) y with
  | none => false
  | some r =>
    let planes := spritePattern c p (p.sprite 0) r
    (List.range 8).any fun col =>
      decide ((p.sprite 0).x.toNat + col ≤ 255) && decide (spriteColumn (p.sprite 0) planes col ≠ 0)

/-- A framebuffer row nothing has been drawn into (R48, R51). -/
def clearRow : List Pixel := List.replicate 256 .clear

/-- A mask row nothing has been written into (R48, R51). -/
def clearMask : List (BitVec 2) := List.replicate 256 0

/-- A row of the framebuffer. -/
def Ppu.row (p : Ppu) (y : Nat) : List Pixel := Cells.read clearRow p.framebuffer y

/-- A row of the background mask. -/
def Ppu.maskRow (p : Ppu) (y : Nat) : List (BitVec 2) := Cells.read clearMask p.bgmask y

/-- `RenderLine(y)` (R333): background, sprite-0 detection, sprites. -/
def renderLine (c : Cart) (p : Ppu) (y : Nat) : Ppu :=
  let bg := bgLine c p y
  let mask := bg.map Prod.fst
  { p with
    bgmask := Cells.write clearMask p.bgmask y mask
    spr0hit := p.spr0hit || spr0OnLine c p y
    framebuffer := Cells.write clearRow p.framebuffer y (spriteLine c p y mask (bg.map fun e => pixelOf e.2)) }

/-- `VblankStart()` (R334). -/
def vblankStart (s : State) : State :=
  { s with ppu := { s.ppu with vblank := true }, nmiPending := s.nmiPending || s.ppu.nmiEn }

/-- `PreRender()` (R335). -/
def preRender (p : Ppu) : Ppu := { p with vblank := false, spr0hit := false }

/-- `EnterScanline(y)` (R331): one PPU step. -/
def enterScanline (s : State) (y : Nat) : State :=
  if y ≤ 239 then { s with ppu := renderLine s.cart s.ppu y }
  else if y = 241 then vblankStart s
  else if y = 261 then { s with ppu := preRender s.ppu }
  else s

/-- One turn of the loop of R330: the scanline counter advances and the line is entered. -/
def nextScanline (s : State) : State :=
  let y := (s.ppu.scanline + 1) % 262
  enterScanline { s with ppu := { s.ppu with scanline := y } } y

/-- `n` scanlines entered, one after the other. -/
def enterScanlines : Nat → State → State
  | 0, s => s
  | n + 1, s => enterScanlines n (nextScanline s)

/-- `PpuTick(c)` (R330): nothing in the fault state; otherwise `c` dots pass, and each full 341 of them enter a scanline. -/
def ppuTick (c : Nat) (s : State) : State :=
  match s.fault with
  | some _ => s
  | none =>
    let d := s.ppu.dot + c
    enterScanlines (d / 341) { s with ppu := { s.ppu with dot := d % 341 } }

end Sys2Proof.Machine
end

