-- ==== Sys2Proof/Machine/Tick.lean ====
section
/-!
DEFINITION. The agents in time: `Tick(n)` (R430, R436), the host's moves (R420 to R422, R440), what one step of the whole
machine is, and how an instruction is placed where the next step fetches.
-/

namespace Sys2Proof.Machine

/-- `Reset()` (R421), in a machine that has a valid image. `chr_ram`, the ROM, the buttons, the parameters and the interrupt
line are not touched; PC is read last, after the mapper is reset. -/
def reset (s : State) : Result :=
  let t : State := { s with
    fault := none
    ram := []
    cart := s.cart.reset
    a := 0x00
    x := 0x00
    y := 0x00
    sp := 0xFD
    p := Flags.reset
    nmiPending := false
    remainingCycles := 7
    ppu := Ppu.reset
    joy1 := s.joy1.clear
    joy2 := s.joy2.clear
    rom := .ready }
  match rd16 resetVector t with
  | .ok v u => .next { u with pc := v }
  | .trap k => raiseTrap t k

/-- `LoadRom(rom)` (R422): the cartridge of the image, its CHR RAM zeroed, to be reset before anything is ticked; a refused
image leaves the core unable to run. -/
def loadRom (rom : List Byte) (s : State) : State :=
  match Cart.ofRom rom with
  | .ok c => { s with cart := c, rom := .loaded }
  | .error _ => { s with rom := .absent }

/-- A move of the host (R440). -/
def hostMove (m : HostMove) (s : State) : Result :=
  match m with
  | .loadRom rom => .next (loadRom rom s)
  | .reset =>
    match s.rom with
    | .absent => .refused .noCartridge
    | .loaded | .ready => reset s
  | .tick n =>
    match s.rom with
    | .absent => .refused .noCartridge
    | .loaded => .refused .notReset
    | .ready => .next { s with turn := .inTick n n }
  | .keydown b => .next { s with joy1 := s.joy1.press b }
  | .keyup b => .next { s with joy1 := s.joy1.release b }
  | .readPicture => .next s
  | .irq level => .next { s with irqLine := level }

/-- One turn of the loop of `CpuTick` (R430) inside `Tick(n)`, `budget` cycles of it left: a dispatch if the wait fits in the
budget; otherwise the CPU's share ends, the wait is reduced, and the PPU's share of `3 * n` dots runs (R436). In the fault
state both shares return at once (R381). -/
def tickTurn (n budget : Nat) (s : State) : Result :=
  match s.fault with
  | some _ => .next { s with turn := .between }
  | none =>
    if s.remainingCycles ≤ budget then
      dispatch (sampleIrq { s with turn := .inTick n (budget - s.remainingCycles).toNat })
    else
      .next (ppuTick (3 * n) { s with turn := .between, remainingCycles := s.remainingCycles - budget })

/-- DESIGN CHOICE (log 3): the machine when the host has no move queued. The host is taken to call `Tick(1)` again and again,
up to and including the call in which the next dispatch happens; that is one step. The calls before it only let the wait
elapse and the PPU run; the PPU's share of the last one follows the dispatch, and is skipped if that trapped. -/
def freeRun (s : State) : Result :=
  match s.rom with
  | .absent => .refused .noCartridge
  | .loaded => .refused .notReset
  | .ready =>
    match s.fault with
    | some k => .fault (.trapped k)
    | none =>
      match dispatch (sampleIrq { ppuTick (3 * (s.remainingCycles - 1).toNat) s with remainingCycles := 1 }) with
      | .next t => .next (ppuTick 3 t)
      | .fault r => .fault r
      | .refused r => .refused r

/-- One step of the whole machine (R15): the agent whose turn it is moves. -/
def advance (s : State) : Result :=
  match s.turn with
  | .inTick n budget => tickTurn n budget s
  | .between =>
    match s.hostMoves with
    | m :: ms => hostMove m { s with hostMoves := ms }
    | [] => freeRun s

/-- A byte can be placed at a CPU address: RAM, or a PRG cell that the mapper reaches. -/
def canPlace (s : State) (a : Word) : Bool :=
  decide (a.toNat < 0x2000) || (decide (0x8000 ≤ a.toNat) && (s.cart.prgIndex a.toNat).isOk)

/-- A byte placed behind a CPU address from outside the machine. -/
def placeByte (a : Word) (v : Byte) (s : State) : State :=
  if a.toNat < 0x2000 then { s with ram := s.ram.write (a.toNat % 0x800) v }
  else match s.cart.prgIndex a.toNat with
    | .ok k => { s with cart := { s.cart with prg := s.cart.prg.write k v } }
    | .error _ => s

/-- Where an instruction of three bytes is placed: at PC, or at 0x0000 in RAM if one of the three addresses from PC on holds
no memory (log 20). -/
def placeAt (s : State) : Word :=
  if canPlace s s.pc && canPlace s (s.pc + 1) && canPlace s (s.pc + 2) then s.pc else 0x0000

/-- An instruction's table bits stored where the next step fetches, and the machine made to run it next: running, in no
fault, no interrupt to be taken first, no host move queued, and no scanline entered before the dispatch (log 20). -/
def placeWord (s : State) (nbits w : Nat) : State :=
  let t : State := { s with
    pc := placeAt s
    fault := none
    nmiPending := false
    irqLine := s.irqLine && s.p.i
    irqLevels := []
    rom := .ready
    turn := .between
    hostMoves := []
    remainingCycles := if s.ppu.dot + 3 * (s.remainingCycles - 1).toNat < 341 then s.remainingCycles else 1 }
  match tableBytes nbits w with
  | [b0, b1, b2] => placeByte (t.pc + 2) b2 (placeByte (t.pc + 1) b1 (placeByte t.pc b0 t))
  | _ => t

end Sys2Proof.Machine
end

