-- ==== Sys2Proof/Machine/Step.lean ====
section
/-!
DEFINITION. One step of the machine, and the placing of an instruction where the next step fetches it. Both only call.
-/

namespace Sys2Proof.Machine

/-- One step (R15, R431, R436, R440). -/
def step (s : State) : Host.Outcome State Fault Refusal := advance s

/-- The state with an instruction's table bits stored where `step` fetches its next instruction. -/
def State.withFetchWord (s : State) (nbits w : Nat) : State := placeWord s nbits w

end Sys2Proof.Machine
end

