-- ==== Sys2Proof/Safety.lean ====
section
/-!
DEFINITION. The terms in which claims about the machine are made: which bus accesses trap, what an access leaves alone, what
it is for an instruction to follow its rule, and the invariant of the state.
-/

namespace Sys2Proof.Machine

/-- A CPU address lies in the PPU window and selects PPU register `r` (R75). -/
def HitsPpu (a : Word) (r : PpuReg) : Prop := 0x2000 ≤ a.toNat ∧ a.toNat < 0x4000 ∧ PpuReg.select a.toNat = r

/-- The trap a CPU read of `a` raises, if it raises one: a write-only PPU register (R303), or a UxROM bank beyond the ROM
(R117). -/
def readTrap (a : Word) (s : State) : Option TrapKind :=
  if 0x2000 ≤ a.toNat ∧ a.toNat < 0x4000 then
    match a.toNat % 8 with
    | 0 => some (.ppuRegisterMisuse .ppuctrl .read)
    | 1 => some (.ppuRegisterMisuse .ppumask .read)
    | 3 => some (.ppuRegisterMisuse .oamaddr .read)
    | 5 => some (.ppuRegisterMisuse .ppuscroll .read)
    | 6 => some (.ppuRegisterMisuse .ppuaddr .read)
    | _ => none
  else if s.cart.mapper = .uxrom ∧ 0x8000 ≤ a.toNat ∧ a.toNat < 0xC000 ∧ s.cart.prgBanks ≤ s.cart.bankSelect.toNat then
    some .cartridgeOutOfRange
  else none

/-- The trap a CPU write of `v` at `a` raises, if it raises one: PPUSTATUS (R303), or an OAM DMA whose first source read
traps (R363). -/
def writeTrap (a : Word) (v : Byte) (s : State) : Option TrapKind :=
  if 0x2000 ≤ a.toNat ∧ a.toNat < 0x4000 ∧ a.toNat % 8 = 2 then some (.ppuRegisterMisuse .ppustatus .write)
  else if a = 0x4014 then readTrap (wordOf 0x00 v) s
  else none

/-- The trap of the one `Load` of an instruction with this operand. -/
def loadTrap (m : Operand) (s : State) : Option TrapKind := (resolve m s).addr.bind fun ea => readTrap ea s

/-- The trap of the one `Store` of `v` of an instruction with this operand. -/
def storeTrap (m : Operand) (v : Byte) (s : State) : Option TrapKind := (resolve m s).addr.bind fun ea => writeTrap ea v s

/-- What a CPU read may change (R98): `vblank`, the two latches, the read buffer and the address of the PPU, the index of a
joypad. Every register, every flag, every byte of every memory and everything else is as it was. -/
def ReadFrame (s t : State) : Prop :=
  t = { s with
    ppu := { s.ppu with
      vblank := t.ppu.vblank
      scrollLatch := t.ppu.scrollLatch
      addrLatch := t.ppu.addrLatch
      readBuffer := t.ppu.readBuffer
      vramAddr := t.ppu.vramAddr }
    joy1 := { s.joy1 with index := t.joy1.index }
    joy2 := { s.joy2 with index := t.joy2.index } }

/-- What a CPU write at `ea` leaves alone: `s` before, `t` after. -/
structure WriteFrame (ea : Word) (s t : State) : Prop where
  registers : t.a = s.a ∧ t.x = s.x ∧ t.y = s.y ∧ t.sp = s.sp ∧ t.pc = s.pc ∧ t.p = s.p
  control : t.irqLine = s.irqLine ∧ t.irqLevels = s.irqLevels ∧ t.fault = s.fault ∧ t.config = s.config ∧ t.rom = s.rom ∧ t.turn = s.turn ∧
    t.hostMoves = s.hostMoves
  ram : ∀ k, ¬ (ea.toNat < 0x2000 ∧ k = ea.toNat % 0x800) → t.ramAt k = s.ramAt k
  cartridge : t.cart.mapper = s.cart.mapper ∧ t.cart.prgBanks = s.cart.prgBanks ∧ t.cart.chrBanks = s.cart.chrBanks ∧
    t.cart.mirroring = s.cart.mirroring ∧ t.cart.prg = s.cart.prg ∧ t.cart.chr = s.cart.chr
  bank : ea.toNat < 0x8000 → t.cart.bankSelect = s.cart.bankSelect
  ppuMemories : ¬ HitsPpu ea .ppudata →
    t.cart.chrRam = s.cart.chrRam ∧ t.ppu.vram = s.ppu.vram ∧ t.ppu.palette = s.ppu.palette
  oam : ¬ HitsPpu ea .oamdata → ea ≠ 0x4014 → t.ppu.oam = s.ppu.oam
  ppuRegisters : ¬ (0x2000 ≤ ea.toNat ∧ ea.toNat < 0x4000) → t.ppu = { s.ppu with oam := t.ppu.oam }
  picture : t.ppu.vblank = s.ppu.vblank ∧ t.ppu.spr0hit = s.ppu.spr0hit ∧ t.ppu.readBuffer = s.ppu.readBuffer ∧
    t.ppu.scanline = s.ppu.scanline ∧ t.ppu.dot = s.ppu.dot ∧ t.ppu.framebuffer = s.ppu.framebuffer ∧
    t.ppu.bgmask = s.ppu.bgmask
  nmi : ¬ HitsPpu ea .ppuctrl → t.nmiPending = s.nmiPending
  cycles : t.remainingCycles = s.remainingCycles + (if ea = 0x4014 then s.config.dmaCycles.toNat else 0)
  joypads : (ea ≠ 0x4014 → ea ≠ 0x4016 → t.joy1 = s.joy1) ∧ (ea ≠ 0x4014 → ea ≠ 0x4017 → t.joy2 = s.joy2)

/-- The memory of the PPU bus and the cell of it that a PPU address reaches (R99): 0 CHR, 1 nametables, 2 palette. -/
def ppuCell (mir : Mirroring) (addr : Nat) : Nat × Nat :=
  let a := addr % 0x4000
  if a < 0x2000 then (0, a) else if a < 0x3F00 then (1, ntIndex mir a) else (2, palIndex a)

/-- The modes of an instruction and the opcode byte of each: the "Encoding" line of its rule. -/
def Spells (f : Operand → Instr) (l : List (Mode × Byte)) : Prop :=
  ∀ m : Operand, ((f m).wf = true ↔ m.mode ∈ l.map Prod.fst) ∧ ∀ b, (m.mode, b) ∈ l → (f m).opcode = b

/-- An instruction with no operand bytes and its opcode byte. -/
def SpellsImplied (i : Instr) (op : Byte) : Prop := i.wf = true ∧ encode i = [op]

/-- The `cyc` column of R140 (decisions D1, D11), sixteen opcode bytes a line, 0 where the spec writes a dash. -/
def cycleTable : List Nat :=
  [7, 6, 2, 8, 3, 3, 5, 5, 3, 2, 2, 2, 4, 4, 6, 6] ++
    [2, 5, 2, 8, 4, 4, 6, 6, 2, 4, 2, 7, 4, 4, 7, 7] ++
    [6, 6, 2, 8, 3, 3, 5, 5, 4, 2, 2, 2, 4, 4, 6, 6] ++
    [2, 5, 2, 8, 4, 4, 6, 6, 2, 4, 2, 7, 4, 4, 7, 7] ++
    [6, 6, 2, 8, 3, 3, 5, 5, 3, 2, 2, 2, 3, 4, 6, 6] ++
    [2, 5, 2, 8, 4, 4, 6, 6, 2, 4, 2, 7, 4, 4, 7, 7] ++
    [6, 6, 2, 8, 3, 3, 5, 5, 4, 2, 2, 0, 5, 4, 6, 6] ++
    [2, 5, 2, 8, 4, 4, 6, 6, 2, 4, 2, 7, 4, 4, 7, 7] ++
    [2, 6, 2, 6, 3, 3, 3, 3, 2, 2, 2, 0, 4, 4, 4, 4] ++
    [2, 6, 2, 0, 4, 4, 4, 4, 2, 5, 2, 0, 0, 5, 0, 0] ++
    [2, 6, 2, 6, 3, 3, 3, 3, 2, 2, 2, 0, 4, 4, 4, 4] ++
    [2, 5, 2, 5, 4, 4, 4, 4, 2, 4, 2, 0, 4, 4, 4, 4] ++
    [2, 6, 2, 8, 3, 3, 5, 5, 2, 2, 2, 0, 4, 4, 6, 6] ++
    [2, 5, 2, 8, 4, 4, 6, 6, 2, 4, 2, 7, 4, 4, 7, 7] ++
    [2, 6, 2, 8, 3, 3, 5, 5, 2, 2, 2, 2, 4, 4, 6, 6] ++
    [2, 5, 2, 8, 4, 4, 6, 6, 2, 4, 2, 7, 4, 4, 7, 7]

/-- The opcode bytes with `p` in the `pen` column of R140. -/
def crossPenalty : List Byte :=
  [0x11, 0x19, 0x1C, 0x1D, 0x31, 0x39, 0x3C, 0x3D, 0x51, 0x59, 0x5C, 0x5D, 0x71, 0x79, 0x7C, 0x7D, 0xB1, 0xB3,
   0xB9, 0xBC, 0xBD, 0xBE, 0xBF, 0xD1, 0xD9, 0xDC, 0xDD, 0xF1, 0xF9, 0xFC, 0xFD]

/-- The opcode bytes with `b` in the `pen` column of R140. -/
def branchPenalty : List Byte := [0x10, 0x30, 0x50, 0x70, 0x90, 0xB0, 0xD0, 0xF0]

/-- The base cost of an instruction: the entry of its opcode byte in the `cyc` column of R140. -/
def rowCost (i : Instr) : Nat := cycleTable.getD i.opcode.toNat 0

/-- The cycle a page crossing costs (R176). -/
def crossCost (m : Operand) (s : State) : Nat := if (resolve m s).crossed then 1 else 0

/-- A read instruction follows its rule (R175, R180, R200): if its load traps, nothing but `fault` changes; otherwise it
completes: one `Load` of M, the effect on M, PC past the instruction, the cost of its row plus the page-cross cycle. -/
def ReadRule (f : Operand → Instr) (effect : Byte → State → State) : Prop :=
  ∀ (m : Operand) (s : State), (f m).wf = true →
    (∀ k, loadTrap m s = some k → exec (f m) s = .next { s with fault := some k }) ∧
    (loadTrap m s = none → ∃ v t, load (resolve m s) s = .ok v t ∧ ReadFrame s t ∧
      exec (f m) s = .next { effect v t with
        pc := s.pc + BitVec.ofNat 16 (f m).len
        remainingCycles := s.remainingCycles + (rowCost (f m) + crossCost m s : Nat) })

/-- A store follows its rule (R175, R184): the value `val` of the state goes to the effective address of the operand, which
is not read; nothing else changes; no page-cross cycle. -/
def StoreRule (f : Operand → Instr) (val : State → Byte) : Prop :=
  ∀ (m : Operand) (s : State), (f m).wf = true →
    ∃ ea, (resolve m s).addr = some ea ∧
      (∀ k, writeTrap ea (val s) s = some k → exec (f m) s = .next { s with fault := some k }) ∧
      (writeTrap ea (val s) s = none → ∃ t, wr ea (val s) s = .ok () t ∧ WriteFrame ea s t ∧
        exec (f m) s = .next { t with
          pc := s.pc + BitVec.ofNat 16 (f m).len
          remainingCycles := t.remainingCycles + (rowCost (f m) : Nat) })

/-- A read-modify-write instruction follows its rule (R175, R230, R280): one `Load` of M, the new value and the flags from M
and the old flags, one `Store` of the new value, then the second component on the value stored. -/
def RmwRule (f : Operand → Instr) (modify : Byte → Flags → Byte × Flags) (effect : Byte → State → State) : Prop :=
  ∀ (m : Operand) (s : State), (f m).wf = true →
    (∀ k, loadTrap m s = some k → exec (f m) s = .next { s with fault := some k }) ∧
    (loadTrap m s = none → ∃ v t, load (resolve m s) s = .ok v t ∧ ReadFrame s t ∧
      (∀ k, storeTrap m (modify v s.p).1 s = some k → exec (f m) s = .next { s with fault := some k }) ∧
      (storeTrap m (modify v s.p).1 s = none →
        ∃ u, store (resolve m s) (modify v s.p).1 { t with p := (modify v s.p).2 } = .ok () u ∧
          (∀ ea, (resolve m s).addr = some ea → WriteFrame ea { t with p := (modify v s.p).2 } u) ∧
          exec (f m) s = .next { effect (modify v s.p).1 u with
            pc := s.pc + BitVec.ofNat 16 (f m).len
            remainingCycles := u.remainingCycles + (rowCost (f m) : Nat) }))

/-- An instruction of one byte that touches no memory follows its rule: the effect, PC past it, two cycles; everything the
effect does not name is as it was. -/
def ImpliedRule (i : Instr) (effect : State → State) : Prop :=
  ∀ s : State, exec i s = .next { effect s with pc := s.pc + 1, remainingCycles := s.remainingCycles + 2 }

/-- N and Z from a byte (R12), in numbers. -/
def withNZ (p : Flags) (v : Byte) : Flags := { p with z := decide (v.toNat = 0), n := decide (128 ≤ v.toNat) }

/-- A carry as a number. -/
def carry (p : Flags) : Nat := if p.c then 1 else 0

/-- `AddCore` (R202) in numbers: the sum modulo 256, C when it exceeds 255, V when the signed sum lies outside -128..127. -/
def addResult (a m : Byte) (p : Flags) : Byte × Flags :=
  let sum := a.toNat + m.toNat + carry p
  let signed := a.toInt + m.toInt + carry p
  (BitVec.ofNat 8 sum,
    { withNZ p (BitVec.ofNat 8 sum) with c := decide (255 < sum), v := decide (signed < -128 ∨ 127 < signed) })

/-- `Compare(r, m)` (R209) in numbers. -/
def compareResult (r m : Byte) (p : Flags) : Flags :=
  { p with c := decide (m.toNat ≤ r.toNat), z := decide (r.toNat = m.toNat), n := decide (128 ≤ (256 + r.toNat - m.toNat) % 256) }

/-- The invariant of the machine. Each field names the rule that asks for it. -/
structure State.Inv (s : State) : Prop where
  /-- R34: 2048 bytes, in canonical form. -/
  ram : Memory.wf 0x800 s.ram = true
  /-- R6, R7, R35, R36: a cartridge that could have been loaded. -/
  cart : s.cart.wf = true
  /-- R8: `JAM_CYCLES` is at least 1. -/
  config : s.config.wf = true
  /-- R44: 2048 bytes. -/
  vram : Memory.wf 0x800 s.ppu.vram = true
  /-- R45: 32 bytes. -/
  palette : Memory.wf 0x20 s.ppu.palette = true
  /-- R45: "Entries 0x10, 0x14, 0x18, 0x1C are never stored". -/
  paletteMirrors : ∀ i ∈ [0x10, 0x14, 0x18, 0x1C], s.ppu.palette.read i = 0x00
  /-- R46: 256 bytes. -/
  oam : Memory.wf 0x100 s.ppu.oam = true
  /-- R47: 0..261. -/
  scanline : s.ppu.scanline < 262
  /-- R47: 0..340. -/
  dot : s.ppu.dot < 341
  /-- R48: only rows 0 to 239 are ever written. -/
  framebuffer : Cells.wf clearRow s.ppu.framebuffer = true ∧ Cells.below 240 s.ppu.framebuffer = true
  /-- R48: 240 rows. -/
  bgmask : Cells.wf clearMask s.ppu.bgmask = true ∧ Cells.below 240 s.ppu.bgmask = true
  /-- R48: every row has 256 columns. -/
  rows : ∀ y, (s.ppu.row y).length = 256 ∧ (s.ppu.maskRow y).length = 256
  /-- R366: the shift index takes the values 0..8 only. -/
  joypads : s.joy1.index.toNat ≤ 8 ∧ s.joy2.index.toNat ≤ 8
  /-- R365, R367: while the strobe is 1 the index is 0. -/
  strobes : (s.joy1.strobe = true → s.joy1.index = 0) ∧ (s.joy2.strobe = true → s.joy2.index = 0)
  /-- R49, R368: nothing writes `joy2.buttons`. -/
  joy2 : s.joy2.buttons = 0x00
  /-- R430: "After the call `remaining_cycles` is at least 1." -/
  wait : 1 ≤ s.remainingCycles
  /-- R430: the budget of a tick only shrinks. -/
  budget : ∀ n b, s.turn = .inTick n b → b ≤ n

/-- The byte a fetch at `a` reads where reading has no side effect: RAM, or PRG through the mapper (R127). -/
def codeByte (s : State) (a : Word) : Option Byte :=
  if a.toNat < 0x2000 then some (s.ram.read (a.toNat % 0x800))
  else if a.toNat < 0x8000 then none
  else match s.cart.readPrg a.toNat with
    | .ok v => some v
    | .error _ => none

/-- The bytes from `a` on, the address wrapping at 65536 (R24, R91). -/
def CodeAt (s : State) : Word → List Byte → Prop
  | _, [] => True
  | a, b :: bs => codeByte s a = some b ∧ CodeAt s (a + 1) bs

/-- A byte of the last PRG bank, the home of the vectors (R79, R111, R115): `a` in 0xC000-0xFFFF. -/
def lastBankByte (c : Cart) (a : Nat) : Byte := c.prg.read ((c.prgBanks - 1) * 0x4000 + (a - 0xC000))

/-- The 16-bit vector at `a` (R79, R92). -/
def vectorAt (c : Cart) (a : Nat) : Word := wordOf (lastBankByte c a) (lastBankByte c (a + 1))

/-- The index in RAM of the stack cell that S points at (R21). -/
def stackCell (sp : Byte) : Nat := 0x100 + sp.toNat

/-- The pushed image of P (R27) in numbers, with bit 4 the given B and bit 5 one. -/
def pImage (p : Flags) (b : Nat) : Byte :=
  BitVec.ofNat 8 (128 * p.n.toNat + 64 * p.v.toNat + 32 + 16 * b + 8 * p.d.toNat + 4 * p.i.toNat + 2 * p.z.toNat + p.c.toNat)

/-- RAM after an interrupt entry pushed the return address, high byte first, and an image of P (R386). -/
def framePushed (s : State) (ret : Word) (image : Byte) : Memory :=
  ((s.ram.write (stackCell s.sp) (hiByte ret)).write (stackCell (s.sp - 1)) (loByte ret)).write (stackCell (s.sp - 2)) image

/-- The fetch follows its rule (R91, R127, R130): the opcode is one CPU-bus read at PC; while the bytes read so far are no
whole instruction, one more read, at the next address, in the state the reads before it left; the first read that traps ends
it; the bytes read decode to what is fetched. -/
def FetchRule (s : State) : Prop :=
  (∀ k, rd s.pc s = .trap k → fetch s = .trap k) ∧
  ∀ op t, rd s.pc s = .ok op t →
    (∀ i, decode [op] = .ok (i, []) → fetch s = .ok i t) ∧
    ((∀ i, decode [op] ≠ .ok (i, [])) →
      (∀ k, rd (s.pc + 1) t = .trap k → fetch s = .trap k) ∧
      ∀ l u, rd (s.pc + 1) t = .ok l u →
        (∀ i, decode [op, l] = .ok (i, []) → fetch s = .ok i u) ∧
        ((∀ i, decode [op, l] ≠ .ok (i, [])) →
          (∀ k, rd (s.pc + 2) u = .trap k → fetch s = .trap k) ∧
          ∀ h w, rd (s.pc + 2) u = .ok h w → ∃ i, decode [op, l, h] = .ok (i, []) ∧ fetch s = .ok i w))

/-- `after` is how the machine goes on from `boundary` by running instruction `i` (R431, R381): what `exec` answers, if the
instruction completes; the boundary with `fault` set, if it traps. -/
def RunsFrom (boundary : State) (i : Instr) (started : State) (after : State) : Prop :=
  ∃ t, exec i started = .next t ∧
    (t.fault = none → after = t) ∧ ∀ k, t.fault = some k → after = { boundary with fault := some k }

/-- No interrupt is taken at this dispatch, and the machine is not in the fault state (R390). -/
def Undisturbed (s : State) : Prop := s.fault = none ∧ s.nmiPending = false ∧ (s.irqLine = true → s.p.i = true)

/-- A conditional branch follows its rule (R245, R173): both outcomes, for every offset. -/
def BranchRule (f : Byte → Instr) (op : Byte) (taken : Flags → Bool) : Prop :=
  ∀ (d : Byte) (s : State),
    let next := (s.pc.toNat + 2) % 65536
    let target := ((s.pc.toNat + 2 + d.toInt) % 65536).toNat
    (f d).wf = true ∧ encode (f d) = [op, d] ∧
    exec (f d) s = .next { s with
      pc := BitVec.ofNat 16 (if taken s.p then target else next)
      remainingCycles := s.remainingCycles +
        (if taken s.p then (if next / 256 = target / 256 then 3 else 4) else 2) }

/-- The bytes that `n` reads of one CPU address return, one after the other. -/
def readsOf (a : Word) : Nat → State → List Byte
  | 0, _ => []
  | n + 1, s =>
    match rd a s with
    | .ok v t => v :: readsOf a n t
    | .trap _ => []

/-- The bytes eight reads of a joypad with these buttons return (R367, R369): A, B, Select, Start, Up, Down, Left, Right. -/
def buttonBytes (buttons : Byte) : List Byte := (List.range 8).map fun k => if buttons.getLsbD k then 0x01 else 0x00

/-- Whether the background is shown at a screen column (R337), by the bits of `ppumask` (R38). -/
def bgShown (p : Ppu) (x : Nat) : Prop := p.mask.toNat / 8 % 2 = 1 ∧ (8 ≤ x ∨ p.mask.toNat / 2 % 2 = 1)

/-- The palette entry that sprite `i` puts at screen column `px` of row `y`, if it puts one there (R340, R341, R342, R343,
R344), in numbers: Y, the tile, the attributes and X are the four OAM bytes from `4 * i` on; the sprite is on the row, the
column is one of its eight, the pixel of the two planes is opaque, not masked on the left, not behind an opaque background. -/
def spriteEntry (c : Cart) (p : Ppu) (y px i : Nat) : Option Byte :=
  let sy := (p.oam.read (4 * i)).toNat
  let tile := (p.oam.read (4 * i + 1)).toNat
  let attr := (p.oam.read (4 * i + 2)).toNat
  let sx := (p.oam.read (4 * i + 3)).toNat
  let tall := p.ctrl.toNat / 32 % 2 = 1
  let h := if tall then 16 else 8
  let r := y - (sy + 1)
  let fr := if attr / 128 = 1 then h - 1 - r else r
  let pa := if tall then tile % 2 * 0x1000 + (tile / 2 * 2 + fr / 8) * 16 + fr % 8
    else p.ctrl.toNat / 8 % 2 * 0x1000 + tile * 16 + fr
  let bit := if attr / 64 % 2 = 1 then px - sx else 7 - (px - sx)
  let ci := 2 * ((ppuRd c p (pa + 8)).toNat / 2 ^ bit % 2) + (ppuRd c p pa).toNat / 2 ^ bit % 2
  if sy < 0xEF ∧ sy + 1 ≤ y ∧ y < sy + 1 + h ∧ sx ≤ px ∧ px < sx + 8 ∧ ci ≠ 0 ∧ (px < 8 → p.mask.toNat / 4 % 2 = 1) ∧
      (attr / 32 % 2 = 1 → ((renderLine c p y).maskRow y)[px]? = some 0) then
    some (p.palette.read (0x10 + attr % 4 * 4 + ci))
  else none

/-- The dots since scanline 0 dot 0 of the frame (R330). -/
def Ppu.clock (p : Ppu) : Nat := p.scanline * 341 + p.dot

/-- A state with D replaced. -/
def withD (b : Bool) (s : State) : State := { s with p := { s.p with d := b } }

end Sys2Proof.Machine

namespace Sys2Proof

/-- The operand of an instruction, from its mode and its operand bytes (R133). -/
def Instr.operand (i : Instr) : Operand := operandOf i.mode (i.operandBytes.getD 0 0x00) (i.operandBytes.getD 1 0x00)

/-- The instruction stores to its effective address (R175, the kinds "write" and "read-modify-write"). -/
def Instr.storing (i : Instr) : Bool :=
  ([.sta, .stx, .sty, .sax, .asl, .lsr, .rol, .ror, .inc, .dec, .slo, .rla, .sre, .rra, .dcp, .isb] :
    List Mnemonic).contains i.mnemonic

end Sys2Proof
end

