-- ==== Sys2Proof/Certificates/Slice0/Obligations.lean ====
section
/-!
DEFINITION. The statements for the provers. Each docstring says which rules of spec/ it comes from.
-/

open Sys2Proof Sys2Proof.Machine

/-! Encoding. -/

/-- R130, R131, R133: decoding the bytes of any well-formed instruction gives it back, with every operand, and the bytes
after it untouched. -/
def Obligations.DecodeOfEncodeIsIdentity : Prop :=
  ∀ (i : Instr) (rest : List Byte), i.wf = true → decode (encode i ++ rest) = .ok (i, rest)

/-- R130, R134: every opcode byte decodes, whatever follows it, to a well-formed instruction whose encoding is exactly the
bytes it was read from. -/
def Obligations.EveryOpcodeDecodesToItsBytes : Prop :=
  ∀ (op l h : Byte) (rest : List Byte), ∃ i : Instr,
    decode (op :: l :: h :: rest) = .ok (i, (op :: l :: h :: rest).drop i.len) ∧ i.wf = true ∧
      encode i = (op :: l :: h :: rest).take i.len

/-- R142: the counts of the opcode matrix. R140 (decisions D1, D11): its `cyc` and `pen` columns, in numbers. Then words of the
spec's own examples, byte by byte: S1 of 95_test_vectors.md, R173, R177, R241, R242, R293, R145. -/
def Obligations.MatrixCountsAndSampleWords : Prop :=
  let rows := fun (c : OpClass) => opcodeMatrix.filter fun r => decide (r.cls = c)
  let illegal := fun (mn : Mnemonic) => ((rows .illegal).filter fun r => decide (r.mn = mn)).length
  (rows .official).length = 151 ∧ ((rows .official).map (·.mn)).dedup.length = 56 ∧
  (rows .illegal).length = 95 ∧ ((rows .illegal).map (·.mn)).dedup.length = 13 ∧ (rows .invalid).length = 10 ∧
  opcodeMatrix.length = 256 ∧
  illegal .nop = 27 ∧ illegal .lax = 6 ∧ illegal .sax = 4 ∧ illegal .usbc = 1 ∧ illegal .dcp = 7 ∧ illegal .isb = 7 ∧
  illegal .slo = 7 ∧ illegal .rla = 7 ∧ illegal .sre = 7 ∧ illegal .rra = 7 ∧ illegal .anc = 2 ∧ illegal .alr = 1 ∧
  illegal .jam = 12 ∧
  opcodeMatrix.map (·.cyc) = cycleTable ∧
  (∀ op : Byte, (rowOf op).op = op ∧ (rowOf op).cyc = cycleTable.getD op.toNat 0 ∧
    ((rowOf op).pen = .p ↔ op ∈ crossPenalty) ∧ ((rowOf op).pen = .b ↔ op ∈ branchPenalty)) ∧
  decode [0xA9, 0xC0] = .ok (.lda (.imm 0xC0), []) ∧ decode [0xAA, 0xE8] = .ok (.tax, [0xE8]) ∧
  decode [0xE8] = .ok (.inx, []) ∧ decode [0x00] = .ok (.brk, []) ∧ decode [0xD0, 0xF9] = .ok (.bne 0xF9, []) ∧
  decode [0xB5, 0x20] = .ok (.lda (.zpx 0x20), []) ∧ decode [0xB6, 0x20] = .ok (.ldx (.zpy 0x20), []) ∧
  decode [0xBD, 0xF8, 0x20] = .ok (.lda (.abx 0x20F8), []) ∧ decode [0xB9, 0xF8, 0x20] = .ok (.lda (.aby 0x20F8), []) ∧
  decode [0xA1, 0x20] = .ok (.lda (.izx 0x20), []) ∧ decode [0xB1, 0x86] = .ok (.lda (.izy 0x86), []) ∧
  decode [0x6C, 0xFF, 0x02] = .ok (.jmpInd 0x02FF, []) ∧ decode [0x4C, 0xF5, 0xC5] = .ok (.jmp 0xC5F5, []) ∧
  decode [0x20, 0x00, 0x90] = .ok (.jsr 0x9000, []) ∧ decode [0x0A] = .ok (.asl .acc, []) ∧
  decode [0x1C, 0xF0, 0x20] = .ok (.nopUndoc 0x1C (.abx 0x20F0), []) ∧ decode [0xAB] = .ok (.invalid 0xAB, [])

/-! Addressing modes. -/

/-- R161 to R169, R171, R172: what each mode resolves to, in numbers: the wrap inside page 0, the wrap at 65536, the pointer
in page 0, the page-cross indicator. R174: what `Load` reads and `Store` writes for each kind of resolved operand: the datum
of an immediate, A, or one access of the CPU bus. -/
def Obligations.OperandsResolveByTheirMode : Prop :=
  ∀ (s : State) (v d : Byte) (a : Word),
    resolve .imp s = .none ∧ resolve .acc s = .acc ∧ resolve (.imm v) s = .imm v ∧
    resolve (.zp d) s = .mem (BitVec.ofNat 16 d.toNat) false ∧
    resolve (.zpx d) s = .mem (BitVec.ofNat 16 ((d.toNat + s.x.toNat) % 256)) false ∧
    resolve (.zpy d) s = .mem (BitVec.ofNat 16 ((d.toNat + s.y.toNat) % 256)) false ∧
    resolve (.abs a) s = .mem a false ∧
    (let ea := (a.toNat + s.x.toNat) % 65536;
      resolve (.abx a) s = .mem (BitVec.ofNat 16 ea) (decide (a.toNat / 256 ≠ ea / 256))) ∧
    (let ea := (a.toNat + s.y.toNat) % 65536;
      resolve (.aby a) s = .mem (BitVec.ofNat 16 ea) (decide (a.toNat / 256 ≠ ea / 256))) ∧
    (let p := (d.toNat + s.x.toNat) % 256;
      resolve (.izx d) s = .mem (wordOf (s.ram.read p) (s.ram.read ((p + 1) % 256))) false) ∧
    (let base := (s.ram.read d.toNat).toNat + 256 * (s.ram.read ((d.toNat + 1) % 256)).toNat;
      let ea := (base + s.y.toNat) % 65536;
      resolve (.izy d) s = .mem (BitVec.ofNat 16 ea) (decide (base / 256 ≠ ea / 256))) ∧
    load (.imm v) s = .ok v s ∧ load .acc s = .ok s.a s ∧ store .acc v s = .ok () { s with a := v } ∧
    (∀ crossed : Bool, load (.mem a crossed) s = rd a s ∧ store (.mem a crossed) v s = wr a v s)

/-! The CPU bus. -/

/-- R72, R73, R76, R77, R78: the two routers, range by range. -/
def Obligations.BusRouters : Prop :=
  ∀ (a : Word) (v : Byte) (s : State),
    (a.toNat < 0x2000 → rd a s = .ok (s.ram.read (a.toNat % 0x800)) s ∧
      wr a v s = .ok () { s with ram := s.ram.write (a.toNat % 0x800) v }) ∧
    (0x2000 ≤ a.toNat → a.toNat < 0x4000 →
      rd a s = ppuRegRead (.select a.toNat) s ∧ wr a v s = ppuRegWrite (.select a.toNat) v s) ∧
    rd 0x4016 s = .ok s.joy1.read.1 { s with joy1 := s.joy1.read.2 } ∧
    rd 0x4017 s = .ok s.joy2.read.1 { s with joy2 := s.joy2.read.2 } ∧
    wr 0x4014 v s = oamDma v s ∧
    wr 0x4016 v s = .ok () { s with joy1 := s.joy1.write v } ∧
    wr 0x4017 v s = .ok () { s with joy2 := s.joy2.write v } ∧
    (0x4000 ≤ a.toNat → a.toNat < 0x8000 → a ≠ 0x4016 → a ≠ 0x4017 →
      rd a s = .ok s.config.unmappedRead s ∧ (a ≠ 0x4014 → wr a v s = .ok () s)) ∧
    (0x8000 ≤ a.toNat → wr a v s = .ok () { s with cart := s.cart.writePrg v } ∧
      (∀ b, s.cart.readPrg a.toNat = .ok b → rd a s = .ok b s) ∧
      (∀ k, s.cart.readPrg a.toNat = .error k → rd a s = .trap k))

/-- R74: the 2048 bytes of RAM appear four times: a byte written at one address is read at every address equal to it modulo
0x800, and every other cell is as it was. -/
def Obligations.RamAppearsFourTimes : Prop :=
  ∀ (a b : Word) (v : Byte) (s : State), a.toNat < 0x2000 → b.toNat < 0x2000 →
    ∃ t, wr a v s = .ok () t ∧
      rd b t = .ok (if a.toNat % 0x800 = b.toNat % 0x800 then v else s.ram.read (b.toNat % 0x800)) t ∧
      t = { s with ram := t.ram }

/-- R303, R117, R78, R98: a read traps exactly where the rules say; every other read completes and changes nothing but what
R98 lists. -/
def Obligations.ReadsTrapExactlyWhereSaid : Prop :=
  ∀ (a : Word) (s : State),
    (∀ k, readTrap a s = some k → rd a s = .trap k) ∧
    (readTrap a s = none → ∃ v t, rd a s = .ok v t ∧ ReadFrame s t)

/-- R303, R363, R73: a write traps exactly where the rules say; every other write completes and leaves alone everything but
the cell or device it is addressed to. -/
def Obligations.WritesTrapExactlyWhereSaid : Prop :=
  ∀ (a : Word) (v : Byte) (s : State),
    (∀ k, writeTrap a v s = some k → wr a v s = .trap k) ∧
    (writeTrap a v s = none → ∃ t, wr a v s = .ok () t ∧ WriteFrame a s t)

/-- R95, R96, R21: a push writes 0x0100 | S and decrements S, a pull increments S and reads; both wrap inside page 1 and
neither traps; a pull after a push gives the byte back and S as it was. -/
def Obligations.PushAndPull : Prop :=
  ∀ (v : Byte) (s : State),
    push v s = .ok () { s with ram := s.ram.write (0x100 + s.sp.toNat) v, sp := BitVec.ofNat 8 (s.sp.toNat + 255) } ∧
    pull s = .ok (s.ram.read (0x100 + (s.sp.toNat + 1) % 256)) { s with sp := BitVec.ofNat 8 (s.sp.toNat + 1) } ∧
    (∃ t, push v s = .ok () t ∧ pull t = .ok v { t with sp := s.sp })

/-! PPU registers. -/

/-- R308: a PPUSTATUS read returns `vblank` in bit 7 and `spr0hit` in bit 6, as they were before it, and clears `vblank` and
both latches; `spr0hit` and `nmi_pending` stay. -/
def Obligations.StatusReadClearsVblankAndLatches : Prop :=
  ∀ (a : Word) (s : State), HitsPpu a .ppustatus →
    rd a s = .ok (BitVec.ofNat 8 ((if s.ppu.vblank then 128 else 0) + (if s.ppu.spr0hit then 64 else 0)))
      { s with ppu := { s.ppu with vblank := false, scrollLatch := false, addrLatch := false } }

/-- R306, R307: a PPUCTRL write stores all 8 bits and requests an NMI when bit 7 is written 1 while `vblank` is 1 and, under
`rising`, `nmi_en` was 0; a PPUMASK write stores all 8 bits; neither does anything else. -/
def Obligations.ControlAndMaskWrites : Prop :=
  ∀ (a : Word) (v : Byte) (s : State),
    (HitsPpu a .ppuctrl → wr a v s = .ok () { s with
      ppu := { s.ppu with ctrl := v }
      nmiPending := if 128 ≤ v.toNat ∧ s.ppu.vblank = true ∧
          (s.config.nmiOnCtrlWrite = .level ∨ s.ppu.ctrl.toNat < 128) then true else s.nmiPending }) ∧
    (HitsPpu a .ppumask → wr a v s = .ok () { s with ppu := { s.ppu with mask := v } })

/-- R309, R310, R311: OAMADDR is set; an OAMDATA read has no side effect; an OAMDATA write stores and increments modulo 256;
no other byte of OAM changes. -/
def Obligations.OamPorts : Prop :=
  ∀ (a : Word) (v : Byte) (s : State),
    (HitsPpu a .oamaddr → wr a v s = .ok () { s with ppu := { s.ppu with oamAddr := v } }) ∧
    (HitsPpu a .oamdata → rd a s = .ok (s.ppu.oam.read s.ppu.oamAddr.toNat) s ∧
      ∃ t, wr a v s = .ok () t ∧ t = { s with ppu := { s.ppu with oam := t.ppu.oam, oamAddr := t.ppu.oamAddr } } ∧
        t.ppu.oamAddr.toNat = (s.ppu.oamAddr.toNat + 1) % 256 ∧
        ∀ k, t.ppu.oam.read k = if k = s.ppu.oamAddr.toNat then v else s.ppu.oam.read k)

/-- R312, R313, R314: each of PPUSCROLL and PPUADDR has its own toggled latch; the first write sets X or the high byte, the
second Y or the low byte; neither register's write touches the other's latch or value. -/
def Obligations.ScrollAndAddressLatches : Prop :=
  ∀ (a : Word) (v : Byte) (s : State),
    (HitsPpu a .ppuscroll →
      (s.ppu.scrollLatch = false → wr a v s = .ok () { s with ppu := { s.ppu with scrollX := v, scrollLatch := true } }) ∧
      (s.ppu.scrollLatch = true → wr a v s = .ok () { s with ppu := { s.ppu with scrollY := v, scrollLatch := false } })) ∧
    (HitsPpu a .ppuaddr →
      (s.ppu.addrLatch = false → wr a v s = .ok () { s with ppu := { s.ppu with
        vramAddr := BitVec.ofNat 16 (v.toNat * 256 + s.ppu.vramAddr.toNat % 256), addrLatch := true } }) ∧
      (s.ppu.addrLatch = true → wr a v s = .ok () { s with ppu := { s.ppu with
        vramAddr := BitVec.ofNat 16 (s.ppu.vramAddr.toNat / 256 * 256 + v.toNat), addrLatch := false } }))

/-- R315, R316, R317: a PPUDATA read below 0x3F00 returns the buffer and refills it, from 0x3F00 on it returns the palette
byte and fills the buffer from the nametable under it; a write goes to the PPU bus and leaves the buffer; both add 1 or 32
to the address modulo 65536. -/
def Obligations.DataPort : Prop :=
  ∀ (a : Word) (v : Byte) (s : State), HitsPpu a .ppudata →
    let va := s.ppu.vramAddr.toNat % 0x4000
    let next := BitVec.ofNat 16 (s.ppu.vramAddr.toNat + if s.ppu.ctrl.getLsbD 2 then 32 else 1)
    (va < 0x3F00 → rd a s = .ok s.ppu.readBuffer
      { s with ppu := { s.ppu with readBuffer := ppuRd s.cart s.ppu va, vramAddr := next } }) ∧
    (0x3F00 ≤ va → rd a s = .ok (ppuRd s.cart s.ppu va)
      { s with ppu := { s.ppu with readBuffer := ppuRd s.cart s.ppu (va - 0x1000), vramAddr := next } }) ∧
    wr a v s = .ok () { s with
      cart := (ppuWr s.cart s.ppu va v).1
      ppu := { (ppuWr s.cart s.ppu va v).2 with vramAddr := next } }

/-- R315 (MAGNES property 5): after the address is set, by two PPUADDR writes with the latch clear, to an A below 0x3F00, two
PPUDATA reads return first the old buffer, then the byte at A. -/
def Obligations.PpudataReadsAreDelayed : Prop :=
  ∀ (hi lo : Byte) (s : State), s.ppu.addrLatch = false → (hi.toNat * 256 + lo.toNat) % 0x4000 < 0x3F00 →
    ∃ s1 s2 s3 s4, wr 0x2006 hi s = .ok () s1 ∧ wr 0x2006 lo s1 = .ok () s2 ∧
      rd 0x2007 s2 = .ok s.ppu.readBuffer s3 ∧
      rd 0x2007 s3 = .ok (if (s3.ppu.vramAddr.toNat % 0x4000) < 0x3F00 then
          ppuRd s.cart s.ppu (hi.toNat * 256 + lo.toNat) else ppuRd s.cart s.ppu s3.ppu.vramAddr.toNat) s4

/-! The PPU bus and the mappers. -/

/-- R100, R101, R119, R121: what is written on the PPU bus is read at every address of the same cell, unless the cell is CHR
ROM; every other cell is as it was. -/
def Obligations.PpuBusReadAfterWrite : Prop :=
  ∀ (c : Cart) (p : Ppu) (a b : Nat) (v : Byte),
    ppuRd (ppuWr c p a v).1 (ppuWr c p a v).2 b =
      if ppuCell c.mirroring a = ppuCell c.mirroring b ∧ (0x2000 ≤ a % 0x4000 ∨ (c.mapper = .uxrom ∧ c.chrBanks = 0)) then v
      else ppuRd c p b

/-- R99, R100, R118, R120: the byte a PPU-bus read returns, below 0x2000 the one of CHR ROM or CHR RAM; the address counts
modulo 0x4000. R102, R103, R104, R105, R106: which PPU addresses share a cell. Horizontal: tables 0 and 1, tables 2 and 3. Vertical:
tables 0 and 2, tables 1 and 3. The region from 0x3000 repeats the tables. The palette repeats every 32 bytes, and 10, 14,
18, 1C are 00, 04, 08, 0C. -/
def Obligations.PpuBusReads : Prop :=
  ∀ (c : Cart) (p : Ppu) (k : Nat),
    ppuRd c p k = ppuRd c p (k % 0x4000) ∧
    (k < 0x2000 → (c.mapper = .nrom ∨ c.chrBanks ≠ 0 → ppuRd c p k = c.chr.read k) ∧
      (c.mapper = .uxrom → c.chrBanks = 0 → ppuRd c p k = c.chrRam.read k)) ∧
    (∀ table, table < 4 → k < 0x400 → ppuRd c p (0x2000 + table * 0x400 + k) = p.vram.read
      ((if c.mirroring = .horizontal then table / 2 else table % 2) * 0x400 + k)) ∧
    (k < 0x400 → c.mirroring = .horizontal →
      ppuCell c.mirroring (0x2400 + k) = ppuCell c.mirroring (0x2000 + k) ∧
      ppuCell c.mirroring (0x2C00 + k) = ppuCell c.mirroring (0x2800 + k) ∧
      ppuCell c.mirroring (0x2800 + k) ≠ ppuCell c.mirroring (0x2000 + k)) ∧
    (k < 0x400 → c.mirroring = .vertical →
      ppuCell c.mirroring (0x2800 + k) = ppuCell c.mirroring (0x2000 + k) ∧
      ppuCell c.mirroring (0x2C00 + k) = ppuCell c.mirroring (0x2400 + k) ∧
      ppuCell c.mirroring (0x2400 + k) ≠ ppuCell c.mirroring (0x2000 + k)) ∧
    (k < 0xF00 → ppuRd c p (0x3000 + k) = ppuRd c p (0x2000 + k)) ∧
    (k < 0x100 → ppuRd c p (0x3F00 + k) = p.palette.read (if k % 32 = 0x10 ∨ k % 32 = 0x14 ∨ k % 32 = 0x18 ∨ k % 32 = 0x1C
      then k % 32 - 0x10 else k % 32))

/-- R111, R112, R115, R116, R117: the PRG window of both mappers, and what a write to it does. -/
def Obligations.PrgMapping : Prop :=
  ∀ (c : Cart) (a : Nat) (v : Byte), c.wf = true → 0x8000 ≤ a → a < 0x10000 →
    (c.mapper = .nrom → c.writePrg v = c ∧
      (c.prgBanks = 1 → c.readPrg a = .ok (c.prg.read ((a - 0x8000) % 0x4000))) ∧
      (c.prgBanks = 2 → c.readPrg a = .ok (c.prg.read (a - 0x8000)))) ∧
    (c.mapper = .uxrom → c.writePrg v = { c with bankSelect := BitVec.ofNat 4 v.toNat } ∧
      (a < 0xC000 → c.bankSelect.toNat < c.prgBanks →
        c.readPrg a = .ok (c.prg.read (c.bankSelect.toNat * 0x4000 + (a - 0x8000)))) ∧
      (a < 0xC000 → c.prgBanks ≤ c.bankSelect.toNat → c.readPrg a = .error .cartridgeOutOfRange) ∧
      (0xC000 ≤ a → c.readPrg a = .ok (c.prg.read ((c.prgBanks - 1) * 0x4000 + (a - 0xC000)))))

/-! DMA and joypads. -/

/-- R361, R362, R363: an OAM DMA from page `v` copies 256 bytes into OAM from `oam_addr` on, wrapping, leaves `oam_addr`, and
bills `DMA_CYCLES`; RAM pages, unmapped pages, PRG pages, and page 0x40 with its two joypad reads. -/
def Obligations.OamDmaCopiesAPage : Prop :=
  ∀ (v : Byte) (s : State), readTrap (wordOf 0x00 v) s = none →
    ∃ t, wr 0x4014 v s = .ok () t ∧
      t.ppu = { s.ppu with oam := t.ppu.oam } ∧
      t.remainingCycles = s.remainingCycles + s.config.dmaCycles.toNat ∧
      (v ≠ 0x40 → t.joy1 = s.joy1 ∧ t.joy2 = s.joy2) ∧
      (v = 0x40 → t.joy1 = s.joy1.read.2 ∧ t.joy2 = s.joy2.read.2) ∧
      ∀ i, i < 256 →
        let b := t.ppu.oam.read ((s.ppu.oamAddr.toNat + i) % 256)
        (v.toNat < 0x20 → b = s.ram.read ((v.toNat * 256 + i) % 0x800)) ∧
        (v = 0x40 → b = if i = 0x16 then s.joy1.read.1 else if i = 0x17 then s.joy2.read.1 else s.config.unmappedRead) ∧
        (0x41 ≤ v.toNat → v.toNat < 0x80 → b = s.config.unmappedRead) ∧
        (0x80 ≤ v.toNat → s.cart.readPrg (v.toNat * 256 + i) = .ok b)

/-- R365, R367, R369 (MAGNES property 7): after a write of 1 and a write of 0, eight reads give the buttons in order and every
later read gives 1, on either port; while the strobe is 1 every read gives button A. -/
def Obligations.JoypadReportsItsButtons : Prop :=
  ∀ (one zero : Byte) (s : State) (n : Nat), one.getLsbD 0 = true → zero.getLsbD 0 = false →
    (∃ s1 s2, wr 0x4016 one s = .ok () s1 ∧ wr 0x4016 zero s1 = .ok () s2 ∧
      readsOf 0x4016 n s1 = List.replicate n (if s.joy1.buttons.getLsbD 0 then 0x01 else 0x00) ∧
      readsOf 0x4016 (8 + n) s2 = buttonBytes s.joy1.buttons ++ List.replicate n 0x01) ∧
    (∃ s1 s2, wr 0x4017 one s = .ok () s1 ∧ wr 0x4017 zero s1 = .ok () s2 ∧
      readsOf 0x4017 n s1 = List.replicate n (if s.joy2.buttons.getLsbD 0 then 0x01 else 0x00) ∧
      readsOf 0x4017 (8 + n) s2 = buttonBytes s.joy2.buttons ++ List.replicate n 0x01)

/-! Instructions: what each does, that it completes, and what it leaves alone. -/

/-- R181, R182, R183, R281: LDA, LDX, LDY and LAX. -/
def Obligations.LoadsFollowTheirRules : Prop :=
  Spells .lda [(.imm, 0xA9), (.zp, 0xA5), (.zpx, 0xB5), (.abs, 0xAD), (.abx, 0xBD), (.aby, 0xB9), (.izx, 0xA1),
    (.izy, 0xB1)] ∧
  ReadRule .lda (fun v t => { t with a := v, p := withNZ t.p v }) ∧
  Spells .ldx [(.imm, 0xA2), (.zp, 0xA6), (.zpy, 0xB6), (.abs, 0xAE), (.aby, 0xBE)] ∧
  ReadRule .ldx (fun v t => { t with x := v, p := withNZ t.p v }) ∧
  Spells .ldy [(.imm, 0xA0), (.zp, 0xA4), (.zpx, 0xB4), (.abs, 0xAC), (.abx, 0xBC)] ∧
  ReadRule .ldy (fun v t => { t with y := v, p := withNZ t.p v }) ∧
  Spells .lax [(.zp, 0xA7), (.zpy, 0xB7), (.abs, 0xAF), (.aby, 0xBF), (.izx, 0xA3), (.izy, 0xB3)] ∧
  ReadRule .lax (fun v t => { t with a := v, x := v, p := withNZ t.p v })

/-- R206, R207, R208: AND, ORA and EOR. -/
def Obligations.LogicFollowsItsRules : Prop :=
  Spells .and [(.imm, 0x29), (.zp, 0x25), (.zpx, 0x35), (.abs, 0x2D), (.abx, 0x3D), (.aby, 0x39), (.izx, 0x21),
    (.izy, 0x31)] ∧
  ReadRule .and (fun v t => { t with a := t.a &&& v, p := withNZ t.p (t.a &&& v) }) ∧
  Spells .ora [(.imm, 0x09), (.zp, 0x05), (.zpx, 0x15), (.abs, 0x0D), (.abx, 0x1D), (.aby, 0x19), (.izx, 0x01),
    (.izy, 0x11)] ∧
  ReadRule .ora (fun v t => { t with a := t.a ||| v, p := withNZ t.p (t.a ||| v) }) ∧
  Spells .eor [(.imm, 0x49), (.zp, 0x45), (.zpx, 0x55), (.abs, 0x4D), (.abx, 0x5D), (.aby, 0x59), (.izx, 0x41),
    (.izy, 0x51)] ∧
  ReadRule .eor (fun v t => { t with a := t.a ^^^ v, p := withNZ t.p (t.a ^^^ v) })

/-- R202, R203, R204, R283: ADC, SBC and USBC, with C and V read off the unsigned and the signed sum. SBC adds the bitwise
complement. -/
def Obligations.ArithmeticFollowsItsRules : Prop :=
  Spells .adc [(.imm, 0x69), (.zp, 0x65), (.zpx, 0x75), (.abs, 0x6D), (.abx, 0x7D), (.aby, 0x79), (.izx, 0x61),
    (.izy, 0x71)] ∧
  ReadRule .adc (fun m t => { t with a := (addResult t.a m t.p).1, p := (addResult t.a m t.p).2 }) ∧
  Spells .sbc [(.imm, 0xE9), (.zp, 0xE5), (.zpx, 0xF5), (.abs, 0xED), (.abx, 0xFD), (.aby, 0xF9), (.izx, 0xE1),
    (.izy, 0xF1)] ∧
  ReadRule .sbc (fun m t => { t with
    a := (addResult t.a (BitVec.ofNat 8 (255 - m.toNat)) t.p).1
    p := (addResult t.a (BitVec.ofNat 8 (255 - m.toNat)) t.p).2 }) ∧
  (∀ (m : Byte) (s : State), encode (.usbc m) = [0xEB, m] ∧
    exec (.usbc m) s = .next { s with
      a := (addResult s.a (BitVec.ofNat 8 (255 - m.toNat)) s.p).1
      p := (addResult s.a (BitVec.ofNat 8 (255 - m.toNat)) s.p).2
      pc := s.pc + 2
      remainingCycles := s.remainingCycles + 2 })

/-- R205 (MAGNES property 6): from one state, ADC of an operand that loads M and SBC of an operand that loads the complement
of M leave the same A, C, V, N and Z. -/
def Obligations.AdcIsSbcOfTheComplement : Prop :=
  ∀ (o o' : Operand) (s t t' : State) (m : Byte),
    load (resolve o s) s = .ok m t → load (resolve o' s) s = .ok (~~~m) t' →
    ∃ u u', exec (.adc o) s = .next u ∧ exec (.sbc o') s = .next u' ∧ u.a = u'.a ∧ u.p = u'.p

/-- R201: D plays no part in ADC, SBC, USBC, ISB and RRA: with D replaced before them they do the same, and leave that D. -/
def Obligations.DecimalFlagIsInert : Prop :=
  ∀ (o : Operand) (v : Byte) (b : Bool) (s : State) (i : Instr), i ∈ [.adc o, .sbc o, .usbc v, .isb o, .rra o] →
    ∃ t, exec i s = .next t ∧ exec i (withD b s) = .next (withD b t)

/-- R209, R210, R211, R212, R213: CMP, CPX, CPY and BIT. -/
def Obligations.ComparesFollowTheirRules : Prop :=
  Spells .cmp [(.imm, 0xC9), (.zp, 0xC5), (.zpx, 0xD5), (.abs, 0xCD), (.abx, 0xDD), (.aby, 0xD9), (.izx, 0xC1),
    (.izy, 0xD1)] ∧
  ReadRule .cmp (fun m t => { t with p := compareResult t.a m t.p }) ∧
  Spells .cpx [(.imm, 0xE0), (.zp, 0xE4), (.abs, 0xEC)] ∧
  ReadRule .cpx (fun m t => { t with p := compareResult t.x m t.p }) ∧
  Spells .cpy [(.imm, 0xC0), (.zp, 0xC4), (.abs, 0xCC)] ∧
  ReadRule .cpy (fun m t => { t with p := compareResult t.y m t.p }) ∧
  Spells .bit [(.zp, 0x24), (.abs, 0x2C)] ∧
  ReadRule .bit (fun m t => { t with p := { t.p with
    z := decide ((t.a &&& m).toNat = 0), n := decide (128 ≤ m.toNat), v := decide (64 ≤ m.toNat % 128) } })

/-- R184, R185, R186, R282: STA, STX, STY and SAX. -/
def Obligations.StoresFollowTheirRules : Prop :=
  Spells .sta [(.zp, 0x85), (.zpx, 0x95), (.abs, 0x8D), (.abx, 0x9D), (.aby, 0x99), (.izx, 0x81), (.izy, 0x91)] ∧
  StoreRule .sta (fun s => s.a) ∧
  Spells .stx [(.zp, 0x86), (.zpy, 0x96), (.abs, 0x8E)] ∧ StoreRule .stx (fun s => s.x) ∧
  Spells .sty [(.zp, 0x84), (.zpx, 0x94), (.abs, 0x8C)] ∧ StoreRule .sty (fun s => s.y) ∧
  Spells .sax [(.zp, 0x87), (.zpy, 0x97), (.abs, 0x8F), (.izx, 0x83)] ∧ StoreRule .sax (fun s => s.a &&& s.x)

/-- R214, R215: INC and DEC. -/
def Obligations.IncrementsFollowTheirRules : Prop :=
  Spells .inc [(.zp, 0xE6), (.zpx, 0xF6), (.abs, 0xEE), (.abx, 0xFE)] ∧
  RmwRule .inc (fun m p => (BitVec.ofNat 8 (m.toNat + 1), p)) (fun r u => { u with p := withNZ u.p r }) ∧
  Spells .dec [(.zp, 0xC6), (.zpx, 0xD6), (.abs, 0xCE), (.abx, 0xDE)] ∧
  RmwRule .dec (fun m p => (BitVec.ofNat 8 (m.toNat + 255), p)) (fun r u => { u with p := withNZ u.p r })

/-- R231, R232, R233, R234: ASL, LSR, ROL and ROR, on A and on memory. -/
def Obligations.ShiftsFollowTheirRules : Prop :=
  Spells .asl [(.acc, 0x0A), (.zp, 0x06), (.zpx, 0x16), (.abs, 0x0E), (.abx, 0x1E)] ∧
  RmwRule .asl (fun m p => (BitVec.ofNat 8 (2 * m.toNat), { p with c := decide (128 ≤ m.toNat) }))
    (fun r u => { u with p := withNZ u.p r }) ∧
  Spells .lsr [(.acc, 0x4A), (.zp, 0x46), (.zpx, 0x56), (.abs, 0x4E), (.abx, 0x5E)] ∧
  RmwRule .lsr (fun m p => (BitVec.ofNat 8 (m.toNat / 2), { p with c := decide (m.toNat % 2 = 1) }))
    (fun r u => { u with p := withNZ u.p r }) ∧
  Spells .rol [(.acc, 0x2A), (.zp, 0x26), (.zpx, 0x36), (.abs, 0x2E), (.abx, 0x3E)] ∧
  RmwRule .rol (fun m p => (BitVec.ofNat 8 (2 * m.toNat + carry p), { p with c := decide (128 ≤ m.toNat) }))
    (fun r u => { u with p := withNZ u.p r }) ∧
  Spells .ror [(.acc, 0x6A), (.zp, 0x66), (.zpx, 0x76), (.abs, 0x6E), (.abx, 0x7E)] ∧
  RmwRule .ror (fun m p => (BitVec.ofNat 8 (m.toNat / 2 + 128 * carry p), { p with c := decide (m.toNat % 2 = 1) }))
    (fun r u => { u with p := withNZ u.p r })

/-- R284, R285, R286, R287, R288, R289: DCP, ISB, SLO, RLA, SRE and RRA: the components in order, the later one's flags over
the earlier one's, the second on the value just stored. -/
def Obligations.UndocumentedPairsFollowTheirRules : Prop :=
  Spells .dcp [(.zp, 0xC7), (.zpx, 0xD7), (.abs, 0xCF), (.abx, 0xDF), (.aby, 0xDB), (.izx, 0xC3), (.izy, 0xD3)] ∧
  RmwRule .dcp (fun m p => (BitVec.ofNat 8 (m.toNat + 255), p)) (fun r u => { u with p := compareResult u.a r u.p }) ∧
  Spells .isb [(.zp, 0xE7), (.zpx, 0xF7), (.abs, 0xEF), (.abx, 0xFF), (.aby, 0xFB), (.izx, 0xE3), (.izy, 0xF3)] ∧
  RmwRule .isb (fun m p => (BitVec.ofNat 8 (m.toNat + 1), p)) (fun r u => { u with
    a := (addResult u.a (BitVec.ofNat 8 (255 - r.toNat)) u.p).1
    p := (addResult u.a (BitVec.ofNat 8 (255 - r.toNat)) u.p).2 }) ∧
  Spells .slo [(.zp, 0x07), (.zpx, 0x17), (.abs, 0x0F), (.abx, 0x1F), (.aby, 0x1B), (.izx, 0x03), (.izy, 0x13)] ∧
  RmwRule .slo (fun m p => (BitVec.ofNat 8 (2 * m.toNat), { p with c := decide (128 ≤ m.toNat) }))
    (fun r u => { u with a := u.a ||| r, p := withNZ u.p (u.a ||| r) }) ∧
  Spells .rla [(.zp, 0x27), (.zpx, 0x37), (.abs, 0x2F), (.abx, 0x3F), (.aby, 0x3B), (.izx, 0x23), (.izy, 0x33)] ∧
  RmwRule .rla (fun m p => (BitVec.ofNat 8 (2 * m.toNat + carry p), { p with c := decide (128 ≤ m.toNat) }))
    (fun r u => { u with a := u.a &&& r, p := withNZ u.p (u.a &&& r) }) ∧
  Spells .sre [(.zp, 0x47), (.zpx, 0x57), (.abs, 0x4F), (.abx, 0x5F), (.aby, 0x5B), (.izx, 0x43), (.izy, 0x53)] ∧
  RmwRule .sre (fun m p => (BitVec.ofNat 8 (m.toNat / 2), { p with c := decide (m.toNat % 2 = 1) }))
    (fun r u => { u with a := u.a ^^^ r, p := withNZ u.p (u.a ^^^ r) }) ∧
  Spells .rra [(.zp, 0x67), (.zpx, 0x77), (.abs, 0x6F), (.abx, 0x7F), (.aby, 0x7B), (.izx, 0x63), (.izy, 0x73)] ∧
  RmwRule .rra (fun m p => (BitVec.ofNat 8 (m.toNat / 2 + 128 * carry p), { p with c := decide (m.toNat % 2 = 1) }))
    (fun r u => { u with a := (addResult u.a r u.p).1, p := (addResult u.a r u.p).2 })

/-- R290, R291: ANC, both opcode bytes alike, and ALR. -/
def Obligations.AncAndAlrFollowTheirRules : Prop :=
  ∀ (m : Byte) (s : State),
    (∀ op : Byte, op = 0x0B ∨ op = 0x2B → encode (.anc op m) = [op, m] ∧ (Instr.anc op m).wf = true ∧
      exec (.anc op m) s = .next { s with
        a := s.a &&& m
        p := { withNZ s.p (s.a &&& m) with c := decide (128 ≤ (s.a &&& m).toNat) }
        pc := s.pc + 2
        remainingCycles := s.remainingCycles + 2 }) ∧
    (encode (.alr m) = [0x4B, m] ∧
      exec (.alr m) s = .next { s with
        a := BitVec.ofNat 8 ((s.a &&& m).toNat / 2)
        p := { withNZ s.p (BitVec.ofNat 8 ((s.a &&& m).toNat / 2)) with c := decide ((s.a &&& m).toNat % 2 = 1) }
        pc := s.pc + 2
        remainingCycles := s.remainingCycles + 2 })

/-- R187 to R192, R216 to R219: the transfers, TXS writing no flag, and the increments and decrements of X and Y. -/
def Obligations.RegisterInstructionsFollowTheirRules : Prop :=
  SpellsImplied .tax 0xAA ∧ ImpliedRule .tax (fun s => { s with x := s.a, p := withNZ s.p s.a }) ∧
  SpellsImplied .tay 0xA8 ∧ ImpliedRule .tay (fun s => { s with y := s.a, p := withNZ s.p s.a }) ∧
  SpellsImplied .txa 0x8A ∧ ImpliedRule .txa (fun s => { s with a := s.x, p := withNZ s.p s.x }) ∧
  SpellsImplied .tya 0x98 ∧ ImpliedRule .tya (fun s => { s with a := s.y, p := withNZ s.p s.y }) ∧
  SpellsImplied .tsx 0xBA ∧ ImpliedRule .tsx (fun s => { s with x := s.sp, p := withNZ s.p s.sp }) ∧
  SpellsImplied .txs 0x9A ∧ ImpliedRule .txs (fun s => { s with sp := s.x }) ∧
  SpellsImplied .inx 0xE8 ∧
  ImpliedRule .inx (fun s => { s with
    x := BitVec.ofNat 8 (s.x.toNat + 1), p := withNZ s.p (BitVec.ofNat 8 (s.x.toNat + 1)) }) ∧
  SpellsImplied .iny 0xC8 ∧
  ImpliedRule .iny (fun s => { s with
    y := BitVec.ofNat 8 (s.y.toNat + 1), p := withNZ s.p (BitVec.ofNat 8 (s.y.toNat + 1)) }) ∧
  SpellsImplied .dex 0xCA ∧
  ImpliedRule .dex (fun s => { s with
    x := BitVec.ofNat 8 (s.x.toNat + 255), p := withNZ s.p (BitVec.ofNat 8 (s.x.toNat + 255)) }) ∧
  SpellsImplied .dey 0x88 ∧
  ImpliedRule .dey (fun s => { s with
    y := BitVec.ofNat 8 (s.y.toNat + 255), p := withNZ s.p (BitVec.ofNat 8 (s.y.toNat + 255)) })

/-- R265 to R271: the seven flag instructions, each its one flag. -/
def Obligations.FlagInstructionsFollowTheirRules : Prop :=
  SpellsImplied .clc 0x18 ∧ ImpliedRule .clc (fun s => { s with p := { s.p with c := false } }) ∧
  SpellsImplied .sec 0x38 ∧ ImpliedRule .sec (fun s => { s with p := { s.p with c := true } }) ∧
  SpellsImplied .cli 0x58 ∧ ImpliedRule .cli (fun s => { s with p := { s.p with i := false } }) ∧
  SpellsImplied .sei 0x78 ∧ ImpliedRule .sei (fun s => { s with p := { s.p with i := true } }) ∧
  SpellsImplied .cld 0xD8 ∧ ImpliedRule .cld (fun s => { s with p := { s.p with d := false } }) ∧
  SpellsImplied .sed 0xF8 ∧ ImpliedRule .sed (fun s => { s with p := { s.p with d := true } }) ∧
  SpellsImplied .clv 0xB8 ∧ ImpliedRule .clv (fun s => { s with p := { s.p with v := false } })

/-- R272, R293, R292: the official NOP, the undocumented NOPs, which do not read their effective address, and JAM, which
leaves everything, PC included, and lets `JAM_CYCLES` pass. -/
def Obligations.NopsAndJamFollowTheirRules : Prop :=
  SpellsImplied .nop 0xEA ∧ ImpliedRule .nop (fun s => s) ∧
  (∀ (op : Byte) (m : Operand) (s : State), (Instr.nopUndoc op m).wf = true →
    (encode (.nopUndoc op m)).head? = some op ∧
    (m.mode, op) ∈ ([(.imp, 0x1A), (.imp, 0x3A), (.imp, 0x5A), (.imp, 0x7A), (.imp, 0xDA), (.imp, 0xFA), (.imm, 0x80),
      (.imm, 0x82), (.imm, 0x89), (.imm, 0xC2), (.imm, 0xE2), (.zp, 0x04), (.zp, 0x44), (.zp, 0x64), (.zpx, 0x14),
      (.zpx, 0x34), (.zpx, 0x54), (.zpx, 0x74), (.zpx, 0xD4), (.zpx, 0xF4), (.abs, 0x0C), (.abx, 0x1C), (.abx, 0x3C),
      (.abx, 0x5C), (.abx, 0x7C), (.abx, 0xDC), (.abx, 0xFC)] : List (Mode × Byte)) ∧
    exec (.nopUndoc op m) s = .next { s with
      pc := s.pc + BitVec.ofNat 16 m.mode.len
      remainingCycles := s.remainingCycles + (rowCost (.nopUndoc op m) + crossCost m s : Nat) }) ∧
  (∀ (op : Byte) (s : State),
    op ∈ ([0x02, 0x12, 0x22, 0x32, 0x42, 0x52, 0x62, 0x72, 0x92, 0xB2, 0xD2, 0xF2] : List Byte) →
    SpellsImplied (.jam op) op ∧
    exec (.jam op) s = .next { s with remainingCycles := s.remainingCycles + s.config.jamCycles })

/-- R245, R247 to R254: the eight branches: the flag and polarity each tests, both outcomes, the three costs. -/
def Obligations.BranchesFollowTheirRules : Prop :=
  BranchRule .bcc 0x90 (fun p => !p.c) ∧ BranchRule .bcs 0xB0 (fun p => p.c) ∧
  BranchRule .beq 0xF0 (fun p => p.z) ∧ BranchRule .bne 0xD0 (fun p => !p.z) ∧
  BranchRule .bmi 0x30 (fun p => p.n) ∧ BranchRule .bpl 0x10 (fun p => !p.n) ∧
  BranchRule .bvc 0x50 (fun p => !p.v) ∧ BranchRule .bvs 0x70 (fun p => p.v)

/-- R241, R170: JMP to its operand, and JMP through a pointer whose high byte comes from the same page. -/
def Obligations.JumpsFollowTheirRules : Prop :=
  ∀ (a : Word) (s : State),
    encode (.jmp a) = [0x4C, BitVec.ofNat 8 a.toNat, BitVec.ofNat 8 (a.toNat / 256)] ∧
    exec (.jmp a) s = .next { s with pc := a, remainingCycles := s.remainingCycles + 3 } ∧
    encode (.jmpInd a) = [0x6C, BitVec.ofNat 8 a.toNat, BitVec.ofNat 8 (a.toNat / 256)] ∧
    (let second := BitVec.ofNat 16 (a.toNat / 256 * 256 + (a.toNat + 1) % 256);
      (∀ k, readTrap a s = some k → exec (.jmpInd a) s = .next { s with fault := some k }) ∧
      (∀ k, readTrap a s = none → readTrap second s = some k → exec (.jmpInd a) s = .next { s with fault := some k }) ∧
      (readTrap a s = none → readTrap second s = none →
        ∃ lo hi t u, rd a s = .ok lo t ∧ rd second t = .ok hi u ∧ ReadFrame s u ∧
          exec (.jmpInd a) s = .next { u with
            pc := BitVec.ofNat 16 (lo.toNat + 256 * hi.toNat), remainingCycles := s.remainingCycles + 5 }))

/-- R242, R243, R244, R28 (decisions D5, D7; log 19): JSR, RTS and RTI, with the bytes of the stack page they write and read. -/
def Obligations.SubroutinesFollowTheirRules : Prop :=
  ∀ (a : Word) (s : State),
    encode (.jsr a) = [0x20, BitVec.ofNat 8 a.toNat, BitVec.ofNat 8 (a.toNat / 256)] ∧
    (let ret := (s.pc.toNat + 2) % 65536;
      exec (.jsr a) s = .next { s with
        ram := (s.ram.write (stackCell s.sp) (BitVec.ofNat 8 (ret / 256))).write (stackCell (s.sp - 1)) (BitVec.ofNat 8 ret)
        sp := s.sp - 2
        pc := a
        remainingCycles := s.remainingCycles + 6 }) ∧
    SpellsImplied .rts 0x60 ∧
    exec .rts s = .next { s with
      sp := s.sp + 2
      pc := wordOf (s.ram.read (stackCell (s.sp + 1))) (s.ram.read (stackCell (s.sp + 2))) + 1
      remainingCycles := s.remainingCycles + 6 } ∧
    SpellsImplied .rti 0x40 ∧
    (let v := s.ram.read (stackCell (s.sp + 1));
      exec .rti s = .next { s with
        p := { n := v.getLsbD 7, v := v.getLsbD 6, d := v.getLsbD 3, i := v.getLsbD 2, z := v.getLsbD 1, c := v.getLsbD 0 }
        sp := s.sp + 3
        pc := wordOf (s.ram.read (stackCell (s.sp + 2))) (s.ram.read (stackCell (s.sp + 3)))
        remainingCycles := s.remainingCycles + 6 })

/-- R261, R262, R263, R264, R27, R28: PHA, PHP, PLA and PLP. -/
def Obligations.StackInstructionsFollowTheirRules : Prop :=
  ∀ s : State,
    SpellsImplied .pha 0x48 ∧
    exec .pha s = .next { s with
      ram := s.ram.write (stackCell s.sp) s.a, sp := s.sp - 1, pc := s.pc + 1
      remainingCycles := s.remainingCycles + 3 } ∧
    SpellsImplied .php 0x08 ∧
    exec .php s = .next { s with
      ram := s.ram.write (stackCell s.sp) (pImage s.p 1), sp := s.sp - 1, pc := s.pc + 1
      remainingCycles := s.remainingCycles + 3 } ∧
    SpellsImplied .pla 0x68 ∧
    exec .pla s = .next { s with
      a := s.ram.read (stackCell (s.sp + 1)), p := withNZ s.p (s.ram.read (stackCell (s.sp + 1))), sp := s.sp + 1
      pc := s.pc + 1, remainingCycles := s.remainingCycles + 4 } ∧
    SpellsImplied .plp 0x28 ∧
    (let v := s.ram.read (stackCell (s.sp + 1));
      exec .plp s = .next { s with
        p := { n := v.getLsbD 7, v := v.getLsbD 6, d := v.getLsbD 3, i := v.getLsbD 2, z := v.getLsbD 1, c := v.getLsbD 0 }
        sp := s.sp + 1, pc := s.pc + 1, remainingCycles := s.remainingCycles + 4 })

/-- R246, R27, R384, R382, R145, R294: BRK in both modes, and the ten invalid opcodes: a trap changes nothing but `fault`. -/
def Obligations.BrkAndInvalidOpcodes : Prop :=
  (∀ s : State, SpellsImplied .brk 0x00 ∧
    (s.config.brkMode = .trap → exec .brk s = .next { s with fault := some .brk }) ∧
    (s.config.brkMode = .vector → s.cart.wf = true →
      exec .brk s = .next { s with
        ram := framePushed s (s.pc + 2) (pImage s.p 1)
        sp := s.sp - 3
        p := { s.p with i := true }
        pc := vectorAt s.cart 0xFFFE
        remainingCycles := s.remainingCycles + 7 })) ∧
  (∀ (op : Byte) (s : State),
    op ∈ ([0x6B, 0x8B, 0x93, 0x9B, 0x9C, 0x9E, 0x9F, 0xAB, 0xBB, 0xCB] : List Byte) →
    SpellsImplied (.invalid op) op ∧ exec (.invalid op) s = .next { s with fault := some (.invalidOpcode op) } ∧
    (∀ t, Undisturbed s → rd s.pc { s with remainingCycles := 0 } = .ok op t →
      dispatch s = .next { s with fault := some (.invalidOpcode op) }))

/-! Interrupts, traps, steps. -/

/-- R386, R27, R388, R389, R390: at a dispatch a pending NMI is taken whatever I holds, then an IRQ with I clear, otherwise
an instruction is fetched and executed, and the state it leaves, or the boundary with `fault` set if it trapped, is the next
state; the entry pushes PC, high byte first, and P with B clear, sets I, and goes to the vector. -/
def Obligations.InterruptsAreTakenInOrder : Prop :=
  ∀ s : State, s.cart.wf = true → s.fault = none →
    (s.nmiPending = true → dispatch s = .next { s with
      ram := framePushed s s.pc (pImage s.p 0)
      sp := s.sp - 3
      p := { s.p with i := true }
      pc := vectorAt s.cart 0xFFFA
      nmiPending := false
      remainingCycles := 7 }) ∧
    (s.nmiPending = false → s.irqLine = true → s.p.i = false → dispatch s = .next { s with
      ram := framePushed s s.pc (pImage s.p 0)
      sp := s.sp - 3
      p := { s.p with i := true }
      pc := vectorAt s.cart 0xFFFE
      remainingCycles := 7 }) ∧
    (s.nmiPending = false → (s.irqLine = true → s.p.i = true) →
      (∀ i t, fetch { s with remainingCycles := 0 } = .ok i t → ∃ u, dispatch s = .next u ∧ RunsFrom s i t u) ∧
      (∀ k, fetch { s with remainingCycles := 0 } = .trap k → dispatch s = .next { s with fault := some k }))

/-- R242, R243, R386, R392, R244: a return undoes its call: RTS after JSR resumes past the JSR, RTI after an interrupt entry
resumes at the pushed address with the flags as they were; S is as it was, and so is all of RAM outside the pushed bytes. -/
def Obligations.ReturnsUndoCallsAndEntries : Prop :=
  (∀ (a : Word) (s : State), ∃ t u, exec (.jsr a) s = .next t ∧ exec .rts t = .next u ∧
    u.pc = s.pc + 3 ∧ u.sp = s.sp ∧ u.p = s.p ∧ u.a = s.a ∧ u.x = s.x ∧ u.y = s.y ∧
    ∀ k, k ≠ stackCell s.sp → k ≠ stackCell (s.sp - 1) → u.ramAt k = s.ramAt k) ∧
  (∀ (v ret : Word) (s : State), (v = 0xFFFA ∨ v = 0xFFFE) → s.cart.wf = true →
    ∃ t u, interruptEntry v ret false s = .ok () t ∧ exec .rti t = .next u ∧
      u.pc = ret ∧ u.sp = s.sp ∧ u.p = s.p ∧ u.a = s.a ∧ u.x = s.x ∧ u.y = s.y ∧
      ∀ k, k ≠ stackCell s.sp → k ≠ stackCell (s.sp - 1) → k ≠ stackCell (s.sp - 2) → u.ramAt k = s.ramAt k)

/-- R431, R91, R127, R381: the fetch reads the CPU bus byte by byte, wherever PC is. When the bytes at PC, read from RAM or
PRG, decode to an instruction `i`, an undisturbed dispatch is `exec i`: the state `exec` answers, or, if that trapped, the
state of the boundary with `fault` set. A step is that dispatch, at the level the interrupt line then has (log 6): inside a
tick alone; between ticks (log 3) the rest of the wait passes before it and the PPU's share of its cycle follows it. -/
def Obligations.StepRunsTheDecodedInstruction : Prop :=
  ∀ s : State, FetchRule s ∧ ∀ (i : Instr) (bs : List Byte), decode bs = .ok (i, []) → CodeAt s s.pc bs →
    (Undisturbed s → ∃ u, dispatch s = .next u ∧ RunsFrom s i { s with remainingCycles := 0 } u) ∧
    (∀ n b : Nat, s.turn = .inTick n b → s.remainingCycles ≤ b →
      let s' : State := { s with
        turn := .inTick n (b - s.remainingCycles).toNat
        irqLine := s.irqLevels.headD s.irqLine, irqLevels := s.irqLevels.tail }
      Undisturbed s' → ∃ u, step s = .next u ∧ RunsFrom s' i { s' with remainingCycles := 0 } u) ∧
    (s.turn = .between → s.hostMoves = [] → s.rom = .ready → s.ppu.dot + 3 * (s.remainingCycles - 1).toNat < 341 →
      let s' : State := { s with
        ppu := { s.ppu with dot := s.ppu.dot + 3 * (s.remainingCycles - 1).toNat }, remainingCycles := 1
        irqLine := s.irqLevels.headD s.irqLine, irqLevels := s.irqLevels.tail }
      Undisturbed s' → ∃ u, step s = .next (ppuTick 3 u) ∧ RunsFrom s' i { s' with remainingCycles := 0 } u)

/-- R381, R391: a dispatch always answers a next state; if it traps, that state is the one at the boundary with `fault`
set, and nothing else. -/
def Obligations.TrapsRollBack : Prop :=
  ∀ s : State, ∃ t, dispatch s = .next t ∧ ∀ k, s.fault = none → t.fault = some k → t = { s with fault := some k }

/-- R32, R381: while `fault` is set neither the CPU nor the PPU moves, a tick under way ends without the PPU's share, and only
a reset by the host clears it. That the machine answers a fault when the host has no move queued is log 7. -/
def Obligations.FaultIsAbsorbing : Prop :=
  ∀ (s : State) (k : TrapKind), s.fault = some k →
    dispatch s = .next s ∧ (∀ n, ppuTick n s = s) ∧
    (∀ n b, s.turn = .inTick n b → step s = .next { s with turn := .between }) ∧
    (s.turn = .between → s.hostMoves = [] → s.rom = .ready → step s = .fault (.trapped k)) ∧
    (∀ t, step s = .next t → t.fault ≠ some k → s.turn = .between ∧ ∃ ms, s.hostMoves = .reset :: ms)

/-- R26: no instruction but those the table of R26 names writes a flag. -/
def Obligations.OnlyNamedInstructionsWriteFlags : Prop :=
  ∀ (i : Instr) (s t : State), i.wf = true → exec i s = .next t →
    (t.p.c ≠ s.p.c → i.mnemonic ∈ [.adc, .sbc, .usbc, .rra, .isb, .cmp, .cpx, .cpy, .dcp, .asl, .lsr, .rol, .ror, .slo, .rla,
      .sre, .alr, .anc, .clc, .sec, .plp, .rti]) ∧
    (t.p.z ≠ s.p.z → i.mnemonic ∈ [.lda, .ldx, .ldy, .lax, .tax, .tay, .txa, .tya, .tsx, .inx, .iny, .dex, .dey, .inc, .dec,
      .adc, .sbc, .usbc, .and, .ora, .eor, .asl, .lsr, .rol, .ror, .cmp, .cpx, .cpy, .bit, .pla, .dcp, .isb, .slo, .rla, .sre,
      .rra, .anc, .alr, .plp, .rti]) ∧
    (t.p.i ≠ s.p.i → i.mnemonic ∈ [.sei, .cli, .brk, .plp, .rti]) ∧
    (t.p.d ≠ s.p.d → i.mnemonic ∈ [.sed, .cld, .plp, .rti]) ∧
    (t.p.v ≠ s.p.v → i.mnemonic ∈ [.adc, .sbc, .usbc, .rra, .isb, .bit, .clv, .plp, .rti]) ∧
    (t.p.n ≠ s.p.n → i.mnemonic ∈ [.lda, .ldx, .ldy, .lax, .tax, .tay, .txa, .tya, .tsx, .inx, .iny, .dex, .dey, .inc, .dec,
      .adc, .sbc, .usbc, .and, .ora, .eor, .asl, .lsr, .rol, .ror, .cmp, .cpx, .cpy, .bit, .pla, .dcp, .isb, .slo, .rla, .sre,
      .rra, .anc, .alr, .plp, .rti])

/-- R20, R21, R35, R391: which instructions may write A, X, Y and S, in any operand form; no instruction writes ROM, the
parameters, the interrupt line or the host's queue. -/
def Obligations.OnlyNamedInstructionsWriteRegisters : Prop :=
  ∀ (i : Instr) (s t : State), i.wf = true → exec i s = .next t →
    (t.a ≠ s.a → i.mnemonic ∈ [.lda, .txa, .tya, .adc, .sbc, .and, .ora, .eor, .pla, .lax, .usbc, .isb, .slo, .rla, .sre, .rra,
      .anc, .alr] ∨ i ∈ [.asl .acc, .lsr .acc, .rol .acc, .ror .acc]) ∧
    (t.x ≠ s.x → i.mnemonic ∈ [.ldx, .tax, .tsx, .inx, .dex, .lax]) ∧
    (t.y ≠ s.y → i.mnemonic ∈ [.ldy, .tay, .iny, .dey]) ∧
    (t.sp ≠ s.sp → i.mnemonic ∈ [.txs, .pha, .php, .pla, .plp, .jsr, .rts, .rti, .brk]) ∧
    t.cart.prg = s.cart.prg ∧ t.cart.chr = s.cart.chr ∧ t.config = s.config ∧ t.irqLine = s.irqLine ∧
    t.irqLevels = s.irqLevels ∧ t.rom = s.rom ∧ t.turn = s.turn ∧ t.hostMoves = s.hostMoves

/-- R23, R432 (MAGNES property 1): an instruction that completes and is no jump, branch, return, BRK or JAM leaves PC past
its bytes, and leaves as cost the base cost of its row, the page-cross cycle of a read instruction, and the cycles of an OAM
DMA if it wrote 0x4014. -/
def Obligations.PcAdvancesAndCostIsTheRows : Prop :=
  ∀ (i : Instr) (s t : State), i.wf = true → s.fault = none → exec i s = .next t → t.fault = none →
    i.mnemonic ∉ [.jmp, .jsr, .rts, .rti, .brk, .jam, .bcc, .bcs, .beq, .bne, .bmi, .bpl, .bvc, .bvs] →
    t.pc = s.pc + BitVec.ofNat 16 i.len ∧
    t.remainingCycles = s.remainingCycles + (rowCost i +
      (if i.opcode ∈ crossPenalty then crossCost i.operand s else 0) +
      (if i.storing = true ∧ (resolve i.operand s).addr = some 0x4014 then s.config.dmaCycles.toNat else 0) : Nat)

/-! The PPU. -/

/-- R337, R338, R339: the background of a line: the mask, and with sprites off the picture, at every column: the universal
colour where the background is hidden or transparent, otherwise the colour of the tile and attribute bytes. -/
def Obligations.BackgroundLine : Prop :=
  ∀ (c : Cart) (p : Ppu) (x y : Nat), x < 256 → y < 240 →
    let wx := x + p.scrollX.toNat
    let wy := y + p.scrollY.toNat
    let ntx := (p.ctrl.toNat % 2 + wx / 256) % 2
    let nty := (p.ctrl.toNat / 2 % 2 + wy / 240) % 2
    let base := 0x2000 + 0x400 * (2 * nty + ntx)
    let col := wx % 256 / 8
    let row := wy % 240 / 8
    let tile := ppuRd c p (base + row * 32 + col)
    let ab := ppuRd c p (base + 0x3C0 + row / 4 * 8 + col / 4)
    let pal := ab.toNat / 2 ^ (4 * (row / 2 % 2) + 2 * (col / 2 % 2)) % 4
    let pa := p.ctrl.toNat / 16 % 2 * 0x1000 + tile.toNat * 16 + wy % 240 % 8
    let bit := 7 - wx % 256 % 8
    let ci := 2 * ((ppuRd c p (pa + 8)).toNat / 2 ^ bit % 2) + (ppuRd c p pa).toNat / 2 ^ bit % 2
    let t := renderLine c p y
    (bgShown p x → (t.maskRow y)[x]? = some (BitVec.ofNat 2 ci)) ∧
    (¬ bgShown p x → (t.maskRow y)[x]? = some 0) ∧
    (p.mask.toNat / 16 % 2 = 0 → bgShown p x → ci ≠ 0 → (t.row y)[x]? = some (.colour ((p.palette.read (pal * 4 + ci)).setWidth 6))) ∧
    (p.mask.toNat / 16 % 2 = 0 → (¬ bgShown p x ∨ ci = 0) → (t.row y)[x]? = some (.colour ((p.palette.read 0).setWidth 6)))

/-- R340 to R345: at every column of a line the sprite of the lowest index that puts an opaque, unsuppressed pixel there wins,
the OAM bytes, the pattern and the colour of a sprite's pixel in numbers; where none does, the line is what it is with sprites
off. -/
def Obligations.EarlierSpriteWins : Prop :=
  ∀ (c : Cart) (p : Ppu) (x y : Nat), x < 256 → y < 240 → p.mask.toNat / 16 % 2 = 1 →
    (∀ i e, i < 64 → spriteEntry c p y x i = some e → (∀ j, j < i → spriteEntry c p y x j = none) →
      ((renderLine c p y).row y)[x]? = some (.colour (e.setWidth 6))) ∧
    ((∀ j, j < 64 → spriteEntry c p y x j = none) →
      ((renderLine c p y).row y)[x]? = ((renderLine c { p with mask := p.mask &&& 0xEF } y).row y)[x]?)

/-- R346, R340, R343, R342: sprite-0 hit is set on a line exactly if sprites are enabled, sprite 0 lies on it and has an opaque
pixel on screen; the background is not looked at; once set it stays. -/
def Obligations.SpriteZeroHit : Prop :=
  ∀ (c : Cart) (p : Ppu) (y : Nat),
    let sy := (p.oam.read 0).toNat
    let tile := (p.oam.read 1).toNat
    let attr := (p.oam.read 2).toNat
    let sx := (p.oam.read 3).toNat
    let tall := p.ctrl.toNat / 32 % 2 = 1
    let h := if tall then 16 else 8
    let r := y - (sy + 1)
    let fr := if attr / 128 = 1 then h - 1 - r else r
    let pa := if tall then tile % 2 * 0x1000 + (tile / 2 * 2 + fr / 8) * 16 + fr % 8
      else p.ctrl.toNat / 8 % 2 * 0x1000 + tile * 16 + fr
    ((renderLine c p y).spr0hit = true ↔ p.spr0hit = true ∨
      (p.mask.toNat / 16 % 2 = 1 ∧ sy < 0xEF ∧ sy + 1 ≤ y ∧ y < sy + 1 + h ∧
        ∃ k, k < 8 ∧ sx + k ≤ 255 ∧
          (ppuRd c p pa ||| ppuRd c p (pa + 8)).getLsbD (if attr / 64 % 2 = 1 then k else 7 - k) = true))

/-- R349: rendering a line changes nothing but `spr0hit` and that line's row of the framebuffer and of the mask; every row it
leaves has 256 columns. -/
def Obligations.RenderingFrame : Prop :=
  ∀ (c : Cart) (p : Ppu) (y : Nat),
    let t := renderLine c p y
    t = { p with framebuffer := t.framebuffer, bgmask := t.bgmask, spr0hit := t.spr0hit } ∧
    (∀ z, z ≠ y → t.row z = p.row z ∧ t.maskRow z = p.maskRow z) ∧
    (t.row y).length = 256 ∧ (t.maskRow y).length = 256

/-- R331, R332, R334, R335, R336: what entering each scanline does; NMI enable is bit 7 of PPUCTRL (R37, decision D19; log 19). -/
def Obligations.ScanlineSchedule : Prop :=
  ∀ (s : State) (y : Nat),
    (y ≤ 239 → enterScanline s y = { s with ppu := renderLine s.cart s.ppu y }) ∧
    (y = 241 → enterScanline s y = { s with
      ppu := { s.ppu with vblank := true }
      nmiPending := if 128 ≤ s.ppu.ctrl.toNat then true else s.nmiPending }) ∧
    (y = 261 → enterScanline s y = { s with ppu := { s.ppu with vblank := false, spr0hit := false } }) ∧
    (y = 240 ∨ (242 ≤ y ∧ y ≤ 260) → enterScanline s y = s)

/-- R330 (MAGNES property 2): the position in the frame advances by exactly the dots ticked modulo 89342, both counters stay
in range, ticking in two parts is ticking at once; and the dots within a line only count, while the one after dot 340 enters
the next scanline. -/
def Obligations.PpuTickCountsDots : Prop :=
  ∀ (s : State) (m n : Nat), s.fault = none → s.ppu.scanline < 262 → s.ppu.dot < 341 →
    (ppuTick m s).ppu.clock = (s.ppu.clock + m) % 89342 ∧
    (ppuTick m s).ppu.scanline < 262 ∧ (ppuTick m s).ppu.dot < 341 ∧
    ppuTick n (ppuTick m s) = ppuTick (m + n) s ∧
    (s.ppu.dot + m < 341 → ppuTick m s = { s with ppu := { s.ppu with dot := s.ppu.dot + m } }) ∧
    (s.ppu.dot = 340 →
      let y := (s.ppu.scanline + 1) % 262
      ppuTick 1 s = enterScanline { s with ppu := { s.ppu with scanline := y, dot := 0 } } y)

/-- R334, R335, R348: from the start of a frame with `vblank` clear, `vblank` is 1 exactly from dot 82181 to the entry of
scanline 261, and an NMI is requested from then on exactly if `nmi_en` is 1. -/
def Obligations.VblankSchedule : Prop :=
  ∀ (s : State) (n : Nat), s.fault = none → s.ppu.scanline = 0 → s.ppu.dot = 0 → s.ppu.vblank = false →
    n < 82181 + 89342 →
    ((ppuTick n s).ppu.vblank = true ↔ 82181 ≤ n ∧ n < 89001) ∧
    ((ppuTick n s).nmiPending = true ↔ s.nmiPending = true ∨ (82181 ≤ n ∧ 128 ≤ s.ppu.ctrl.toNat))

/-! The host. -/

/-- R430, R436, R440: `Tick(n)`: the CPU dispatches as long as the wait fits in what is left of n cycles, the wait then left
is reduced, and only then the PPU runs 3n dots; a trap in the CPU's share leaves the PPU's share out. (One step per dispatch
is log 4; the levels of the interrupt line at the dispatches log 6; what a step is with no move queued log 3.) -/
def Obligations.TickRunsTheCpuThenThePpu : Prop :=
  ∀ (s : State) (n b : Nat) (ms : List HostMove),
    (s.turn = .between → s.hostMoves = .tick n :: ms → s.rom = .ready →
      step s = .next { s with turn := .inTick n n, hostMoves := ms }) ∧
    (s.turn = .inTick n b → s.fault = none → s.remainingCycles ≤ b →
      step s = dispatch { s with
        turn := .inTick n (b - s.remainingCycles).toNat
        irqLine := s.irqLevels.headD s.irqLine, irqLevels := s.irqLevels.tail }) ∧
    (s.turn = .inTick n b → s.fault = none → b < s.remainingCycles →
      step s = .next (ppuTick (3 * n) { s with turn := .between, remainingCycles := s.remainingCycles - b })) ∧
    (∀ k, s.turn = .inTick n b → s.fault = some k → step s = .next { s with turn := .between }) ∧
    (s.turn = .between → s.hostMoves = [] → s.rom = .ready → s.fault = none →
      ∃ t, dispatch { ppuTick (3 * (s.remainingCycles - 1).toNat) s with
        remainingCycles := 1, irqLine := s.irqLevels.headD s.irqLine, irqLevels := s.irqLevels.tail } = .next t ∧
        step s = .next (ppuTick 3 t))

/-- R421, R51, R393, R420: a reset by the host, from any state with an image loaded, the fault state included: what it sets,
and what it leaves. Without an image it is refused (log 14 names the refusal). -/
def Obligations.ResetEstablishesItsState : Prop :=
  ∀ (s : State) (ms : List HostMove), s.turn = .between → s.hostMoves = .reset :: ms →
    (s.rom ≠ .absent → s.cart.wf = true → step s = .next { s with
      a := 0x00, x := 0x00, y := 0x00, sp := 0xFD
      pc := vectorAt s.cart 0xFFFC
      p := { c := false, z := false, i := true, d := false, v := false, n := false }
      remainingCycles := 7
      nmiPending := false
      fault := none
      ram := []
      cart := { s.cart with bankSelect := 0 }
      ppu := { ctrl := 0x00, mask := 0x00, vblank := false, spr0hit := false, oamAddr := 0x00, scrollX := 0x00,
               scrollY := 0x00, scrollLatch := false, vramAddr := 0x0000, addrLatch := false, readBuffer := 0x00,
               vram := [], palette := [], oam := [], scanline := 0, dot := 0, framebuffer := [], bgmask := [] }
      joy1 := { buttons := s.joy1.buttons, index := 0x00, strobe := false }
      joy2 := { buttons := s.joy2.buttons, index := 0x00, strobe := false }
      rom := .ready
      hostMoves := ms }) ∧
    (s.rom = .absent → step s = .refused .noCartridge)

/-- R6, R7: an image of any length, one shorter than a header included, is refused exactly under the conditions of R7; an
accepted one gives the mapper, the bank counts, the mirroring and every byte of PRG and CHR that R6 says. -/
def Obligations.RomImages : Prop :=
  ∀ rom : List Byte,
    let b := fun k => (rom.getD k 0x00).toNat
    let mapper := b 7 / 16 * 16 + b 6 / 16
    let start := 16 + if b 6 / 4 % 2 = 1 then 512 else 0
    let good := b 0 = 0x4E ∧ b 1 = 0x45 ∧ b 2 = 0x53 ∧ b 3 = 0x1A ∧ b 7 / 4 % 4 = 0 ∧ (mapper = 0 ∨ mapper = 2) ∧
      b 4 ≠ 0 ∧ (mapper = 0 → b 4 ≤ 2 ∧ b 5 ≠ 0) ∧ b 6 / 8 % 2 = 0 ∧ start + b 4 * 16384 + b 5 * 8192 ≤ rom.length
    (¬ good → ∃ e, Cart.ofRom rom = .error e) ∧ (good → 16 ≤ rom.length) ∧
    (good → ∃ c, Cart.ofRom rom = .ok c ∧ c.wf = true ∧
      (c.mapper = .nrom ↔ mapper = 0) ∧ c.prgBanks = b 4 ∧ c.chrBanks = b 5 ∧
      (c.mirroring = .vertical ↔ b 6 % 2 = 1) ∧ c.chrRam = [] ∧ c.bankSelect = 0 ∧
      (∀ k, k < b 4 * 16384 → c.prg.read k = rom.getD (start + k) 0x00) ∧
      (∀ k, k < b 5 * 8192 → c.chr.read k = rom.getD (start + b 4 * 16384 + k) 0x00))

/-- R422, R7, R420, R368, R440, R31: the host's other moves between ticks. `LoadRom` replaces the cartridge and asks for a
reset, or, of an image that R7 refuses, leaves the core unable to run (log 15 says what stays); a tick, queued or not, is
refused until an image is loaded and reset (log 14 names the refusals); a key sets or clears its bit of joypad 1, A, B,
Select, Start, Up, Down, Left, Right from bit 0 on; the picture is read without effect; the interrupt line takes a level
(log 6). -/
def Obligations.HostMovesBetweenTicks : Prop :=
  ∀ (s : State) (m : HostMove) (ms : List HostMove), s.turn = .between → s.hostMoves = m :: ms →
    (∀ rom c, m = .loadRom rom → Cart.ofRom rom = .ok c →
      step s = .next { s with cart := c, rom := .loaded, hostMoves := ms }) ∧
    (∀ rom e, m = .loadRom rom → Cart.ofRom rom = .error e → step s = .next { s with rom := .absent, hostMoves := ms }) ∧
    (∀ n, m = .tick n → (s.rom = .absent → step s = .refused .noCartridge) ∧ (s.rom = .loaded → step s = .refused .notReset)) ∧
    (s.rom = .absent → step { s with hostMoves := [] } = .refused .noCartridge) ∧
    (s.rom = .loaded → step { s with hostMoves := [] } = .refused .notReset) ∧
    (let order : List Button := [.a, .b, .select, .start, .up, .down, .left, .right]
      ∀ key n, order[n]? = some key →
        (m = .keydown key → ∃ t, step s = .next t ∧
          t = { s with joy1 := { s.joy1 with buttons := t.joy1.buttons }, hostMoves := ms } ∧
          ∀ k, k < 8 → t.joy1.buttons.getLsbD k = if k = n then true else s.joy1.buttons.getLsbD k) ∧
        (m = .keyup key → ∃ t, step s = .next t ∧
          t = { s with joy1 := { s.joy1 with buttons := t.joy1.buttons }, hostMoves := ms } ∧
          ∀ k, k < 8 → t.joy1.buttons.getLsbD k = if k = n then false else s.joy1.buttons.getLsbD k)) ∧
    (m = .readPicture → step s = .next { s with hostMoves := ms }) ∧
    (∀ level, m = .irq level → step s = .next { s with irqLine := level, hostMoves := ms })

/-! The invariant. -/

/-- R51: the state after reset, with the cartridge of log 1, meets the invariant. -/
def Obligations.InvariantHoldsAtReset : Prop := State.reset.Inv

/-- Every step from every state that meets the invariant, not only from states a run reaches, gives one that meets it:
memories within their sizes and in canonical form (R34, R44 to R46, R48), a legal cartridge (R6, R7), the counters of the PPU
in range (R47), the palette's mirrored cells never stored (R45), the joypad indices 0 to 8 (R366), a wait of at least one
cycle (R430). -/
def Obligations.EveryStepKeepsTheInvariant : Prop :=
  ∀ s t : State, s.Inv → step s = .next t → t.Inv
end

