-- ==== Sys2Proof/Laws/Decode.lean ====
section
/-!
SUPPORT. The opcode matrix as a table: every row is found under its own byte, and the search of the encoder finds a row of
the mnemonic and mode it looks for.
-/

namespace Sys2Proof

/-- The low and the high byte of a word make the word. -/
@[simp] theorem wordOf_loByte_hiByte (a : Word) : wordOf (loByte a) (hiByte a) = a := by
  unfold wordOf loByte hiByte
  apply BitVec.eq_of_toNat_eq
  have := a.isLt
  simp only [BitVec.toNat_append, BitVec.extractLsb'_toNat, Nat.shiftRight_eq_div_pow]
  rw [Nat.shiftLeft_eq, ← Nat.shiftLeft_eq, ← Nat.shiftLeft_add_eq_or_of_lt (Nat.mod_lt _ (by decide)), Nat.shiftLeft_eq]
  omega

@[simp] theorem loByte_wordOf (l h : Byte) : loByte (wordOf l h) = l := by
  unfold wordOf loByte
  apply BitVec.eq_of_toNat_eq
  have := l.isLt
  simp only [BitVec.toNat_append, BitVec.extractLsb'_toNat, Nat.shiftRight_zero]
  rw [← Nat.shiftLeft_add_eq_or_of_lt l.isLt, Nat.shiftLeft_eq]
  omega

@[simp] theorem hiByte_wordOf (l h : Byte) : hiByte (wordOf l h) = h := by
  unfold wordOf hiByte
  apply BitVec.eq_of_toNat_eq
  have := h.isLt
  simp only [BitVec.toNat_append, BitVec.extractLsb'_toNat, Nat.shiftRight_eq_div_pow]
  rw [← Nat.shiftLeft_add_eq_or_of_lt l.isLt, Nat.shiftLeft_eq]
  have := l.isLt
  omega

theorem wordOf_toNat (l h : Byte) : (wordOf l h).toNat = l.toNat + 256 * h.toNat := by
  unfold wordOf
  rw [BitVec.toNat_append, ← Nat.shiftLeft_add_eq_or_of_lt l.isLt, Nat.shiftLeft_eq]
  omega

/-- Every row of the matrix is found under its opcode byte. -/
theorem rowOf_of_mem : ∀ r ∈ opcodeMatrix, rowOf r.op = r := by
  have h : opcodeMatrix.all (fun r => decide (rowOf r.op = r)) = true := by decide +kernel
  simpa [List.all_eq_true] using h

/-- Every opcode byte has a row of the matrix, and that row carries the byte. -/
theorem rowOf_mem (op : Byte) : rowOf op ∈ opcodeMatrix ∧ (rowOf op).op = op := by
  have h : (List.range 256).all (fun k => opcodeMatrix.contains (rowOf (BitVec.ofNat 8 k)) &&
      decide ((rowOf (BitVec.ofNat 8 k)).op = BitVec.ofNat 8 k)) = true := by decide +kernel
  have := List.all_eq_true.1 h op.toNat (List.mem_range.2 op.isLt)
  simpa using this

/-- What the encoder's search finds is a row of the mnemonic and the mode. -/
theorem opcodeFor_row (mn : Mnemonic) (mode : Mode)
    (h : (opcodeMatrix.find? (fun r => decide (r.mn = mn) && decide (r.mode = mode))).isSome = true) :
    (rowOf (opcodeFor mn mode)).op = opcodeFor mn mode ∧ (rowOf (opcodeFor mn mode)).mn = mn ∧
      (rowOf (opcodeFor mn mode)).mode = mode := by
  obtain ⟨r, hr⟩ := Option.isSome_iff_exists.1 h
  have hop : opcodeFor mn mode = r.op := by simp [opcodeFor, hr]
  have hrow := rowOf_of_mem r (List.mem_of_find?_eq_some hr)
  have hp := List.find?_some hr
  simp only [Bool.and_eq_true, decide_eq_true_eq] at hp
  rw [hop, hrow]
  exact ⟨rfl, hp.1, hp.2⟩

end Sys2Proof
end

