-- ==== Sys2Proof/Laws/State.lean ====
section
/-!
SUPPORT. What each field holds after each named update of the state, so that no later proof unfolds a record update.
-/

namespace Sys2Proof.Machine

@[simp] theorem State.bill_a (s : State) (n : Nat) : (s.bill n).a = s.a := rfl
@[simp] theorem State.bill_x (s : State) (n : Nat) : (s.bill n).x = s.x := rfl
@[simp] theorem State.bill_y (s : State) (n : Nat) : (s.bill n).y = s.y := rfl
@[simp] theorem State.bill_sp (s : State) (n : Nat) : (s.bill n).sp = s.sp := rfl
@[simp] theorem State.bill_pc (s : State) (n : Nat) : (s.bill n).pc = s.pc := rfl
@[simp] theorem State.bill_p (s : State) (n : Nat) : (s.bill n).p = s.p := rfl
@[simp] theorem State.bill_remainingCycles (s : State) (n : Nat) : (s.bill n).remainingCycles = s.remainingCycles + n := rfl
@[simp] theorem State.bill_nmiPending (s : State) (n : Nat) : (s.bill n).nmiPending = s.nmiPending := rfl
@[simp] theorem State.bill_irqLine (s : State) (n : Nat) : (s.bill n).irqLine = s.irqLine := rfl
@[simp] theorem State.bill_irqLevels (s : State) (n : Nat) : (s.bill n).irqLevels = s.irqLevels := rfl
@[simp] theorem State.bill_fault (s : State) (n : Nat) : (s.bill n).fault = s.fault := rfl
@[simp] theorem State.bill_config (s : State) (n : Nat) : (s.bill n).config = s.config := rfl
@[simp] theorem State.bill_ram (s : State) (n : Nat) : (s.bill n).ram = s.ram := rfl
@[simp] theorem State.bill_cart (s : State) (n : Nat) : (s.bill n).cart = s.cart := rfl
@[simp] theorem State.bill_ppu (s : State) (n : Nat) : (s.bill n).ppu = s.ppu := rfl
@[simp] theorem State.bill_joy1 (s : State) (n : Nat) : (s.bill n).joy1 = s.joy1 := rfl
@[simp] theorem State.bill_joy2 (s : State) (n : Nat) : (s.bill n).joy2 = s.joy2 := rfl
@[simp] theorem State.bill_rom (s : State) (n : Nat) : (s.bill n).rom = s.rom := rfl
@[simp] theorem State.bill_turn (s : State) (n : Nat) : (s.bill n).turn = s.turn := rfl
@[simp] theorem State.bill_hostMoves (s : State) (n : Nat) : (s.bill n).hostMoves = s.hostMoves := rfl

@[simp] theorem State.retire_a (s : State) (n c : Nat) : (s.retire n c).a = s.a := rfl
@[simp] theorem State.retire_x (s : State) (n c : Nat) : (s.retire n c).x = s.x := rfl
@[simp] theorem State.retire_y (s : State) (n c : Nat) : (s.retire n c).y = s.y := rfl
@[simp] theorem State.retire_sp (s : State) (n c : Nat) : (s.retire n c).sp = s.sp := rfl
@[simp] theorem State.retire_pc (s : State) (n c : Nat) : (s.retire n c).pc = s.pc + BitVec.ofNat 16 n := rfl
@[simp] theorem State.retire_p (s : State) (n c : Nat) : (s.retire n c).p = s.p := rfl
@[simp] theorem State.retire_remainingCycles (s : State) (n c : Nat) : (s.retire n c).remainingCycles = s.remainingCycles + c := rfl
@[simp] theorem State.retire_nmiPending (s : State) (n c : Nat) : (s.retire n c).nmiPending = s.nmiPending := rfl
@[simp] theorem State.retire_irqLine (s : State) (n c : Nat) : (s.retire n c).irqLine = s.irqLine := rfl
@[simp] theorem State.retire_irqLevels (s : State) (n c : Nat) : (s.retire n c).irqLevels = s.irqLevels := rfl
@[simp] theorem State.retire_fault (s : State) (n c : Nat) : (s.retire n c).fault = s.fault := rfl
@[simp] theorem State.retire_config (s : State) (n c : Nat) : (s.retire n c).config = s.config := rfl
@[simp] theorem State.retire_ram (s : State) (n c : Nat) : (s.retire n c).ram = s.ram := rfl
@[simp] theorem State.retire_cart (s : State) (n c : Nat) : (s.retire n c).cart = s.cart := rfl
@[simp] theorem State.retire_ppu (s : State) (n c : Nat) : (s.retire n c).ppu = s.ppu := rfl
@[simp] theorem State.retire_joy1 (s : State) (n c : Nat) : (s.retire n c).joy1 = s.joy1 := rfl
@[simp] theorem State.retire_joy2 (s : State) (n c : Nat) : (s.retire n c).joy2 = s.joy2 := rfl
@[simp] theorem State.retire_rom (s : State) (n c : Nat) : (s.retire n c).rom = s.rom := rfl
@[simp] theorem State.retire_turn (s : State) (n c : Nat) : (s.retire n c).turn = s.turn := rfl
@[simp] theorem State.retire_hostMoves (s : State) (n c : Nat) : (s.retire n c).hostMoves = s.hostMoves := rfl

@[simp] theorem State.loadA_a (v : Byte) (s : State) : (s.loadA v).a = v := rfl
@[simp] theorem State.loadA_x (v : Byte) (s : State) : (s.loadA v).x = s.x := rfl
@[simp] theorem State.loadA_y (v : Byte) (s : State) : (s.loadA v).y = s.y := rfl
@[simp] theorem State.loadA_sp (v : Byte) (s : State) : (s.loadA v).sp = s.sp := rfl
@[simp] theorem State.loadA_pc (v : Byte) (s : State) : (s.loadA v).pc = s.pc := rfl
@[simp] theorem State.loadA_p (v : Byte) (s : State) : (s.loadA v).p = s.p.setNZ v := rfl
@[simp] theorem State.loadA_remainingCycles (v : Byte) (s : State) : (s.loadA v).remainingCycles = s.remainingCycles := rfl
@[simp] theorem State.loadA_nmiPending (v : Byte) (s : State) : (s.loadA v).nmiPending = s.nmiPending := rfl
@[simp] theorem State.loadA_irqLine (v : Byte) (s : State) : (s.loadA v).irqLine = s.irqLine := rfl
@[simp] theorem State.loadA_irqLevels (v : Byte) (s : State) : (s.loadA v).irqLevels = s.irqLevels := rfl
@[simp] theorem State.loadA_fault (v : Byte) (s : State) : (s.loadA v).fault = s.fault := rfl
@[simp] theorem State.loadA_config (v : Byte) (s : State) : (s.loadA v).config = s.config := rfl
@[simp] theorem State.loadA_ram (v : Byte) (s : State) : (s.loadA v).ram = s.ram := rfl
@[simp] theorem State.loadA_cart (v : Byte) (s : State) : (s.loadA v).cart = s.cart := rfl
@[simp] theorem State.loadA_ppu (v : Byte) (s : State) : (s.loadA v).ppu = s.ppu := rfl
@[simp] theorem State.loadA_joy1 (v : Byte) (s : State) : (s.loadA v).joy1 = s.joy1 := rfl
@[simp] theorem State.loadA_joy2 (v : Byte) (s : State) : (s.loadA v).joy2 = s.joy2 := rfl
@[simp] theorem State.loadA_rom (v : Byte) (s : State) : (s.loadA v).rom = s.rom := rfl
@[simp] theorem State.loadA_turn (v : Byte) (s : State) : (s.loadA v).turn = s.turn := rfl
@[simp] theorem State.loadA_hostMoves (v : Byte) (s : State) : (s.loadA v).hostMoves = s.hostMoves := rfl

@[simp] theorem State.loadX_a (v : Byte) (s : State) : (s.loadX v).a = s.a := rfl
@[simp] theorem State.loadX_x (v : Byte) (s : State) : (s.loadX v).x = v := rfl
@[simp] theorem State.loadX_y (v : Byte) (s : State) : (s.loadX v).y = s.y := rfl
@[simp] theorem State.loadX_sp (v : Byte) (s : State) : (s.loadX v).sp = s.sp := rfl
@[simp] theorem State.loadX_pc (v : Byte) (s : State) : (s.loadX v).pc = s.pc := rfl
@[simp] theorem State.loadX_p (v : Byte) (s : State) : (s.loadX v).p = s.p.setNZ v := rfl
@[simp] theorem State.loadX_remainingCycles (v : Byte) (s : State) : (s.loadX v).remainingCycles = s.remainingCycles := rfl
@[simp] theorem State.loadX_nmiPending (v : Byte) (s : State) : (s.loadX v).nmiPending = s.nmiPending := rfl
@[simp] theorem State.loadX_irqLine (v : Byte) (s : State) : (s.loadX v).irqLine = s.irqLine := rfl
@[simp] theorem State.loadX_irqLevels (v : Byte) (s : State) : (s.loadX v).irqLevels = s.irqLevels := rfl
@[simp] theorem State.loadX_fault (v : Byte) (s : State) : (s.loadX v).fault = s.fault := rfl
@[simp] theorem State.loadX_config (v : Byte) (s : State) : (s.loadX v).config = s.config := rfl
@[simp] theorem State.loadX_ram (v : Byte) (s : State) : (s.loadX v).ram = s.ram := rfl
@[simp] theorem State.loadX_cart (v : Byte) (s : State) : (s.loadX v).cart = s.cart := rfl
@[simp] theorem State.loadX_ppu (v : Byte) (s : State) : (s.loadX v).ppu = s.ppu := rfl
@[simp] theorem State.loadX_joy1 (v : Byte) (s : State) : (s.loadX v).joy1 = s.joy1 := rfl
@[simp] theorem State.loadX_joy2 (v : Byte) (s : State) : (s.loadX v).joy2 = s.joy2 := rfl
@[simp] theorem State.loadX_rom (v : Byte) (s : State) : (s.loadX v).rom = s.rom := rfl
@[simp] theorem State.loadX_turn (v : Byte) (s : State) : (s.loadX v).turn = s.turn := rfl
@[simp] theorem State.loadX_hostMoves (v : Byte) (s : State) : (s.loadX v).hostMoves = s.hostMoves := rfl

@[simp] theorem State.loadY_a (v : Byte) (s : State) : (s.loadY v).a = s.a := rfl
@[simp] theorem State.loadY_x (v : Byte) (s : State) : (s.loadY v).x = s.x := rfl
@[simp] theorem State.loadY_y (v : Byte) (s : State) : (s.loadY v).y = v := rfl
@[simp] theorem State.loadY_sp (v : Byte) (s : State) : (s.loadY v).sp = s.sp := rfl
@[simp] theorem State.loadY_pc (v : Byte) (s : State) : (s.loadY v).pc = s.pc := rfl
@[simp] theorem State.loadY_p (v : Byte) (s : State) : (s.loadY v).p = s.p.setNZ v := rfl
@[simp] theorem State.loadY_remainingCycles (v : Byte) (s : State) : (s.loadY v).remainingCycles = s.remainingCycles := rfl
@[simp] theorem State.loadY_nmiPending (v : Byte) (s : State) : (s.loadY v).nmiPending = s.nmiPending := rfl
@[simp] theorem State.loadY_irqLine (v : Byte) (s : State) : (s.loadY v).irqLine = s.irqLine := rfl
@[simp] theorem State.loadY_irqLevels (v : Byte) (s : State) : (s.loadY v).irqLevels = s.irqLevels := rfl
@[simp] theorem State.loadY_fault (v : Byte) (s : State) : (s.loadY v).fault = s.fault := rfl
@[simp] theorem State.loadY_config (v : Byte) (s : State) : (s.loadY v).config = s.config := rfl
@[simp] theorem State.loadY_ram (v : Byte) (s : State) : (s.loadY v).ram = s.ram := rfl
@[simp] theorem State.loadY_cart (v : Byte) (s : State) : (s.loadY v).cart = s.cart := rfl
@[simp] theorem State.loadY_ppu (v : Byte) (s : State) : (s.loadY v).ppu = s.ppu := rfl
@[simp] theorem State.loadY_joy1 (v : Byte) (s : State) : (s.loadY v).joy1 = s.joy1 := rfl
@[simp] theorem State.loadY_joy2 (v : Byte) (s : State) : (s.loadY v).joy2 = s.joy2 := rfl
@[simp] theorem State.loadY_rom (v : Byte) (s : State) : (s.loadY v).rom = s.rom := rfl
@[simp] theorem State.loadY_turn (v : Byte) (s : State) : (s.loadY v).turn = s.turn := rfl
@[simp] theorem State.loadY_hostMoves (v : Byte) (s : State) : (s.loadY v).hostMoves = s.hostMoves := rfl

@[simp] theorem State.testNZ_a (v : Byte) (s : State) : (s.testNZ v).a = s.a := rfl
@[simp] theorem State.testNZ_x (v : Byte) (s : State) : (s.testNZ v).x = s.x := rfl
@[simp] theorem State.testNZ_y (v : Byte) (s : State) : (s.testNZ v).y = s.y := rfl
@[simp] theorem State.testNZ_sp (v : Byte) (s : State) : (s.testNZ v).sp = s.sp := rfl
@[simp] theorem State.testNZ_pc (v : Byte) (s : State) : (s.testNZ v).pc = s.pc := rfl
@[simp] theorem State.testNZ_p (v : Byte) (s : State) : (s.testNZ v).p = s.p.setNZ v := rfl
@[simp] theorem State.testNZ_remainingCycles (v : Byte) (s : State) : (s.testNZ v).remainingCycles = s.remainingCycles := rfl
@[simp] theorem State.testNZ_nmiPending (v : Byte) (s : State) : (s.testNZ v).nmiPending = s.nmiPending := rfl
@[simp] theorem State.testNZ_irqLine (v : Byte) (s : State) : (s.testNZ v).irqLine = s.irqLine := rfl
@[simp] theorem State.testNZ_irqLevels (v : Byte) (s : State) : (s.testNZ v).irqLevels = s.irqLevels := rfl
@[simp] theorem State.testNZ_fault (v : Byte) (s : State) : (s.testNZ v).fault = s.fault := rfl
@[simp] theorem State.testNZ_config (v : Byte) (s : State) : (s.testNZ v).config = s.config := rfl
@[simp] theorem State.testNZ_ram (v : Byte) (s : State) : (s.testNZ v).ram = s.ram := rfl
@[simp] theorem State.testNZ_cart (v : Byte) (s : State) : (s.testNZ v).cart = s.cart := rfl
@[simp] theorem State.testNZ_ppu (v : Byte) (s : State) : (s.testNZ v).ppu = s.ppu := rfl
@[simp] theorem State.testNZ_joy1 (v : Byte) (s : State) : (s.testNZ v).joy1 = s.joy1 := rfl
@[simp] theorem State.testNZ_joy2 (v : Byte) (s : State) : (s.testNZ v).joy2 = s.joy2 := rfl
@[simp] theorem State.testNZ_rom (v : Byte) (s : State) : (s.testNZ v).rom = s.rom := rfl
@[simp] theorem State.testNZ_turn (v : Byte) (s : State) : (s.testNZ v).turn = s.turn := rfl
@[simp] theorem State.testNZ_hostMoves (v : Byte) (s : State) : (s.testNZ v).hostMoves = s.hostMoves := rfl

@[simp] theorem State.addA_a (m : Byte) (s : State) : (s.addA m).a = (adcCore s.a m s.p).1 := rfl
@[simp] theorem State.addA_x (m : Byte) (s : State) : (s.addA m).x = s.x := rfl
@[simp] theorem State.addA_y (m : Byte) (s : State) : (s.addA m).y = s.y := rfl
@[simp] theorem State.addA_sp (m : Byte) (s : State) : (s.addA m).sp = s.sp := rfl
@[simp] theorem State.addA_pc (m : Byte) (s : State) : (s.addA m).pc = s.pc := rfl
@[simp] theorem State.addA_p (m : Byte) (s : State) : (s.addA m).p = (adcCore s.a m s.p).2 := rfl
@[simp] theorem State.addA_remainingCycles (m : Byte) (s : State) : (s.addA m).remainingCycles = s.remainingCycles := rfl
@[simp] theorem State.addA_nmiPending (m : Byte) (s : State) : (s.addA m).nmiPending = s.nmiPending := rfl
@[simp] theorem State.addA_irqLine (m : Byte) (s : State) : (s.addA m).irqLine = s.irqLine := rfl
@[simp] theorem State.addA_irqLevels (m : Byte) (s : State) : (s.addA m).irqLevels = s.irqLevels := rfl
@[simp] theorem State.addA_fault (m : Byte) (s : State) : (s.addA m).fault = s.fault := rfl
@[simp] theorem State.addA_config (m : Byte) (s : State) : (s.addA m).config = s.config := rfl
@[simp] theorem State.addA_ram (m : Byte) (s : State) : (s.addA m).ram = s.ram := rfl
@[simp] theorem State.addA_cart (m : Byte) (s : State) : (s.addA m).cart = s.cart := rfl
@[simp] theorem State.addA_ppu (m : Byte) (s : State) : (s.addA m).ppu = s.ppu := rfl
@[simp] theorem State.addA_joy1 (m : Byte) (s : State) : (s.addA m).joy1 = s.joy1 := rfl
@[simp] theorem State.addA_joy2 (m : Byte) (s : State) : (s.addA m).joy2 = s.joy2 := rfl
@[simp] theorem State.addA_rom (m : Byte) (s : State) : (s.addA m).rom = s.rom := rfl
@[simp] theorem State.addA_turn (m : Byte) (s : State) : (s.addA m).turn = s.turn := rfl
@[simp] theorem State.addA_hostMoves (m : Byte) (s : State) : (s.addA m).hostMoves = s.hostMoves := rfl

@[simp] theorem State.subA_a (m : Byte) (s : State) : (s.subA m).a = (sbcCore s.a m s.p).1 := rfl
@[simp] theorem State.subA_x (m : Byte) (s : State) : (s.subA m).x = s.x := rfl
@[simp] theorem State.subA_y (m : Byte) (s : State) : (s.subA m).y = s.y := rfl
@[simp] theorem State.subA_sp (m : Byte) (s : State) : (s.subA m).sp = s.sp := rfl
@[simp] theorem State.subA_pc (m : Byte) (s : State) : (s.subA m).pc = s.pc := rfl
@[simp] theorem State.subA_p (m : Byte) (s : State) : (s.subA m).p = (sbcCore s.a m s.p).2 := rfl
@[simp] theorem State.subA_remainingCycles (m : Byte) (s : State) : (s.subA m).remainingCycles = s.remainingCycles := rfl
@[simp] theorem State.subA_nmiPending (m : Byte) (s : State) : (s.subA m).nmiPending = s.nmiPending := rfl
@[simp] theorem State.subA_irqLine (m : Byte) (s : State) : (s.subA m).irqLine = s.irqLine := rfl
@[simp] theorem State.subA_irqLevels (m : Byte) (s : State) : (s.subA m).irqLevels = s.irqLevels := rfl
@[simp] theorem State.subA_fault (m : Byte) (s : State) : (s.subA m).fault = s.fault := rfl
@[simp] theorem State.subA_config (m : Byte) (s : State) : (s.subA m).config = s.config := rfl
@[simp] theorem State.subA_ram (m : Byte) (s : State) : (s.subA m).ram = s.ram := rfl
@[simp] theorem State.subA_cart (m : Byte) (s : State) : (s.subA m).cart = s.cart := rfl
@[simp] theorem State.subA_ppu (m : Byte) (s : State) : (s.subA m).ppu = s.ppu := rfl
@[simp] theorem State.subA_joy1 (m : Byte) (s : State) : (s.subA m).joy1 = s.joy1 := rfl
@[simp] theorem State.subA_joy2 (m : Byte) (s : State) : (s.subA m).joy2 = s.joy2 := rfl
@[simp] theorem State.subA_rom (m : Byte) (s : State) : (s.subA m).rom = s.rom := rfl
@[simp] theorem State.subA_turn (m : Byte) (s : State) : (s.subA m).turn = s.turn := rfl
@[simp] theorem State.subA_hostMoves (m : Byte) (s : State) : (s.subA m).hostMoves = s.hostMoves := rfl

@[simp] theorem State.compareWith_a (r m : Byte) (s : State) : (s.compareWith r m).a = s.a := rfl
@[simp] theorem State.compareWith_x (r m : Byte) (s : State) : (s.compareWith r m).x = s.x := rfl
@[simp] theorem State.compareWith_y (r m : Byte) (s : State) : (s.compareWith r m).y = s.y := rfl
@[simp] theorem State.compareWith_sp (r m : Byte) (s : State) : (s.compareWith r m).sp = s.sp := rfl
@[simp] theorem State.compareWith_pc (r m : Byte) (s : State) : (s.compareWith r m).pc = s.pc := rfl
@[simp] theorem State.compareWith_p (r m : Byte) (s : State) : (s.compareWith r m).p = s.p.compare r m := rfl
@[simp] theorem State.compareWith_remainingCycles (r m : Byte) (s : State) : (s.compareWith r m).remainingCycles = s.remainingCycles := rfl
@[simp] theorem State.compareWith_nmiPending (r m : Byte) (s : State) : (s.compareWith r m).nmiPending = s.nmiPending := rfl
@[simp] theorem State.compareWith_irqLine (r m : Byte) (s : State) : (s.compareWith r m).irqLine = s.irqLine := rfl
@[simp] theorem State.compareWith_irqLevels (r m : Byte) (s : State) : (s.compareWith r m).irqLevels = s.irqLevels := rfl
@[simp] theorem State.compareWith_fault (r m : Byte) (s : State) : (s.compareWith r m).fault = s.fault := rfl
@[simp] theorem State.compareWith_config (r m : Byte) (s : State) : (s.compareWith r m).config = s.config := rfl
@[simp] theorem State.compareWith_ram (r m : Byte) (s : State) : (s.compareWith r m).ram = s.ram := rfl
@[simp] theorem State.compareWith_cart (r m : Byte) (s : State) : (s.compareWith r m).cart = s.cart := rfl
@[simp] theorem State.compareWith_ppu (r m : Byte) (s : State) : (s.compareWith r m).ppu = s.ppu := rfl
@[simp] theorem State.compareWith_joy1 (r m : Byte) (s : State) : (s.compareWith r m).joy1 = s.joy1 := rfl
@[simp] theorem State.compareWith_joy2 (r m : Byte) (s : State) : (s.compareWith r m).joy2 = s.joy2 := rfl
@[simp] theorem State.compareWith_rom (r m : Byte) (s : State) : (s.compareWith r m).rom = s.rom := rfl
@[simp] theorem State.compareWith_turn (r m : Byte) (s : State) : (s.compareWith r m).turn = s.turn := rfl
@[simp] theorem State.compareWith_hostMoves (r m : Byte) (s : State) : (s.compareWith r m).hostMoves = s.hostMoves := rfl

@[simp] theorem acknowledge_a (s : State) : (acknowledge s).a = s.a := rfl
@[simp] theorem acknowledge_x (s : State) : (acknowledge s).x = s.x := rfl
@[simp] theorem acknowledge_y (s : State) : (acknowledge s).y = s.y := rfl
@[simp] theorem acknowledge_sp (s : State) : (acknowledge s).sp = s.sp := rfl
@[simp] theorem acknowledge_pc (s : State) : (acknowledge s).pc = s.pc := rfl
@[simp] theorem acknowledge_p (s : State) : (acknowledge s).p = s.p := rfl
@[simp] theorem acknowledge_remainingCycles (s : State) : (acknowledge s).remainingCycles = 0 := rfl
@[simp] theorem acknowledge_nmiPending (s : State) : (acknowledge s).nmiPending = false := rfl
@[simp] theorem acknowledge_irqLine (s : State) : (acknowledge s).irqLine = s.irqLine := rfl
@[simp] theorem acknowledge_irqLevels (s : State) : (acknowledge s).irqLevels = s.irqLevels := rfl
@[simp] theorem acknowledge_fault (s : State) : (acknowledge s).fault = s.fault := rfl
@[simp] theorem acknowledge_config (s : State) : (acknowledge s).config = s.config := rfl
@[simp] theorem acknowledge_ram (s : State) : (acknowledge s).ram = s.ram := rfl
@[simp] theorem acknowledge_cart (s : State) : (acknowledge s).cart = s.cart := rfl
@[simp] theorem acknowledge_ppu (s : State) : (acknowledge s).ppu = s.ppu := rfl
@[simp] theorem acknowledge_joy1 (s : State) : (acknowledge s).joy1 = s.joy1 := rfl
@[simp] theorem acknowledge_joy2 (s : State) : (acknowledge s).joy2 = s.joy2 := rfl
@[simp] theorem acknowledge_rom (s : State) : (acknowledge s).rom = s.rom := rfl
@[simp] theorem acknowledge_turn (s : State) : (acknowledge s).turn = s.turn := rfl
@[simp] theorem acknowledge_hostMoves (s : State) : (acknowledge s).hostMoves = s.hostMoves := rfl

@[simp] theorem sampleIrq_a (s : State) : (sampleIrq s).a = s.a := rfl
@[simp] theorem sampleIrq_x (s : State) : (sampleIrq s).x = s.x := rfl
@[simp] theorem sampleIrq_y (s : State) : (sampleIrq s).y = s.y := rfl
@[simp] theorem sampleIrq_sp (s : State) : (sampleIrq s).sp = s.sp := rfl
@[simp] theorem sampleIrq_pc (s : State) : (sampleIrq s).pc = s.pc := rfl
@[simp] theorem sampleIrq_p (s : State) : (sampleIrq s).p = s.p := rfl
@[simp] theorem sampleIrq_remainingCycles (s : State) : (sampleIrq s).remainingCycles = s.remainingCycles := rfl
@[simp] theorem sampleIrq_nmiPending (s : State) : (sampleIrq s).nmiPending = s.nmiPending := rfl
@[simp] theorem sampleIrq_irqLine (s : State) : (sampleIrq s).irqLine = s.irqLevels.headD s.irqLine := rfl
@[simp] theorem sampleIrq_irqLevels (s : State) : (sampleIrq s).irqLevels = s.irqLevels.tail := rfl
@[simp] theorem sampleIrq_fault (s : State) : (sampleIrq s).fault = s.fault := rfl
@[simp] theorem sampleIrq_config (s : State) : (sampleIrq s).config = s.config := rfl
@[simp] theorem sampleIrq_ram (s : State) : (sampleIrq s).ram = s.ram := rfl
@[simp] theorem sampleIrq_cart (s : State) : (sampleIrq s).cart = s.cart := rfl
@[simp] theorem sampleIrq_ppu (s : State) : (sampleIrq s).ppu = s.ppu := rfl
@[simp] theorem sampleIrq_joy1 (s : State) : (sampleIrq s).joy1 = s.joy1 := rfl
@[simp] theorem sampleIrq_joy2 (s : State) : (sampleIrq s).joy2 = s.joy2 := rfl
@[simp] theorem sampleIrq_rom (s : State) : (sampleIrq s).rom = s.rom := rfl
@[simp] theorem sampleIrq_turn (s : State) : (sampleIrq s).turn = s.turn := rfl
@[simp] theorem sampleIrq_hostMoves (s : State) : (sampleIrq s).hostMoves = s.hostMoves := rfl

@[simp] theorem ctrlWrite_a (v : Byte) (s : State) : (ctrlWrite v s).a = s.a := rfl
@[simp] theorem ctrlWrite_x (v : Byte) (s : State) : (ctrlWrite v s).x = s.x := rfl
@[simp] theorem ctrlWrite_y (v : Byte) (s : State) : (ctrlWrite v s).y = s.y := rfl
@[simp] theorem ctrlWrite_sp (v : Byte) (s : State) : (ctrlWrite v s).sp = s.sp := rfl
@[simp] theorem ctrlWrite_pc (v : Byte) (s : State) : (ctrlWrite v s).pc = s.pc := rfl
@[simp] theorem ctrlWrite_p (v : Byte) (s : State) : (ctrlWrite v s).p = s.p := rfl
@[simp] theorem ctrlWrite_remainingCycles (v : Byte) (s : State) : (ctrlWrite v s).remainingCycles = s.remainingCycles := rfl
@[simp] theorem ctrlWrite_nmiPending (v : Byte) (s : State) : (ctrlWrite v s).nmiPending = (s.nmiPending || s.ppu.ctrlWriteNmi s.config.nmiOnCtrlWrite v) := rfl
@[simp] theorem ctrlWrite_irqLine (v : Byte) (s : State) : (ctrlWrite v s).irqLine = s.irqLine := rfl
@[simp] theorem ctrlWrite_irqLevels (v : Byte) (s : State) : (ctrlWrite v s).irqLevels = s.irqLevels := rfl
@[simp] theorem ctrlWrite_fault (v : Byte) (s : State) : (ctrlWrite v s).fault = s.fault := rfl
@[simp] theorem ctrlWrite_config (v : Byte) (s : State) : (ctrlWrite v s).config = s.config := rfl
@[simp] theorem ctrlWrite_ram (v : Byte) (s : State) : (ctrlWrite v s).ram = s.ram := rfl
@[simp] theorem ctrlWrite_cart (v : Byte) (s : State) : (ctrlWrite v s).cart = s.cart := rfl
@[simp] theorem ctrlWrite_ppu (v : Byte) (s : State) : (ctrlWrite v s).ppu = { s.ppu with ctrl := v } := rfl
@[simp] theorem ctrlWrite_joy1 (v : Byte) (s : State) : (ctrlWrite v s).joy1 = s.joy1 := rfl
@[simp] theorem ctrlWrite_joy2 (v : Byte) (s : State) : (ctrlWrite v s).joy2 = s.joy2 := rfl
@[simp] theorem ctrlWrite_rom (v : Byte) (s : State) : (ctrlWrite v s).rom = s.rom := rfl
@[simp] theorem ctrlWrite_turn (v : Byte) (s : State) : (ctrlWrite v s).turn = s.turn := rfl
@[simp] theorem ctrlWrite_hostMoves (v : Byte) (s : State) : (ctrlWrite v s).hostMoves = s.hostMoves := rfl

@[simp] theorem Flags.setNZ_c (p : Flags) (v : Byte) : (p.setNZ v).c = p.c := rfl
@[simp] theorem Flags.setNZ_z (p : Flags) (v : Byte) : (p.setNZ v).z = decide (v = 0) := rfl
@[simp] theorem Flags.setNZ_i (p : Flags) (v : Byte) : (p.setNZ v).i = p.i := rfl
@[simp] theorem Flags.setNZ_d (p : Flags) (v : Byte) : (p.setNZ v).d = p.d := rfl
@[simp] theorem Flags.setNZ_v (p : Flags) (v : Byte) : (p.setNZ v).v = p.v := rfl
@[simp] theorem Flags.setNZ_n (p : Flags) (v : Byte) : (p.setNZ v).n = bit7 v := rfl

end Sys2Proof.Machine
end

