-- ==== Sys2Proof/Laws/Store.lean ====
section
/-!
SUPPORT. The laws of the sparse memory: a read after a write, and that every operation keeps the canonical form.
-/

namespace Sys2Proof.Machine

theorem Cells.read_cons {α : Type} (d : α) (c : Nat × α) (m : Cells α) (k : Nat) :
    Cells.read d (c :: m) k = if c.1 = k then c.2 else Cells.read d m k := rfl

theorem Cells.read_erase {α : Type} (d : α) (m : Cells α) (k k' : Nat) :
    Cells.read d (Cells.erase m k) k' = if k = k' then d else Cells.read d m k' := by
  induction m with
  | nil => simp [Cells.erase, Cells.read]
  | cons c m ih =>
    simp only [Cells.erase, List.filter_cons] at ih ⊢
    by_cases h : c.1 = k
    · simp only [h, ne_eq, not_true_eq_false, decide_false, Bool.false_eq_true, if_false, ih, Cells.read_cons]
      by_cases hk : k = k' <;> simp [hk]
    · simp only [ne_eq, h, not_false_eq_true, decide_true, if_true, Cells.read_cons, ih]
      by_cases hc : c.1 = k'
      · have : k ≠ k' := by omega
        simp [hc, this]
      · simp [hc]

theorem Cells.not_mem_erase {α : Type} (m : Cells α) (k : Nat) : ∀ c ∈ Cells.erase m k, c.1 ≠ k := by
  intro c h
  simpa [Cells.erase] using (List.mem_filter.1 h).2

theorem Cells.read_insert {α : Type} (d v : α) (m : Cells α) (k k' : Nat) (h : ∀ c ∈ m, c.1 ≠ k) :
    Cells.read d (Cells.insert k v m) k' = if k = k' then v else Cells.read d m k' := by
  induction m with
  | nil => simp [Cells.insert, Cells.read]
  | cons c m ih =>
    have hc : c.1 ≠ k := h c (by simp)
    have ih := ih fun c' h' => h c' (List.mem_cons_of_mem _ h')
    simp only [Cells.insert]
    split
    · simp [Cells.read_cons]
    · simp only [Cells.read_cons, ih]
      by_cases hk : k = k'
      · subst hk; simp [hc]
      · simp [hk]

/-- A read after a write: the value written at the key, everything else as before. -/
theorem Cells.read_write {α : Type} [DecidableEq α] (d : α) (m : Cells α) (k : Nat) (v : α) (k' : Nat) :
    Cells.read d (Cells.write d m k v) k' = if k = k' then v else Cells.read d m k' := by
  unfold Cells.write
  split
  · subst v; exact Cells.read_erase d m k k'
  · rw [Cells.read_insert _ _ _ _ _ (Cells.not_mem_erase m k), Cells.read_erase]
    by_cases hk : k = k' <;> simp [hk]

theorem Cells.wf_cons {α : Type} [DecidableEq α] (d : α) (c : Nat × α) (m : Cells α) :
    Cells.wf d (c :: m) = true ↔ c.2 ≠ d ∧ (∀ c' ∈ m, c.1 < c'.1) ∧ Cells.wf d m = true := by
  simp [Cells.wf, and_assoc]

theorem Cells.wf_erase {α : Type} [DecidableEq α] (d : α) (m : Cells α) (k : Nat) (h : Cells.wf d m = true) :
    Cells.wf d (Cells.erase m k) = true := by
  induction m with
  | nil => rfl
  | cons c m ih =>
    obtain ⟨h1, h2, h3⟩ := (Cells.wf_cons d c m).1 h
    have ih := ih h3
    simp only [Cells.erase, List.filter_cons] at ih ⊢
    split
    · exact (Cells.wf_cons d c _).2 ⟨h1, fun c' hm => h2 c' (List.mem_filter.1 hm).1, ih⟩
    · exact ih

theorem Cells.mem_insert {α : Type} (k : Nat) (v : α) (m : Cells α) (c : Nat × α) :
    c ∈ Cells.insert k v m ↔ c = (k, v) ∨ c ∈ m := by
  induction m with
  | nil => simp [Cells.insert]
  | cons c' m ih =>
    simp only [Cells.insert]
    split
    · simp
    · simp only [List.mem_cons, ih]; tauto

theorem Cells.wf_insert {α : Type} [DecidableEq α] (d v : α) (m : Cells α) (k : Nat) (hv : v ≠ d)
    (hk : ∀ c ∈ m, c.1 ≠ k) (h : Cells.wf d m = true) : Cells.wf d (Cells.insert k v m) = true := by
  induction m with
  | nil => simp [Cells.insert, Cells.wf, hv]
  | cons c m ih =>
    obtain ⟨h1, h2, h3⟩ := (Cells.wf_cons d c m).1 h
    have hc : c.1 ≠ k := hk c (by simp)
    have ih := ih (fun c' h' => hk c' (List.mem_cons_of_mem _ h')) h3
    simp only [Cells.insert]
    split
    · rename_i hlt
      refine (Cells.wf_cons d _ _).2 ⟨hv, fun c' hm => ?_, h⟩
      rcases List.mem_cons.1 hm with rfl | hm
      · exact hlt
      · exact lt_trans hlt (h2 c' hm)
    · rename_i hge
      refine (Cells.wf_cons d _ _).2 ⟨h1, fun c' hm => ?_, ih⟩
      rcases (Cells.mem_insert k v m c').1 hm with rfl | hm
      · show c.1 < k; omega
      · exact h2 c' hm

/-- A write keeps the canonical form. -/
theorem Cells.wf_write {α : Type} [DecidableEq α] (d : α) (m : Cells α) (k : Nat) (v : α) (h : Cells.wf d m = true) :
    Cells.wf d (Cells.write d m k v) = true := by
  unfold Cells.write
  split
  · exact Cells.wf_erase d m k h
  · exact Cells.wf_insert d v _ k ‹_› (Cells.not_mem_erase m k) (Cells.wf_erase d m k h)

theorem Cells.mem_write {α : Type} [DecidableEq α] (d : α) (m : Cells α) (k : Nat) (v : α) (c : Nat × α)
    (h : c ∈ Cells.write d m k v) : c = (k, v) ∨ c ∈ m := by
  unfold Cells.write at h
  split at h
  · exact .inr (List.mem_filter.1 h).1
  · rcases (Cells.mem_insert _ _ _ _).1 h with h | h
    · exact .inl h
    · exact .inr (List.mem_filter.1 h).1

/-- A write at a key in bounds keeps the memory in bounds. -/
theorem Cells.below_write {α : Type} [DecidableEq α] (d : α) (n : Nat) (m : Cells α) (k : Nat) (v : α) (hk : k < n)
    (h : Cells.below n m = true) : Cells.below n (Cells.write d m k v) = true := by
  simp only [Cells.below, List.all_eq_true, decide_eq_true_eq] at h ⊢
  intro c hc
  rcases Cells.mem_write d m k v c hc with rfl | hm
  · exact hk
  · exact h c hm

theorem Cells.read_mem {α : Type} (d : α) (m : Cells α) (k : Nat) :
    Cells.read d m k = d ∨ (k, Cells.read d m k) ∈ m := by
  induction m with
  | nil => exact .inl rfl
  | cons c m ih =>
    simp only [Cells.read_cons]
    split
    · rename_i h; subst h; exact .inr (by simp)
    · exact ih.imp id (List.mem_cons_of_mem _)

/-- The canonical form is canonical: two memories in it that read alike are one list. -/
theorem Cells.ext_of_wf {α : Type} [DecidableEq α] (d : α) (m m' : Cells α) (h : Cells.wf d m = true)
    (h' : Cells.wf d m' = true) (hr : ∀ k, Cells.read d m k = Cells.read d m' k) : m = m' := by
  induction m generalizing m' with
  | nil =>
    cases m' with
    | nil => rfl
    | cons c m' =>
      obtain ⟨h1, -, -⟩ := (Cells.wf_cons d c m').1 h'
      have := hr c.1
      simp only [Cells.read, if_true] at this
      exact absurd this.symm h1
  | cons c m ih =>
    obtain ⟨h1, h2, h3⟩ := (Cells.wf_cons d c m).1 h
    cases m' with
    | nil =>
      have := hr c.1
      simp only [Cells.read, if_true] at this
      exact absurd this h1
    | cons c' m' =>
      obtain ⟨h1', h2', h3'⟩ := (Cells.wf_cons d c' m').1 h'
      have hlow : ∀ (m : Cells α) (k : Nat), (∀ c ∈ m, k < c.1) → Cells.read d m k = d := by
        intro m k hm
        rcases Cells.read_mem d m k with h | h
        · exact h
        · exact absurd (hm _ h) (lt_irrefl _)
      have hk : c.1 = c'.1 := by
        rcases lt_trichotomy c.1 c'.1 with hlt | heq | hgt
        · have := hr c.1
          rw [Cells.read_cons, if_pos rfl, hlow (c' :: m') c.1 (by
            intro x hx
            rcases List.mem_cons.1 hx with rfl | hx
            · exact hlt
            · exact lt_trans hlt (h2' x hx))] at this
          exact absurd this h1
        · exact heq
        · have := hr c'.1
          rw [Cells.read_cons (c := c'), if_pos rfl, hlow (c :: m) c'.1 (by
            intro x hx
            rcases List.mem_cons.1 hx with rfl | hx
            · exact hgt
            · exact lt_trans hgt (h2 x hx))] at this
          exact absurd this.symm h1'
      have hv : c.2 = c'.2 := by
        have := hr c.1
        rwa [Cells.read_cons, if_pos rfl, Cells.read_cons, if_pos hk.symm] at this
      have hc : c = c' := Prod.ext hk hv
      subst hc
      rw [ih m' h3 h3' fun k => ?_]
      have := hr k
      simp only [Cells.read_cons] at this
      by_cases hck : c.1 = k
      · subst hck
        rw [hlow m _ h2, hlow m' _ h2']
      · simpa [hck] using this

@[simp] theorem Memory.read_nil (k : Nat) : Memory.read [] k = 0x00 := rfl

/-- A read after a write of a byte memory. -/
theorem Memory.read_write (m : Memory) (k : Nat) (v : Byte) (k' : Nat) :
    (m.write k v).read k' = if k = k' then v else m.read k' := Cells.read_write _ _ _ _ _

@[simp] theorem Memory.read_write_same (m : Memory) (k : Nat) (v : Byte) : (m.write k v).read k = v := by
  simp [Memory.read_write]

/-- Every write of a byte memory keeps its canonical form and its size. -/
theorem Memory.wf_write (size : Nat) (m : Memory) (k : Nat) (v : Byte) (hk : k < size) (h : m.wf size = true) :
    (m.write k v).wf size = true := by
  simp only [Memory.wf, Bool.and_eq_true] at h ⊢
  exact ⟨Cells.wf_write _ _ _ _ h.1, Cells.below_write _ _ _ _ _ hk h.2⟩

@[simp] theorem Memory.wf_nil (size : Nat) : Memory.wf size [] = true := rfl

theorem Memory.mem_ofBytes (k : Nat) (bs : List Byte) (c : Host.Cell) (h : c ∈ Memory.ofBytes k bs) :
    k ≤ c.1 ∧ c.1 < k + bs.length ∧ c.2 ≠ 0x00 := by
  induction bs generalizing k with
  | nil => simp [Memory.ofBytes] at h
  | cons b bs ih =>
    simp only [Memory.ofBytes] at h
    split at h
    · have := ih (k + 1) h
      simp only [List.length_cons]; exact ⟨by omega, by omega, this.2.2⟩
    · rcases List.mem_cons.1 h with rfl | h
      · exact ⟨le_refl _, by simp, ‹_›⟩
      · have := ih (k + 1) h
        simp only [List.length_cons]; exact ⟨by omega, by omega, this.2.2⟩

/-- A memory built from bytes is in canonical form and within its size. -/
theorem Memory.wf_ofBytes (k size : Nat) (bs : List Byte) (hs : k + bs.length ≤ size) :
    (Memory.ofBytes k bs).wf size = true := by
  have hwf : Cells.wf (0x00 : Byte) (Memory.ofBytes k bs) = true := by
    clear hs
    induction bs generalizing k with
    | nil => rfl
    | cons b bs ih =>
      simp only [Memory.ofBytes]
      split
      · exact ih (k + 1)
      · refine (Cells.wf_cons _ _ _).2 ⟨‹_›, fun c hc => ?_, ih (k + 1)⟩
        have := (Memory.mem_ofBytes _ _ _ hc).1
        show k < c.1
        omega
  simp only [Memory.wf, hwf, Bool.true_and, Cells.below, List.all_eq_true, decide_eq_true_eq]
  intro c hc
  have := (Memory.mem_ofBytes _ _ _ hc).2.1
  omega

end Sys2Proof.Machine
end

