-- ==== Sys2Proof/Laws/Bus.lean ====
section
/-!
SUPPORT. What each bus operation can do, said once: the router by ranges, the traps, the frame of a read, the frame of a
write, the stack, the vectors.
-/

namespace Sys2Proof.Machine

theorem Res.bind_ok {α β : Type} (v : α) (s : State) (f : α → State → Res β) : (Res.ok v s).bind f = f v s := rfl

theorem Res.bind_trap {α β : Type} (k : TrapKind) (f : α → State → Res β) : (Res.trap k : Res α).bind f = .trap k := rfl

/-- From a sequence that succeeds: its first part did, and the rest from there. -/
theorem Res.bind_eq_ok {α β : Type} {r : Res α} {f : α → State → Res β} {b : β} {u : State} (h : r.bind f = .ok b u) :
    ∃ v t, r = .ok v t ∧ f v t = .ok b u := by
  cases r with
  | ok v t => exact ⟨v, t, rfl, h⟩
  | trap k => cases h

theorem finish_ok (s t : State) (u : Unit) : finish s (.ok u t) = .next t := rfl

theorem finish_trap (s : State) (k : TrapKind) : finish s (.trap k) = .next { s with fault := some k } := rfl

/-- Every operation finished is a next state. -/
theorem finish_next (s : State) (r : Res Unit) : ∃ t, finish s r = .next t := by
  cases r <;> exact ⟨_, rfl⟩

/-- The register behind each address of the PPU window (R75). -/
theorem PpuReg.select_mod (n : Nat) : PpuReg.select (n % 8) = PpuReg.select n := by
  simp [PpuReg.select]

theorem rd_ram (a : Word) (s : State) (h : a.toNat < 0x2000) : rd a s = .ok (s.ramAt (a.toNat % 0x800)) s := by
  simp [rd, h]

theorem rd_ppu (a : Word) (s : State) (h1 : 0x2000 ≤ a.toNat) (h2 : a.toNat < 0x4000) :
    rd a s = ppuRegRead (.select a.toNat) s := by
  simp [rd, h2, Nat.not_lt.2 h1]

theorem rd_prg (a : Word) (s : State) (h : 0x8000 ≤ a.toNat) :
    (∀ v, s.cart.readPrg a.toNat = .ok v → rd a s = .ok v s) ∧
    (∀ k, s.cart.readPrg a.toNat = .error k → rd a s = .trap k) := by
  have h1 : ¬ a.toNat < 0x2000 := by omega
  have h2 : ¬ a.toNat < 0x4000 := by omega
  have h3 : a.toNat ≠ 0x4016 := by omega
  have h4 : a.toNat ≠ 0x4017 := by omega
  have h5 : ¬ a.toNat < 0x8000 := by omega
  constructor <;> intro x hx <;> simp only [rd, h1, h2, h3, h4, h5, if_false, hx]

theorem rd_unmapped (a : Word) (s : State) (h1 : 0x4000 ≤ a.toNat) (h2 : a.toNat < 0x8000) (h3 : a.toNat ≠ 0x4016)
    (h4 : a.toNat ≠ 0x4017) : rd a s = .ok s.config.unmappedRead s := by
  have h5 : ¬ a.toNat < 0x2000 := by omega
  have h6 : ¬ a.toNat < 0x4000 := by omega
  simp [rd, h2, h3, h4, h5, h6]

theorem wr_ram (a : Word) (v : Byte) (s : State) (h : a.toNat < 0x2000) :
    wr a v s = .ok () { s with ram := s.ram.write (a.toNat % 0x800) v } := by
  simp [wr, h]

theorem wr_ppu (a : Word) (v : Byte) (s : State) (h1 : 0x2000 ≤ a.toNat) (h2 : a.toNat < 0x4000) :
    wr a v s = ppuRegWrite (.select a.toNat) v s := by
  simp [wr, h2, Nat.not_lt.2 h1]

/-- A PRG read succeeds or traps out of range, exactly as R117 says. -/
theorem Cart.readPrg_error (c : Cart) (a : Nat) (k : TrapKind) :
    c.readPrg a = .error k ↔ c.mapper = .uxrom ∧ a < 0xC000 ∧ c.prgBanks ≤ c.bankSelect.toNat ∧ k = .cartridgeOutOfRange := by
  unfold Cart.readPrg Cart.prgIndex
  cases c.mapper with
  | nrom => simp only; split <;> simp [Except.map]
  | uxrom =>
    simp only
    split
    · split
      · simp only [Except.map, Except.error.injEq, true_and, *]; constructor <;> intro h <;> simp_all
      · simp [Except.map, *]
    · simp [Except.map, *]

/-- A read traps exactly where `readTrap` says. -/
theorem rd_trap_iff (a : Word) (s : State) (k : TrapKind) : rd a s = .trap k ↔ readTrap a s = some k := by
  unfold readTrap
  by_cases h1 : a.toNat < 0x2000
  · have : ¬ 0x2000 ≤ a.toNat := by omega
    have h3 : ¬ 0x8000 ≤ a.toNat := by omega
    simp [rd_ram a s h1, this, h3]
  by_cases h2 : a.toNat < 0x4000
  · rw [rd_ppu a s (by omega) h2, if_pos ⟨by omega, h2⟩]
    have h8 : a.toNat % 8 < 8 := Nat.mod_lt _ (by decide)
    unfold PpuReg.select
    generalize a.toNat % 8 = n at h8
    interval_cases n <;> simp [ppuRegRead]
  rw [if_neg (by omega)]
  by_cases h5 : 0x8000 ≤ a.toNat
  · cases hp : s.cart.readPrg a.toNat with
    | ok v =>
      rw [(rd_prg a s h5).1 v hp]
      have : ¬ (s.cart.mapper = .uxrom ∧ 0x8000 ≤ a.toNat ∧ a.toNat < 0xC000 ∧ s.cart.prgBanks ≤ s.cart.bankSelect.toNat) := by
        rintro ⟨h, -, h', h''⟩
        have := (Cart.readPrg_error s.cart a.toNat .cartridgeOutOfRange).2 ⟨h, h', h'', rfl⟩
        rw [hp] at this; cases this
      simp [this]
    | error k' =>
      rw [(rd_prg a s h5).2 k' hp]
      obtain ⟨ha, hb, hc, rfl⟩ := (Cart.readPrg_error _ _ _).1 hp
      simp [ha, hb, hc, h5]
  · have hn : ¬ (s.cart.mapper = .uxrom ∧ 0x8000 ≤ a.toNat ∧ a.toNat < 0xC000 ∧ s.cart.prgBanks ≤ s.cart.bankSelect.toNat) :=
      fun h => h5 h.2.1
    rw [if_neg hn]
    have h3 : a.toNat < 0x8000 := by omega
    unfold rd
    simp only [h1, h2, h3, if_false, if_true]
    split
    · simp
    · split <;> simp

theorem ReadFrame.refl (s : State) : ReadFrame s s := rfl

theorem Ppu.dataRead_frame (c : Cart) (p : Ppu) : (p.dataRead c).2 =
    { p with readBuffer := (p.dataRead c).2.readBuffer, vramAddr := (p.dataRead c).2.vramAddr } := by
  unfold Ppu.dataRead
  generalize p.vramAddr.toNat % 0x4000 = n
  by_cases h : n < 0x3F00
  · rw [if_pos h]; simp only [Ppu.incVramAddr]
  · rw [if_neg h]; simp only [Ppu.incVramAddr]

/-- A read changes nothing but what R98 lists. -/
theorem rd_frame {a : Word} {s t : State} {v : Byte} (h : rd a s = .ok v t) : ReadFrame s t := by
  unfold rd at h
  simp only at h
  split at h
  · cases h; exact .refl _
  split at h
  · unfold ppuRegRead at h
    split at h <;> cases h
    · rfl
    · exact .refl _
    · unfold ReadFrame
      rw [Ppu.dataRead_frame]
  split at h
  · cases h
    simp only [ReadFrame, Joypad.read]; split
    · rfl
    · split <;> rfl
  split at h
  · cases h
    simp only [ReadFrame, Joypad.read]; split
    · rfl
    · split <;> rfl
  split at h
  · cases h; exact .refl _
  split at h
  · cases h; exact .refl _
  · cases h

theorem ReadFrame.trans {s t u : State} (h1 : ReadFrame s t) (h2 : ReadFrame t u) : ReadFrame s u := by
  unfold ReadFrame at *
  rw [h1] at h2
  exact h2

/-- A read either succeeds or traps. -/
theorem rd_total (a : Word) (s : State) : (∃ v t, rd a s = .ok v t ∧ readTrap a s = none) ∨
    ∃ k, rd a s = .trap k ∧ readTrap a s = some k := by
  cases h : rd a s with
  | ok v t =>
    refine .inl ⟨v, t, rfl, ?_⟩
    cases h' : readTrap a s with
    | none => rfl
    | some k => rw [(rd_trap_iff a s k).2 h'] at h; cases h
  | trap k => exact .inr ⟨k, rfl, (rd_trap_iff a s k).1 h⟩

/-- What traps a read depends on the cartridge alone. -/
theorem readTrap_congr (a : Word) (s t : State) (h : t.cart = s.cart) : readTrap a t = readTrap a s := by
  unfold readTrap; rw [h]

theorem stackAddr_toNat (sp : Byte) : (stackAddr sp).toNat = 0x100 + sp.toNat := by
  rw [stackAddr, wordOf_toNat]
  have := sp.isLt
  simp; omega

theorem wr_stack (sp v : Byte) (s : State) :
    wr (stackAddr sp) v s = .ok () { s with ram := s.ram.write (0x100 + sp.toNat) v } := by
  have := sp.isLt
  rw [wr_ram _ _ _ (by rw [stackAddr_toNat]; omega), stackAddr_toNat, Nat.mod_eq_of_lt (by omega)]

theorem rd_stack (sp : Byte) (s : State) : rd (stackAddr sp) s = .ok (s.ram.read (0x100 + sp.toNat)) s := by
  have := sp.isLt
  rw [rd_ram _ _ (by rw [stackAddr_toNat]; omega), stackAddr_toNat, Nat.mod_eq_of_lt (by omega)]
  rfl

/-- A push is a write of RAM and a step of S; it never traps. -/
theorem push_def (v : Byte) (s : State) :
    push v s = .ok () { s with ram := s.ram.write (0x100 + s.sp.toNat) v, sp := s.sp - 1 } := by
  rw [push, wr_stack]; rfl

/-- A pull is a step of S and a read of RAM; it never traps. -/
theorem pull_def (s : State) : pull s = .ok (s.ram.read (0x100 + (s.sp + 1).toNat)) { s with sp := s.sp + 1 } := by
  rw [pull, rd_stack]

/-- The last bank is where the vectors are read from (R79), on every cartridge that can be loaded. -/
theorem readPrg_lastBank (c : Cart) (a : Nat) (hc : c.wf = true) (h1 : 0xC000 ≤ a) (h2 : a < 0x10000) :
    c.readPrg a = .ok (lastBankByte c a) := by
  have hi : c.prgIndex a = .ok ((c.prgBanks - 1) * 0x4000 + (a - 0xC000)) := by
    unfold Cart.wf at hc
    unfold Cart.prgIndex
    cases hm : c.mapper with
    | nrom =>
      simp only [hm, Bool.and_eq_true, decide_eq_true_eq] at hc
      by_cases h : c.prgBanks = 1
      · simp only [h, if_true, Except.ok.injEq]; omega
      · have h' : c.prgBanks = 2 := by omega
        simp only [h']
        rw [if_neg (by omega), Except.ok.injEq]; omega
    | uxrom => simp only [Nat.not_lt.2 h1, if_false]
  simp only [Cart.readPrg, hi, Except.map, lastBankByte]

/-- The two reads of a vector (R92, R79): they neither trap nor have a side effect. -/
theorem rd16_vector (v : Word) (s : State) (hc : s.cart.wf = true) (h1 : 0xC000 ≤ v.toNat) (h2 : v.toNat < 0xFFFF) :
    rd16 v s = .ok (vectorAt s.cart v.toNat) s := by
  have h3 : (v + 1).toNat = v.toNat + 1 := by
    rw [BitVec.toNat_add]; simp; omega
  unfold rd16
  rw [(rd_prg v s (by omega)).1 _ (readPrg_lastBank _ _ hc h1 (by omega)), Res.bind_ok,
    (rd_prg (v + 1) s (by omega)).1 _ (readPrg_lastBank _ _ hc (by omega) (by omega)), Res.bind_ok, h3]
  rfl

/-- A 16-bit push: the high byte, then the low byte below it. -/
theorem pushWord_def (w : Word) (s : State) : pushWord w s = .ok () { s with
    ram := (s.ram.write (stackCell s.sp) (hiByte w)).write (stackCell (s.sp - 1)) (loByte w), sp := s.sp - 2 } := by
  rw [pushWord, push_def, Res.bind_ok, push_def]
  simp only [stackCell]
  congr 2
  rw [BitVec.sub_sub]; rfl

/-- A 16-bit pull: the low byte, then the high byte above it. -/
theorem pullWord_def (s : State) :
    pullWord s = .ok (wordOf (s.ram.read (stackCell (s.sp + 1))) (s.ram.read (stackCell (s.sp + 2))))
      { s with sp := s.sp + 2 } := by
  rw [pullWord, pull_def, Res.bind_ok, pull_def, Res.bind_ok]
  have : s.sp + 1 + 1 = s.sp + 2 := by rw [BitVec.add_assoc]; rfl
  simp only [this, stackCell]

/-- The interrupt sequence, whole: it never traps on a cartridge that can be loaded. -/
theorem interruptEntry_def (v ret : Word) (b : Bool) (s : State) (hc : s.cart.wf = true) (h1 : 0xC000 ≤ v.toNat)
    (h2 : v.toNat < 0xFFFF) : interruptEntry v ret b s = .ok () { s with
      ram := framePushed s ret (s.p.pbyte b)
      sp := s.sp - 3
      p := { s.p with i := true }
      pc := vectorAt s.cart v.toNat
      remainingCycles := s.remainingCycles + 7 } := by
  have e : s.sp - 2 - 1 = s.sp - 3 := by rw [BitVec.sub_sub]; rfl
  rw [interruptEntry, pushWord_def, Res.bind_ok, push_def, Res.bind_ok, rd16_vector v _ ?_ h1 h2, Res.bind_ok]
  · simp only [State.bill, e, framePushed, stackCell]
    rfl
  · exact hc

end Sys2Proof.Machine
end

