-- ==== Sys2Proof/Laws/Dma.lean ====
section
/-!
SUPPORT. What the OAM-DMA engine can do (R361 to R363), and with it what a CPU write can do, said once.
-/

namespace Sys2Proof.Machine

/-- The byte that read `i` of a DMA from page `v` returns, in the state the DMA began in (R361, R363). -/
def dmaByte (v : Byte) (s : State) (i : Nat) : Byte :=
  if v.toNat < 0x20 then s.ram.read ((v.toNat * 256 + i) % 0x800)
  else if v = 0x40 then
    if i = 0x16 then s.joy1.read.1 else if i = 0x17 then s.joy2.read.1 else s.config.unmappedRead
  else if v.toNat < 0x80 then s.config.unmappedRead
  else match s.cart.readPrg (v.toNat * 256 + i) with
    | .ok b => b
    | .error _ => 0x00

/-- The state inside a DMA that began in `s`, `i` bytes read and OAM being `o`. -/
def dmaState (v : Byte) (s : State) (i : Nat) (o : Memory) : State :=
  { s with
    ppu := { s.ppu with oam := o }
    joy1 := if v = 0x40 ∧ 0x16 < i then s.joy1.read.2 else s.joy1
    joy2 := if v = 0x40 ∧ 0x17 < i then s.joy2.read.2 else s.joy2 }

/-- OAM after the bytes of a DMA from byte `i` on, `n` of them. -/
def dmaOam (v : Byte) (s : State) : Nat → Nat → Memory → Memory
  | 0, _, o => o
  | n + 1, i, o => dmaOam v s n (i + 1) (o.write ((s.ppu.oamAddr.toNat + i) % 256) (dmaByte v s i))

theorem dmaAddr_toNat (v : Byte) (i : Nat) (h : i < 256) : (wordOf 0 v + BitVec.ofNat 16 i).toNat = v.toNat * 256 + i := by
  have := v.isLt
  rw [BitVec.toNat_add, wordOf_toNat, BitVec.toNat_ofNat]
  simp
  omega

/-- A source page that traps does so at its first byte, and it is one of the PPU window or of the banked PRG window. -/
theorem readTrap_page (v : Byte) (s : State) : readTrap (wordOf 0 v) s =
    if 0x20 ≤ v.toNat ∧ v.toNat < 0x40 then some (.ppuRegisterMisuse .ppuctrl .read)
    else if s.cart.mapper = .uxrom ∧ 0x80 ≤ v.toNat ∧ v.toNat < 0xC0 ∧ s.cart.prgBanks ≤ s.cart.bankSelect.toNat then
      some .cartridgeOutOfRange
    else none := by
  have e : (wordOf 0 v).toNat = v.toNat * 256 := by rw [wordOf_toNat]; simp; omega
  unfold readTrap
  rw [e]
  have h8 : v.toNat * 256 % 8 = 0 := by omega
  simp only [h8]
  have p1 : (0x2000 ≤ v.toNat * 256 ∧ v.toNat * 256 < 0x4000) = (0x20 ≤ v.toNat ∧ v.toNat < 0x40) := by
    apply propext; constructor <;> rintro ⟨h, h'⟩ <;> constructor <;> omega
  have p2 : (s.cart.mapper = .uxrom ∧ 0x8000 ≤ v.toNat * 256 ∧ v.toNat * 256 < 0xC000 ∧
      s.cart.prgBanks ≤ s.cart.bankSelect.toNat) =
      (s.cart.mapper = .uxrom ∧ 0x80 ≤ v.toNat ∧ v.toNat < 0xC0 ∧ s.cart.prgBanks ≤ s.cart.bankSelect.toNat) := by
    apply propext; constructor <;> rintro ⟨h, h', h'', h3⟩ <;> refine ⟨h, ?_, ?_, h3⟩ <;> omega
  simp only [p1, p2]

/-- One read of a DMA whose page does not trap. -/
theorem rd_dmaState (v : Byte) (s : State) (i : Nat) (o : Memory) (hi : i < 256) (h : readTrap (wordOf 0 v) s = none) :
    rd (wordOf 0 v + BitVec.ofNat 16 i) (dmaState v s i o) = .ok (dmaByte v s i) (dmaState v s (i + 1) o) := by
  have ha := dmaAddr_toNat v i hi
  rw [readTrap_page] at h
  have hn : ¬ (0x20 ≤ v.toNat ∧ v.toNat < 0x40) := fun hh => by rw [if_pos hh] at h; cases h
  rw [if_neg hn] at h
  have hc : ¬ (s.cart.mapper = .uxrom ∧ 0x80 ≤ v.toNat ∧ v.toNat < 0xC0 ∧ s.cart.prgBanks ≤ s.cart.bankSelect.toNat) :=
    fun hh => by rw [if_pos hh] at h; cases h
  have h40 : (v = 0x40) = (v.toNat = 0x40) := propext ⟨fun h => by rw [h]; rfl, fun h => BitVec.eq_of_toNat_eq h⟩
  have same : v.toNat ≠ 0x40 → dmaState v s (i + 1) o = dmaState v s i o := by
    intro hv; simp only [dmaState, h40, hv, false_and, if_false]
  unfold dmaByte
  simp only [h40]
  by_cases h1 : v.toNat < 0x20
  · rw [rd_ram _ _ (by omega), ha, if_pos h1, same (by omega)]; rfl
  rw [if_neg h1]
  by_cases h2 : v.toNat = 0x40
  · rw [if_pos h2]
    have k1 : ¬ v.toNat * 256 + i < 0x2000 := by omega
    have k2 : ¬ v.toNat * 256 + i < 0x4000 := by omega
    have k3 : v.toNat * 256 + i < 0x8000 := by omega
    have k4 : (v.toNat * 256 + i = 0x4016) = (i = 0x16) := by apply propext; omega
    have k5 : (v.toNat * 256 + i = 0x4017) = (i = 0x17) := by apply propext; omega
    unfold rd
    simp only [ha, k1, k2, k3, k4, k5, if_false, if_true]
    have hv : v = 0x40 := BitVec.eq_of_toNat_eq h2
    by_cases e1 : i = 0x16
    · subst e1; simp [dmaState, hv]
    by_cases e2 : i = 0x17
    · subst e2; simp [dmaState, hv]
    have l1 : (0x16 < i + 1) = (0x16 < i) := by apply propext; omega
    have l2 : (0x17 < i + 1) = (0x17 < i) := by apply propext; omega
    simp only [e1, e2, if_false, dmaState, l1, l2]
  rw [if_neg h2, same h2]
  by_cases h3 : v.toNat < 0x80
  · rw [if_pos h3, rd_unmapped _ _ (by omega) (by omega) (by omega) (by omega)]; rfl
  rw [if_neg h3]
  cases hp : s.cart.readPrg (v.toNat * 256 + i) with
  | ok b => exact (rd_prg _ _ (by omega)).1 b (by rw [ha]; exact hp)
  | error k =>
    obtain ⟨q1, q2, q3, -⟩ := (Cart.readPrg_error _ _ _).1 hp
    exact absurd ⟨q1, by omega, by omega, q3⟩ hc

/-- The bytes of a DMA whose page does not trap. -/
theorem dmaBytes_def (v : Byte) (s : State) (h : readTrap (wordOf 0 v) s = none) :
    ∀ n i o, i + n ≤ 256 → dmaBytes v n i (dmaState v s i o) = .ok () (dmaState v s (i + n) (dmaOam v s n i o)) := by
  intro n
  induction n with
  | zero => intro i o _; rfl
  | succ n ih =>
    intro i o hi
    have e : i + (n + 1) = i + 1 + n := by omega
    rw [dmaBytes, rd_dmaState v s i o (by omega) h, Res.bind_ok, dmaOam, e]
    exact ih (i + 1) _ (by omega)

/-- The OAM a DMA leaves, byte by byte. -/
theorem dmaOam_read (v : Byte) (s : State) : ∀ n i o k, i + n ≤ 256 →
    (dmaOam v s n i o).read ((s.ppu.oamAddr.toNat + k) % 256) =
      if i ≤ k ∧ k < i + n then dmaByte v s k
      else if k < 256 then o.read ((s.ppu.oamAddr.toNat + k) % 256) else
        (dmaOam v s n i o).read ((s.ppu.oamAddr.toNat + k) % 256) := by
  intro n
  induction n with
  | zero => intro i o k _; rw [if_neg (by omega)]; split <;> rfl
  | succ n ih =>
    intro i o k hi
    by_cases hk : k < 256
    · rw [dmaOam, ih (i + 1) _ k (by omega), if_pos hk, if_pos hk, Memory.read_write]
      by_cases e : k = i
      · subst e
        rw [if_neg (by omega), if_pos rfl, if_pos (by omega)]
      · have : (s.ppu.oamAddr.toNat + i) % 256 ≠ (s.ppu.oamAddr.toNat + k) % 256 := by omega
        rw [if_neg this]
        have p : (i + 1 ≤ k ∧ k < i + 1 + n) = (i ≤ k ∧ k < i + (n + 1)) := by apply propext; omega
        simp only [p]
    · rw [if_neg hk, if_neg (by omega)]

/-- An OAM DMA, whole: it traps at its first byte, or it copies the page and bills its cycles. -/
theorem oamDma_def (v : Byte) (s : State) :
    (∀ k, readTrap (wordOf 0 v) s = some k → oamDma v s = .trap k) ∧
    (readTrap (wordOf 0 v) s = none →
      oamDma v s = .ok () ((dmaState v s 256 (dmaOam v s 256 0 s.ppu.oam)).bill s.config.dmaCycles.toNat)) := by
  constructor
  · intro k h
    have h0 : wordOf 0 v + BitVec.ofNat 16 0 = wordOf 0 v := by simp
    have := (rd_trap_iff (wordOf 0 v) s k).2 h
    rw [oamDma, dmaBytes, h0, this]; rfl
  · intro h
    have e : dmaState v s 0 s.ppu.oam = s := by
      simp only [dmaState, Nat.not_lt_zero, and_false, if_false]
    have := dmaBytes_def v s h 256 0 s.ppu.oam (by omega)
    rw [e] at this
    rw [oamDma, this]; rfl

/-- A write traps exactly where `writeTrap` says. -/
theorem wr_trap_iff (a : Word) (v : Byte) (s : State) (k : TrapKind) : wr a v s = .trap k ↔ writeTrap a v s = some k := by
  unfold writeTrap
  by_cases h1 : a.toNat < 0x2000
  · have h4 : a ≠ 0x4014 := by rintro rfl; revert h1; decide
    rw [wr_ram a v s h1, if_neg (by omega), if_neg h4]; simp
  by_cases h2 : a.toNat < 0x4000
  · rw [wr_ppu a v s (by omega) h2]
    have h4 : a ≠ 0x4014 := by rintro rfl; revert h2; decide
    have h0 : 0x2000 ≤ a.toNat := by omega
    simp only [h0, h2, true_and, h4, if_false]
    have h8 : a.toNat % 8 < 8 := Nat.mod_lt _ (by decide)
    unfold PpuReg.select
    generalize a.toNat % 8 = n at h8
    interval_cases n <;> simp [ppuRegWrite]
  rw [if_neg (by omega)]
  by_cases h4 : a = 0x4014
  · subst h4
    rw [if_pos rfl]
    have : wr 0x4014 v s = oamDma v s := rfl
    rw [this]
    cases h : readTrap (wordOf 0 v) s with
    | none => rw [(oamDma_def v s).2 h]; simp
    | some j => rw [(oamDma_def v s).1 j h]; simp
  · have h4' : a.toNat ≠ 0x4014 := fun h => h4 (BitVec.eq_of_toNat_eq h)
    rw [if_neg h4]
    unfold wr
    simp only [h1, h2, h4', if_false]
    split
    · simp
    · split
      · simp
      · split <;> simp

theorem wr_total (a : Word) (v : Byte) (s : State) : (∃ t, wr a v s = .ok () t ∧ writeTrap a v s = none) ∨
    ∃ k, wr a v s = .trap k ∧ writeTrap a v s = some k := by
  cases h : wr a v s with
  | ok u t =>
    refine .inl ⟨t, rfl, ?_⟩
    cases h' : writeTrap a v s with
    | none => rfl
    | some k => rw [(wr_trap_iff a v s k).2 h'] at h; cases h
  | trap k => exact .inr ⟨k, rfl, (wr_trap_iff a v s k).1 h⟩

/-- What traps a write depends on the cartridge alone. -/
theorem writeTrap_congr (a : Word) (v : Byte) (s t : State) (h : t.cart = s.cart) : writeTrap a v t = writeTrap a v s := by
  unfold writeTrap; rw [readTrap_congr _ s t h]

/-- A write of the PPU bus changes one memory. -/
theorem ppuWr_frame (c : Cart) (p : Ppu) (a : Nat) (v : Byte) :
    (ppuWr c p a v).1 = { c with chrRam := (ppuWr c p a v).1.chrRam } ∧
    (ppuWr c p a v).2 = { p with vram := (ppuWr c p a v).2.vram, palette := (ppuWr c p a v).2.palette } := by
  unfold ppuWr
  generalize a % 0x4000 = n
  by_cases h1 : n < 0x2000
  · rw [if_pos h1]
    simp only [Cart.writeChr]
    split <;> simp
  · rw [if_neg h1]
    by_cases h2 : n < 0x3F00
    · rw [if_pos h2]; exact ⟨rfl, rfl⟩
    · rw [if_neg h2]; exact ⟨rfl, rfl⟩

/-- A write leaves alone everything but the cell or device it is addressed to. -/
theorem wr_frame {a : Word} {v : Byte} {s t : State} (h : wr a v s = .ok () t) : WriteFrame a s t := by
  by_cases h1 : a.toNat < 0x2000
  · have h4 : a ≠ 0x4014 := by rintro rfl; revert h1; decide
    rw [wr_ram a v s h1] at h
    cases h
    constructor
    case cycles => rw [if_neg h4]; simp
    case ram =>
      intro k hk
      have : ¬ (a.toNat % 0x800 = k) := fun e => hk ⟨h1, e.symm⟩
      simp [State.ramAt, Memory.read_write, this]
    all_goals simp
  have hnr : ∀ r : State, r.ram = s.ram →
      ∀ k, ¬ (a.toNat < 0x2000 ∧ k = a.toNat % 0x800) → r.ramAt k = s.ramAt k := by
    intro r hr k _; simp [State.ramAt, hr]
  by_cases h2 : a.toNat < 0x4000
  · have h4 : a ≠ 0x4014 := by rintro rfl; revert h2; decide
    have h6 : a ≠ 0x4016 := by rintro rfl; revert h2; decide
    have h7 : a ≠ 0x4017 := by rintro rfl; revert h2; decide
    have hw : 0x2000 ≤ a.toNat := by omega
    rw [wr_ppu a v s hw h2] at h
    cases hs : PpuReg.select a.toNat <;> rw [hs] at h
    case ppustatus => cases h
    case ppudata =>
      cases h
      obtain ⟨f1, f2⟩ := ppuWr_frame s.cart s.ppu (s.ppu.vramAddr.toNat % 0x4000) v
      constructor
      case ram => exact hnr _ rfl
      case cycles => rw [if_neg h4]; exact (Int.add_zero _).symm
      all_goals simp only [Ppu.dataWrite, Ppu.incVramAddr, HitsPpu, hw, h2, hs]
      all_goals (try rw [f1]); (try rw [f2]); simp
    all_goals
      cases h
      constructor
      case ram => exact hnr _ rfl
      case cycles => rw [if_neg h4]; exact (Int.add_zero _).symm
      all_goals simp only [HitsPpu, hw, h2, hs, ctrlWrite, Ppu.oamDataWrite, Ppu.scrollWrite, Ppu.addrWrite]
      all_goals (try split) <;> simp
  have hw : ¬ (0x2000 ≤ a.toNat ∧ a.toNat < 0x4000) := by omega
  have hh : ∀ r, ¬ HitsPpu a r := fun r hr => hw ⟨hr.1, hr.2.1⟩
  by_cases h4 : a = 0x4014
  · subst h4
    have e : wr 0x4014 v s = oamDma v s := rfl
    rw [e] at h
    cases hr : readTrap (wordOf 0 v) s with
    | some k => rw [(oamDma_def v s).1 k hr] at h; cases h
    | none =>
      rw [(oamDma_def v s).2 hr] at h
      generalize dmaOam v s 256 0 s.ppu.oam = o at h
      cases h
      constructor
      case ram => exact hnr _ rfl
      all_goals simp [dmaState, State.bill]
  have h4' : a.toNat ≠ 0x4014 := fun h => h4 (BitVec.eq_of_toNat_eq h)
  unfold wr at h
  simp only [h1, h2, h4', if_false] at h
  by_cases h6 : a.toNat = 0x4016
  · rw [if_pos h6] at h
    have h6' : a = 0x4016 := BitVec.eq_of_toNat_eq h6
    cases h
    subst h6'
    constructor
    case ram => exact hnr _ rfl
    all_goals simp
  rw [if_neg h6] at h
  by_cases h7 : a.toNat = 0x4017
  · rw [if_pos h7] at h
    have h7' : a = 0x4017 := BitVec.eq_of_toNat_eq h7
    cases h
    subst h7'
    constructor
    case ram => exact hnr _ rfl
    all_goals simp
  rw [if_neg h7] at h
  by_cases h8 : a.toNat < 0x8000
  · rw [if_pos h8] at h
    cases h
    constructor
    case cycles => rw [if_neg h4]; exact (Int.add_zero _).symm
    all_goals simp
  · rw [if_neg h8] at h
    cases h
    constructor
    case ram => exact hnr _ rfl
    case cycles => rw [if_neg h4]; exact (Int.add_zero _).symm
    case bank => intro hb; exact absurd hb h8
    case cartridge => simp only [Cart.writePrg]; split <;> simp
    case ppuMemories => intro _; simp only [Cart.writePrg]; split <;> simp
    all_goals simp

end Sys2Proof.Machine
end

