-- ==== Sys2Proof/Laws/Flags.lean ====
section
/-!
SUPPORT. The flag computations of `Machine/Flags.lean` in the numbers that claims are made in.
-/

namespace Sys2Proof.Machine

theorem bit7_eq_decide (v : Byte) : bit7 v = decide (128 ≤ v.toNat) := by
  revert v; decide

theorem withNZ_eq (p : Flags) (v : Byte) : withNZ p v = p.setNZ v := by
  have h1 : decide (v.toNat = 0) = decide (v = 0) := by
    rw [decide_eq_decide]; exact ⟨fun h => BitVec.eq_of_toNat_eq (by simpa using h), fun h => by simp [h]⟩
  simp only [withNZ, Flags.setNZ, h1, bit7_eq_decide]

theorem ofNat_add_byte (v : Byte) (n : Nat) : BitVec.ofNat 8 (v.toNat + n) = v + BitVec.ofNat 8 n := by
  apply BitVec.eq_of_toNat_eq; simp

theorem dec_byte (v : Byte) : BitVec.ofNat 8 (v.toNat + 255) = v - 1 := by
  revert v; decide

theorem inc_byte (v : Byte) : BitVec.ofNat 8 (v.toNat + 1) = v + 1 := ofNat_add_byte v 1

theorem complement_byte (v : Byte) : BitVec.ofNat 8 (255 - v.toNat) = ~~~v := by
  revert v; decide

/-- The sign bit of the overflow formula of R202 is the signed overflow. -/
theorem overflow_eq (a m r : Byte) (c : Bool) (h : r.toNat = (a.toNat + m.toNat + c.toNat) % 256) :
    decide ((a ^^^ r) &&& (m ^^^ r) &&& 0x80 ≠ 0) =
      decide (a.toInt + m.toInt + c.toNat < -128 ∨ 127 < a.toInt + m.toInt + c.toNat) := by
  have key : ∀ x : Byte, decide (x &&& 0x80 ≠ 0) = x.getLsbD 7 := by decide
  rw [key, BitVec.getLsbD_and, BitVec.getLsbD_xor, BitVec.getLsbD_xor]
  have e : ∀ x : Byte, x.getLsbD 7 = decide (128 ≤ x.toNat) := bit7_eq_decide
  have i : ∀ x : Byte, x.toInt = if x.toNat < 128 then (x.toNat : Int) else x.toNat - 256 := by decide
  rw [e, e, e, i, i]
  have ha := a.isLt
  have hm := m.isLt
  have hc : c.toNat ≤ 1 := by cases c <;> simp
  rw [Bool.eq_iff_iff]
  simp only [Bool.and_eq_true, bne_iff_ne, ne_eq, decide_eq_decide, decide_eq_true_eq]
  split <;> split <;> omega

theorem carry_toNat (p : Flags) : carry p = p.c.toNat := by
  cases h : p.c <;> simp [carry, h]

/-- The adder in numbers (R202, R203). -/
theorem adcCore_eq (a m : Byte) (p : Flags) : adcCore a m p = addResult a m p := by
  have h := overflow_eq a m (BitVec.ofNat 8 (a.toNat + m.toNat + p.c.toNat)) p.c (by simp)
  simp only [adcCore, addCore, addResult, withNZ_eq, carry_toNat, h, Flags.setNZ]

/-- The subtraction in numbers (R204). -/
theorem sbcCore_eq (a m : Byte) (p : Flags) : sbcCore a m p = addResult a (BitVec.ofNat 8 (255 - m.toNat)) p := by
  rw [sbcCore, adcCore_eq, complement_byte]

/-- The comparison in numbers (R209). -/
theorem compare_eq (r m : Byte) (p : Flags) : p.compare r m = compareResult r m p := by
  have h1 : decide (r = m) = decide (r.toNat = m.toNat) := by
    rw [decide_eq_decide]; exact ⟨fun h => by rw [h], BitVec.eq_of_toNat_eq⟩
  have h2 : bit7 (r - m) = decide (128 ≤ (256 + r.toNat - m.toNat) % 256) := by
    rw [bit7_eq_decide, BitVec.toNat_sub]
    have := m.isLt
    congr 2
    omega
  simp only [Flags.compare, compareResult, h1, h2]

/-- BIT in numbers (R213). -/
theorem bitTest_eq (a m : Byte) (p : Flags) : p.bitTest a m =
    { p with z := decide ((a &&& m).toNat = 0), n := decide (128 ≤ m.toNat), v := decide (64 ≤ m.toNat % 128) } := by
  have h1 : decide ((a &&& m).toNat = 0) = decide (a &&& m = 0) := by
    rw [decide_eq_decide]; exact ⟨fun h => BitVec.eq_of_toNat_eq (by simpa using h), fun h => by simp [h]⟩
  have h2 : ∀ m : Byte, m.getLsbD 6 = decide (64 ≤ m.toNat % 128) := by decide
  simp only [Flags.bitTest, h1, h2, bit7_eq_decide]

/-- ASL in numbers (R231). -/
theorem aslCore_eq (m : Byte) (p : Flags) :
    aslCore m p = (BitVec.ofNat 8 (2 * m.toNat), { p with c := decide (128 ≤ m.toNat) }) := by
  have : m <<< 1 = BitVec.ofNat 8 (2 * m.toNat) := by revert m; decide
  simp only [aslCore, this, bit7_eq_decide]

/-- LSR in numbers (R232). -/
theorem lsrCore_eq (m : Byte) (p : Flags) :
    lsrCore m p = (BitVec.ofNat 8 (m.toNat / 2), { p with c := decide (m.toNat % 2 = 1) }) := by
  have h1 : m >>> 1 = BitVec.ofNat 8 (m.toNat / 2) := by revert m; decide
  have h2 : m.getLsbD 0 = decide (m.toNat % 2 = 1) := by revert m; decide
  simp only [lsrCore, h1, h2]

/-- ROL in numbers (R233). -/
theorem rolCore_eq (m : Byte) (p : Flags) :
    rolCore m p = (BitVec.ofNat 8 (2 * m.toNat + carry p), { p with c := decide (128 ≤ m.toNat) }) := by
  have : ∀ (m : Byte) (b : Bool), (m <<< 1) ||| (BitVec.ofBool b).setWidth 8 = BitVec.ofNat 8 (2 * m.toNat + b.toNat) := by
    decide
  simp only [rolCore, this, carry_toNat, bit7_eq_decide]

/-- ROR in numbers (R234). -/
theorem rorCore_eq (m : Byte) (p : Flags) :
    rorCore m p = (BitVec.ofNat 8 (m.toNat / 2 + 128 * carry p), { p with c := decide (m.toNat % 2 = 1) }) := by
  have h1 : ∀ (m : Byte) (b : Bool),
      (m >>> 1) ||| ((BitVec.ofBool b).setWidth 8 <<< 7) = BitVec.ofNat 8 (m.toNat / 2 + 128 * b.toNat) := by decide
  have h2 : m.getLsbD 0 = decide (m.toNat % 2 = 1) := by revert m; decide
  simp only [rorCore, h1, h2, carry_toNat]

theorem pbyte_eq_pImage (p : Flags) (b : Bool) : p.pbyte b = pImage p b.toNat := by
  obtain ⟨c, z, i, d, v, n⟩ := p
  revert c z i d v n b; decide

end Sys2Proof.Machine
end

