-- ==== Sys2Proof/Laws/Exec.lean ====
section
/-!
SUPPORT. What the shapes of instruction of `Machine/Operands.lean` can do, said once: a load, a store, a read instruction, a
store instruction, a read-modify-write instruction.
-/

namespace Sys2Proof.Machine

theorem load_trap {m : Operand} {s : State} {k : TrapKind} (h : loadTrap m s = some k) : load (resolve m s) s = .trap k := by
  unfold loadTrap at h
  cases hr : resolve m s with
  | mem ea c => rw [hr] at h; exact (rd_trap_iff ea s k).2 h
  | none | acc | imm => rw [hr] at h; cases h

theorem load_ok {m : Operand} {s : State} (h : loadTrap m s = none) :
    ∃ v t, load (resolve m s) s = .ok v t ∧ ReadFrame s t := by
  unfold loadTrap at h
  cases hr : resolve m s with
  | mem ea c =>
    rw [hr] at h
    rcases rd_total ea s with ⟨v, t, e, -⟩ | ⟨k, -, e⟩
    · exact ⟨v, t, e, rd_frame e⟩
    · have h : readTrap ea s = none := h
      rw [h] at e; cases e
  | none | acc | imm => exact ⟨_, s, rfl, .refl s⟩

theorem load_frame {r : Resolved} {s t : State} {v : Byte} (h : load r s = .ok v t) : ReadFrame s t := by
  cases r with
  | mem ea c => exact rd_frame h
  | none | acc | imm => cases h; exact .refl _

theorem store_trap {m : Operand} {v : Byte} {s t : State} {k : TrapKind} (h : storeTrap m v s = some k)
    (hc : t.cart = s.cart) : store (resolve m s) v t = .trap k := by
  unfold storeTrap at h
  cases hr : resolve m s with
  | mem ea c =>
    rw [hr] at h
    have h : writeTrap ea v s = some k := h
    exact (wr_trap_iff ea v t k).2 (by rw [writeTrap_congr ea v s t hc]; exact h)
  | none | acc | imm => rw [hr] at h; cases h

theorem store_ok {m : Operand} {v : Byte} {s t : State} (h : storeTrap m v s = none) (hc : t.cart = s.cart) :
    ∃ u, store (resolve m s) v t = .ok () u ∧ ∀ ea, (resolve m s).addr = some ea → WriteFrame ea t u := by
  unfold storeTrap at h
  cases hr : resolve m s with
  | mem ea c =>
    rw [hr] at h
    have h : writeTrap ea v s = none := h
    rcases wr_total ea v t with ⟨u, e, -⟩ | ⟨k, -, e⟩
    · refine ⟨u, e, fun ea' he => ?_⟩
      cases he
      exact wr_frame e
    · rw [writeTrap_congr ea v s t hc, h] at e; cases e
  | none | acc | imm => exact ⟨_, rfl, fun ea he => by cases he⟩

theorem readInstr_trap {m : Operand} {s : State} {k : TrapKind} (f : Byte → State → State) (h : loadTrap m s = some k) :
    readInstr m f s = .next { s with fault := some k } := by
  rw [readInstr, load_trap h]; rfl

theorem readInstr_ok {m : Operand} {s t : State} {v : Byte} (f : Byte → State → State)
    (h : load (resolve m s) s = .ok v t) :
    readInstr m f s = .next ((f v t).retire (lenOf m) (readCycles m + penalty (resolve m s).crossed)) := by
  rw [readInstr, h]; rfl

theorem rmwInstr_loadTrap {m : Operand} {s : State} {k : TrapKind} (g : Byte → Flags → Byte × Flags)
    (h : Byte → State → State) (hl : loadTrap m s = some k) : rmwInstr m g h s = .next { s with fault := some k } := by
  rw [rmwInstr, load_trap hl]; rfl

theorem rmwInstr_storeTrap {m : Operand} {s t : State} {v : Byte} {k : TrapKind} (g : Byte → Flags → Byte × Flags)
    (h : Byte → State → State) (hl : load (resolve m s) s = .ok v t) (hs : storeTrap m (g v t.p).1 s = some k) :
    rmwInstr m g h s = .next { s with fault := some k } := by
  have hc : t.cart = s.cart := by rw [load_frame hl]
  rw [rmwInstr, hl, Res.bind_ok, store_trap (t := { t with p := (g v t.p).2 }) hs hc]; rfl

theorem rmwInstr_ok {m : Operand} {s t u : State} {v : Byte} (g : Byte → Flags → Byte × Flags)
    (h : Byte → State → State) (hl : load (resolve m s) s = .ok v t)
    (hs : store (resolve m s) (g v t.p).1 { t with p := (g v t.p).2 } = .ok () u) :
    rmwInstr m g h s = .next ((h (g v t.p).1 u).retire (lenOf m) (rmwCycles m)) := by
  rw [rmwInstr, hl, Res.bind_ok, hs]; rfl

theorem writeInstr_trap {m : Operand} {s : State} {v : Byte} {k : TrapKind} (h : storeTrap m v s = some k) :
    writeInstr m v s = .next { s with fault := some k } := by
  rw [writeInstr, store_trap h rfl]; rfl

theorem writeInstr_ok {m : Operand} {s t : State} {v : Byte} (h : store (resolve m s) v s = .ok () t) :
    writeInstr m v s = .next (t.retire (lenOf m) (writeCycles m)) := by
  rw [writeInstr, h]; rfl

end Sys2Proof.Machine
end

