-- ==== Sys2Proof/Laws/PerInstr.lean ====
section
/-!
SUPPORT. Family `Row`: every well-formed instruction has a row of the opcode matrix under its opcode byte, with its mnemonic
and its mode, and as many operand bytes as that mode has.
-/

set_option Elab.async false

namespace Sys2Proof.Laws.Row

/-- The row under the instruction's opcode byte is the instruction's own. -/
def Statement (i : Instr) : Prop :=
  i.wf = true → (rowOf i.opcode).op = i.opcode ∧ (rowOf i.opcode).mn = i.mnemonic ∧ (rowOf i.opcode).mode = i.mode ∧
    i.operandBytes.length + 1 = i.len

/-- The instructions whose opcode byte is searched in the matrix. -/
theorem of_search (i : Instr) (mn : Mnemonic) (mode : Mode) (bs : List Byte) (h : i.parts = (mn, none, mode, bs))
    (hb : bs.length + 1 = mode.len)
    (hf : (opcodeMatrix.find? (fun r => decide (r.mn = mn) && decide (r.mode = mode))).isSome = true) : Statement i := by
  intro _
  have hop : i.opcode = opcodeFor mn mode := by simp [Instr.opcode, Instr.mnemonic, Instr.mode, h]
  obtain ⟨h1, h2, h3⟩ := opcodeFor_row mn mode hf
  simp only [Instr.mnemonic, Instr.mode, Instr.operandBytes, Instr.len, h, hop]
  exact ⟨h1, h2, h3, hb⟩

/-- The instructions that carry their opcode byte. -/
theorem of_carried (i : Instr) (op : Byte) (mn : Mnemonic) (mode : Mode) (bs : List Byte)
    (h : i.parts = (mn, some op, mode, bs)) (hr : (rowOf op).mn = mn ∧ (rowOf op).mode = mode)
    (hb : bs.length + 1 = mode.len) : Statement i := by
  intro _
  have hop : i.opcode = op := by simp [Instr.opcode, h]
  simp only [Instr.mnemonic, Instr.mode, Instr.operandBytes, Instr.len, h, hop]
  exact ⟨(rowOf_mem op).2, hr.1, hr.2, hb⟩

/-- The instructions of several modes: every mode allowed is found in the matrix. -/
theorem of_modes (i : Instr) (mn : Mnemonic) (m : Operand) (allowed : List Mode)
    (h : i.parts = (mn, none, m.mode, m.bytes)) (hw : i.wf = allowed.contains m.mode)
    (hf : allowed.all (fun mode =>
      (opcodeMatrix.find? (fun r => decide (r.mn = mn) && decide (r.mode = mode))).isSome) = true) : Statement i := by
  intro hi
  rw [hw] at hi
  exact of_search i mn m.mode m.bytes h (by cases m <;> rfl)
    (List.all_eq_true.1 hf _ (by simpa using hi)) (hw.trans hi)

theorem lda (m : Operand) : Statement (.lda m) := by
  exact of_modes _ _ m Mode.read8 rfl rfl (by decide +kernel)

theorem ldx (m : Operand) : Statement (.ldx m) := by
  exact of_modes _ _ m ([.imm, .zp, .zpy, .abs, .aby] : List Mode) rfl rfl (by decide +kernel)

theorem ldy (m : Operand) : Statement (.ldy m) := by
  exact of_modes _ _ m ([.imm, .zp, .zpx, .abs, .abx] : List Mode) rfl rfl (by decide +kernel)

theorem sta (m : Operand) : Statement (.sta m) := by
  exact of_modes _ _ m ([.zp, .zpx, .abs, .abx, .aby, .izx, .izy] : List Mode) rfl rfl (by decide +kernel)

theorem stx (m : Operand) : Statement (.stx m) := by
  exact of_modes _ _ m ([.zp, .zpy, .abs] : List Mode) rfl rfl (by decide +kernel)

theorem sty (m : Operand) : Statement (.sty m) := by
  exact of_modes _ _ m ([.zp, .zpx, .abs] : List Mode) rfl rfl (by decide +kernel)

theorem tax : Statement .tax := by
  exact of_search _ _ _ _ rfl rfl (by decide +kernel)

theorem tay : Statement .tay := by
  exact of_search _ _ _ _ rfl rfl (by decide +kernel)

theorem txa : Statement .txa := by
  exact of_search _ _ _ _ rfl rfl (by decide +kernel)

theorem tya : Statement .tya := by
  exact of_search _ _ _ _ rfl rfl (by decide +kernel)

theorem tsx : Statement .tsx := by
  exact of_search _ _ _ _ rfl rfl (by decide +kernel)

theorem txs : Statement .txs := by
  exact of_search _ _ _ _ rfl rfl (by decide +kernel)

theorem adc (m : Operand) : Statement (.adc m) := by
  exact of_modes _ _ m Mode.read8 rfl rfl (by decide +kernel)

theorem sbc (m : Operand) : Statement (.sbc m) := by
  exact of_modes _ _ m Mode.read8 rfl rfl (by decide +kernel)

theorem and (m : Operand) : Statement (.and m) := by
  exact of_modes _ _ m Mode.read8 rfl rfl (by decide +kernel)

theorem ora (m : Operand) : Statement (.ora m) := by
  exact of_modes _ _ m Mode.read8 rfl rfl (by decide +kernel)

theorem eor (m : Operand) : Statement (.eor m) := by
  exact of_modes _ _ m Mode.read8 rfl rfl (by decide +kernel)

theorem cmp (m : Operand) : Statement (.cmp m) := by
  exact of_modes _ _ m Mode.read8 rfl rfl (by decide +kernel)

theorem cpx (m : Operand) : Statement (.cpx m) := by
  exact of_modes _ _ m ([.imm, .zp, .abs] : List Mode) rfl rfl (by decide +kernel)

theorem cpy (m : Operand) : Statement (.cpy m) := by
  exact of_modes _ _ m ([.imm, .zp, .abs] : List Mode) rfl rfl (by decide +kernel)

theorem bit (m : Operand) : Statement (.bit m) := by
  exact of_modes _ _ m ([.zp, .abs] : List Mode) rfl rfl (by decide +kernel)

theorem inc (m : Operand) : Statement (.inc m) := by
  exact of_modes _ _ m ([.zp, .zpx, .abs, .abx] : List Mode) rfl rfl (by decide +kernel)

theorem dec (m : Operand) : Statement (.dec m) := by
  exact of_modes _ _ m ([.zp, .zpx, .abs, .abx] : List Mode) rfl rfl (by decide +kernel)

theorem inx : Statement .inx := by
  exact of_search _ _ _ _ rfl rfl (by decide +kernel)

theorem iny : Statement .iny := by
  exact of_search _ _ _ _ rfl rfl (by decide +kernel)

theorem dex : Statement .dex := by
  exact of_search _ _ _ _ rfl rfl (by decide +kernel)

theorem dey : Statement .dey := by
  exact of_search _ _ _ _ rfl rfl (by decide +kernel)

theorem asl (m : Operand) : Statement (.asl m) := by
  exact of_modes _ _ m Mode.shift5 rfl rfl (by decide +kernel)

theorem lsr (m : Operand) : Statement (.lsr m) := by
  exact of_modes _ _ m Mode.shift5 rfl rfl (by decide +kernel)

theorem rol (m : Operand) : Statement (.rol m) := by
  exact of_modes _ _ m Mode.shift5 rfl rfl (by decide +kernel)

theorem ror (m : Operand) : Statement (.ror m) := by
  exact of_modes _ _ m Mode.shift5 rfl rfl (by decide +kernel)

theorem jmp (a : Word) : Statement (.jmp a) := by
  exact of_search _ _ _ _ rfl rfl (by decide +kernel)

theorem jmpInd (a : Word) : Statement (.jmpInd a) := by
  exact of_search _ _ _ _ rfl rfl (by decide +kernel)

theorem jsr (a : Word) : Statement (.jsr a) := by
  exact of_search _ _ _ _ rfl rfl (by decide +kernel)

theorem rts : Statement .rts := by
  exact of_search _ _ _ _ rfl rfl (by decide +kernel)

theorem rti : Statement .rti := by
  exact of_search _ _ _ _ rfl rfl (by decide +kernel)

theorem brk : Statement .brk := by
  exact of_search _ _ _ _ rfl rfl (by decide +kernel)

theorem bcc (d : Byte) : Statement (.bcc d) := by
  exact of_search _ _ _ _ rfl rfl (by decide +kernel)

theorem bcs (d : Byte) : Statement (.bcs d) := by
  exact of_search _ _ _ _ rfl rfl (by decide +kernel)

theorem beq (d : Byte) : Statement (.beq d) := by
  exact of_search _ _ _ _ rfl rfl (by decide +kernel)

theorem bne (d : Byte) : Statement (.bne d) := by
  exact of_search _ _ _ _ rfl rfl (by decide +kernel)

theorem bmi (d : Byte) : Statement (.bmi d) := by
  exact of_search _ _ _ _ rfl rfl (by decide +kernel)

theorem bpl (d : Byte) : Statement (.bpl d) := by
  exact of_search _ _ _ _ rfl rfl (by decide +kernel)

theorem bvc (d : Byte) : Statement (.bvc d) := by
  exact of_search _ _ _ _ rfl rfl (by decide +kernel)

theorem bvs (d : Byte) : Statement (.bvs d) := by
  exact of_search _ _ _ _ rfl rfl (by decide +kernel)

theorem pha : Statement .pha := by
  exact of_search _ _ _ _ rfl rfl (by decide +kernel)

theorem php : Statement .php := by
  exact of_search _ _ _ _ rfl rfl (by decide +kernel)

theorem pla : Statement .pla := by
  exact of_search _ _ _ _ rfl rfl (by decide +kernel)

theorem plp : Statement .plp := by
  exact of_search _ _ _ _ rfl rfl (by decide +kernel)

theorem clc : Statement .clc := by
  exact of_search _ _ _ _ rfl rfl (by decide +kernel)

theorem sec : Statement .sec := by
  exact of_search _ _ _ _ rfl rfl (by decide +kernel)

theorem cli : Statement .cli := by
  exact of_search _ _ _ _ rfl rfl (by decide +kernel)

theorem sei : Statement .sei := by
  exact of_search _ _ _ _ rfl rfl (by decide +kernel)

theorem cld : Statement .cld := by
  exact of_search _ _ _ _ rfl rfl (by decide +kernel)

theorem sed : Statement .sed := by
  exact of_search _ _ _ _ rfl rfl (by decide +kernel)

theorem clv : Statement .clv := by
  exact of_search _ _ _ _ rfl rfl (by decide +kernel)

theorem nop : Statement .nop := by
  exact of_carried _ _ _ _ _ rfl (by decide +kernel) rfl

theorem lax (m : Operand) : Statement (.lax m) := by
  exact of_modes _ _ m ([.zp, .zpy, .abs, .aby, .izx, .izy] : List Mode) rfl rfl (by decide +kernel)

theorem sax (m : Operand) : Statement (.sax m) := by
  exact of_modes _ _ m ([.zp, .zpy, .abs, .izx] : List Mode) rfl rfl (by decide +kernel)

theorem usbc (v : Byte) : Statement (.usbc v) := by
  exact of_search _ _ _ _ rfl rfl (by decide +kernel)

theorem dcp (m : Operand) : Statement (.dcp m) := by
  exact of_modes _ _ m Mode.rmw7 rfl rfl (by decide +kernel)

theorem isb (m : Operand) : Statement (.isb m) := by
  exact of_modes _ _ m Mode.rmw7 rfl rfl (by decide +kernel)

theorem slo (m : Operand) : Statement (.slo m) := by
  exact of_modes _ _ m Mode.rmw7 rfl rfl (by decide +kernel)

theorem rla (m : Operand) : Statement (.rla m) := by
  exact of_modes _ _ m Mode.rmw7 rfl rfl (by decide +kernel)

theorem sre (m : Operand) : Statement (.sre m) := by
  exact of_modes _ _ m Mode.rmw7 rfl rfl (by decide +kernel)

theorem rra (m : Operand) : Statement (.rra m) := by
  exact of_modes _ _ m Mode.rmw7 rfl rfl (by decide +kernel)

theorem anc (op v : Byte) : Statement (.anc op v) := by
  intro h
  simp only [Instr.wf, Instr.ancOps, List.contains_eq_mem, decide_eq_true_eq, List.mem_cons, List.not_mem_nil, or_false] at h
  rcases h with rfl | rfl <;> exact of_carried _ _ _ _ _ rfl (by decide +kernel) rfl rfl

theorem alr (v : Byte) : Statement (.alr v) := by
  exact of_search _ _ _ _ rfl rfl (by decide +kernel)

theorem jam (op : Byte) : Statement (.jam op) := by
  intro h
  simp only [Instr.wf, Instr.jamOps, List.contains_eq_mem, decide_eq_true_eq, List.mem_cons, List.not_mem_nil, or_false] at h
  rcases h with rfl | rfl | rfl | rfl | rfl | rfl | rfl | rfl | rfl | rfl | rfl | rfl <;> exact of_carried _ _ _ _ _ rfl (by decide +kernel) rfl rfl

theorem nopUndoc (op : Byte) (m : Operand) : Statement (.nopUndoc op m) := by
  intro h
  have key : ∀ mode : Mode, (Instr.nopOps mode).contains op = true → (rowOf op).mn = .nop ∧ (rowOf op).mode = mode := by
    intro mode hm
    have all : (List.range 256).all (fun k => decide ((Instr.nopOps mode).contains (BitVec.ofNat 8 k) = true →
        (rowOf (BitVec.ofNat 8 k)).mn = .nop ∧ (rowOf (BitVec.ofNat 8 k)).mode = mode)) = true := by
      cases mode <;> decide +kernel
    have := List.all_eq_true.1 all op.toNat (List.mem_range.2 op.isLt)
    simp only [decide_eq_true_eq, BitVec.ofNat_toNat, BitVec.setWidth_eq] at this
    exact this hm
  exact of_carried _ op _ _ _ rfl (key m.mode h) (by cases m <;> rfl) h

theorem invalid (op : Byte) : Statement (.invalid op) := by
  intro h
  simp only [Instr.wf, Instr.invalidOps, List.contains_eq_mem, decide_eq_true_eq, List.mem_cons, List.not_mem_nil, or_false] at h
  rcases h with rfl | rfl | rfl | rfl | rfl | rfl | rfl | rfl | rfl | rfl <;> exact of_carried _ _ _ _ _ rfl (by decide +kernel) rfl rfl

end Sys2Proof.Laws.Row
end

