-- ==== Sys2Proof/Laws/Cost.lean ====
section
/-!
SUPPORT. The costs of `Machine/Operands.lean` are the `cyc` column of the matrix: one lemma per kind of instruction of R175.
-/

set_option Elab.async false

namespace Sys2Proof.Machine

/-- The mnemonics of the read instructions (R175). -/
def readMnemonics : List Mnemonic :=
  [.lda, .ldx, .ldy, .lax, .and, .ora, .eor, .adc, .sbc, .usbc, .cmp, .cpx, .cpy, .bit, .anc, .alr, .nop]

/-- The mnemonics of the stores (R175). -/
def writeMnemonics : List Mnemonic := [.sta, .stx, .sty, .sax]

/-- The mnemonics of the read-modify-write instructions (R175). -/
def rmwMnemonics : List Mnemonic := [.inc, .dec, .asl, .lsr, .rol, .ror, .dcp, .isb, .slo, .rla, .sre, .rra]

/-- An operand of each mode, to carry a mode where a cost asks for an operand. -/
def Operand.ofMode : Mode → Operand
  | .acc => .acc
  | .imm => .imm 0
  | .zp => .zp 0
  | .zpx => .zpx 0
  | .zpy => .zpy 0
  | .abs => .abs 0
  | .abx => .abx 0
  | .aby => .aby 0
  | .izx => .izx 0
  | .izy => .izy 0
  | .imp | .rel | .ind | .none => .imp

theorem matrix_costs : ∀ r ∈ opcodeMatrix,
    (r.mn ∈ readMnemonics → r.cyc = readCycles (Operand.ofMode r.mode)) ∧
    (r.mn ∈ writeMnemonics → r.cyc = writeCycles (Operand.ofMode r.mode)) ∧
    (r.mn ∈ rmwMnemonics → r.cyc = rmwCycles (Operand.ofMode r.mode)) := by
  have h : opcodeMatrix.all (fun r =>
      (!decide (r.mn ∈ readMnemonics) || decide (r.cyc = readCycles (Operand.ofMode r.mode))) &&
      (!decide (r.mn ∈ writeMnemonics) || decide (r.cyc = writeCycles (Operand.ofMode r.mode))) &&
      (!decide (r.mn ∈ rmwMnemonics) || decide (r.cyc = rmwCycles (Operand.ofMode r.mode)))) = true := by decide +kernel
  intro r hr
  have := List.all_eq_true.1 h r hr
  simp only [Bool.and_eq_true, Bool.or_eq_true, Bool.not_eq_true', decide_eq_false_iff_not, decide_eq_true_eq] at this
  exact ⟨fun hm => this.1.1.resolve_left (fun h => h hm), fun hm => this.1.2.resolve_left (fun h => h hm),
    fun hm => this.2.resolve_left (fun h => h hm)⟩

/-- The page-cross penalty of the matrix stands on the read instructions of the three indexed modes that can cross, and on
no store and no read-modify-write instruction (R176). -/
theorem matrix_penalties : ∀ r ∈ opcodeMatrix,
    (r.mn ∈ readMnemonics → (r.pen = .p ↔ r.mode = .abx ∨ r.mode = .aby ∨ r.mode = .izy)) ∧
    (r.mn ∉ readMnemonics → r.pen ≠ .p) := by
  have h : opcodeMatrix.all (fun r =>
      (!decide (r.mn ∈ readMnemonics) || decide (r.pen = .p ↔ r.mode = .abx ∨ r.mode = .aby ∨ r.mode = .izy)) &&
      (decide (r.mn ∈ readMnemonics) || !decide (r.pen = .p))) = true := by decide +kernel
  intro r hr
  have := List.all_eq_true.1 h r hr
  simp only [Bool.and_eq_true, Bool.or_eq_true, Bool.not_eq_true', decide_eq_false_iff_not, decide_eq_true_eq] at this
  exact ⟨fun hm => this.1.resolve_left (fun h => h hm), fun hm => this.2.resolve_left hm⟩

/-- The matrix's cost of an instruction is the one that claims name. -/
theorem baseCycles_eq_rowCost (i : Instr) : i.baseCycles = rowCost i := by
  have h : ∀ op : Byte, (rowOf op).cyc = cycleTable.getD op.toNat 0 := by decide +kernel
  exact h i.opcode

/-- The matrix's page-cross column is the one that claims name. -/
theorem pen_iff_crossPenalty (op : Byte) : (rowOf op).pen = .p ↔ op ∈ crossPenalty := by
  revert op; decide +kernel

theorem readCycles_ofMode (m : Operand) : readCycles (Operand.ofMode m.mode) = readCycles m := by cases m <;> rfl
theorem writeCycles_ofMode (m : Operand) : writeCycles (Operand.ofMode m.mode) = writeCycles m := by cases m <;> rfl
theorem rmwCycles_ofMode (m : Operand) : rmwCycles (Operand.ofMode m.mode) = rmwCycles m := by cases m <;> rfl

theorem baseCycles_read {i : Instr} {m : Operand} (hs : Laws.Row.Statement i) (h : i.wf = true)
    (hm : i.mnemonic ∈ readMnemonics) (hmode : i.mode = m.mode) : i.baseCycles = readCycles m := by
  obtain ⟨-, h2, h3, -⟩ := hs h
  rw [Instr.baseCycles, (matrix_costs _ (rowOf_mem i.opcode).1).1 (by rw [h2]; exact hm), h3, hmode, readCycles_ofMode]

theorem baseCycles_write {i : Instr} {m : Operand} (hs : Laws.Row.Statement i) (h : i.wf = true)
    (hm : i.mnemonic ∈ writeMnemonics) (hmode : i.mode = m.mode) : i.baseCycles = writeCycles m := by
  obtain ⟨-, h2, h3, -⟩ := hs h
  rw [Instr.baseCycles, (matrix_costs _ (rowOf_mem i.opcode).1).2.1 (by rw [h2]; exact hm), h3, hmode, writeCycles_ofMode]

theorem baseCycles_rmw {i : Instr} {m : Operand} (hs : Laws.Row.Statement i) (h : i.wf = true)
    (hm : i.mnemonic ∈ rmwMnemonics) (hmode : i.mode = m.mode) : i.baseCycles = rmwCycles m := by
  obtain ⟨-, h2, h3, -⟩ := hs h
  rw [Instr.baseCycles, (matrix_costs _ (rowOf_mem i.opcode).1).2.2 (by rw [h2]; exact hm), h3, hmode, rmwCycles_ofMode]

/-- A mode whose matrix row has no page-cross penalty never crosses. -/
theorem crossed_of_mode (m : Operand) (s : State) (h : ¬ (m.mode = .abx ∨ m.mode = .aby ∨ m.mode = .izy)) :
    (resolve m s).crossed = false := by
  cases m <;> first | rfl | exact absurd (by simp [Operand.mode]) h

end Sys2Proof.Machine
end

