-- ==== Sys2Proof/Laws/Render.lean ====
section
/-!
SUPPORT. What rendering a line and ticking the PPU can do, said once: the rows written, their lengths, what a column of them
is, how ticks add up.
-/

namespace Sys2Proof.Machine

@[simp] theorem bgLine_length (c : Cart) (p : Ppu) (y : Nat) : (bgLine c p y).length = 256 := by
  simp [bgLine]

/-- A column of the background line. -/
theorem bgLine_get (c : Cart) (p : Ppu) (y x : Nat) (h : x < 256) : (bgLine c p y)[x]? = some (bgColumn c p y x) := by
  simp [bgLine, h]

/-- A column of the mask of the line. -/
theorem bgMask_getD (c : Cart) (p : Ppu) (y x : Nat) (h : x < 256) :
    ((bgLine c p y).map Prod.fst).getD x 0 = (bgColumn c p y x).1 := by
  rw [List.getD_eq_getElem?_getD, List.getElem?_map, bgLine_get c p y x h]
  rfl

@[simp] theorem drawSpriteColumn_length (p : Ppu) (s : Sprite) (pl : Byte × Byte) (bg : List (BitVec 2)) (l : List Pixel)
    (col : Nat) : (drawSpriteColumn p s pl bg l col).length = l.length := by
  unfold drawSpriteColumn
  dsimp only
  split
  · rfl
  split
  · rfl
  split
  · rfl
  split
  · rfl
  · exact List.length_set ..

theorem foldl_length {α : Type} (f : List Pixel → α → List Pixel) (hf : ∀ l a, (f l a).length = l.length) (as : List α) :
    ∀ l, (as.foldl f l).length = l.length := by
  induction as with
  | nil => intro l; rfl
  | cons a as ih => intro l; rw [List.foldl_cons, ih, hf]

@[simp] theorem drawSprite_length (c : Cart) (p : Ppu) (y : Nat) (bg : List (BitVec 2)) (l : List Pixel) (i : Nat) :
    (drawSprite c p y bg l i).length = l.length := by
  unfold drawSprite
  dsimp only
  split
  · rfl
  · exact foldl_length _ (fun l a => drawSpriteColumn_length ..) _ _

@[simp] theorem spriteLine_length (c : Cart) (p : Ppu) (y : Nat) (bg : List (BitVec 2)) (l : List Pixel) :
    (spriteLine c p y bg l).length = l.length := by
  unfold spriteLine
  split
  · exact foldl_length _ (fun l a => drawSprite_length ..) _ _
  · rfl

/-- The mask row a line leaves. -/
theorem renderLine_maskRow (c : Cart) (p : Ppu) (y : Nat) :
    (renderLine c p y).maskRow y = (bgLine c p y).map Prod.fst := by
  simp only [renderLine, Ppu.maskRow, Cells.read_write, if_true]

/-- The framebuffer row a line leaves. -/
theorem renderLine_row (c : Cart) (p : Ppu) (y : Nat) : (renderLine c p y).row y =
    spriteLine c p y ((bgLine c p y).map Prod.fst) ((bgLine c p y).map fun e => pixelOf e.2) := by
  simp only [renderLine, Ppu.row, Cells.read_write, if_true]

/-- Every other row stays. -/
theorem renderLine_other (c : Cart) (p : Ppu) (y z : Nat) (h : z ≠ y) :
    (renderLine c p y).row z = p.row z ∧ (renderLine c p y).maskRow z = p.maskRow z := by
  have h' : y ≠ z := fun e => h e.symm
  simp only [renderLine, Ppu.row, Ppu.maskRow, Cells.read_write, if_neg h', and_self]

/-- What column `x` holds after one column of a sprite is drawn. -/
theorem drawSpriteColumn_get (p : Ppu) (s : Sprite) (pl : Byte × Byte) (bg : List (BitVec 2)) (l : List Pixel) (col x : Nat)
    (hx : x < 256) (hl : l.length = 256) : (drawSpriteColumn p s pl bg l col)[x]? =
      if s.x.toNat + col = x ∧ spriteColumn s pl col ≠ 0 ∧ ¬ (x < 8 ∧ p.sprLeft8 = false) ∧
          ¬ (s.attr.getLsbD 5 = true ∧ bg.getD x 0 ≠ 0) then
        some (pixelOf (p.palette.read (0x10 + (s.attr &&& 3).toNat * 4 + (spriteColumn s pl col).toNat)))
      else l[x]? := by
  unfold drawSpriteColumn
  dsimp only
  generalize s.x.toNat + col = px
  generalize spriteColumn s pl col = ci
  by_cases h1 : px > 255
  · rw [if_pos h1, if_neg (by omega)]
  rw [if_neg h1]
  by_cases h2 : ci = 0
  · rw [if_pos h2, if_neg (fun h => h.2.1 h2)]
  rw [if_neg h2]
  by_cases e : px = x
  · subst e
    by_cases h3 : px < 8 ∧ p.sprLeft8 = false
    · rw [if_pos h3, if_neg (fun h => h.2.2.1 h3)]
    rw [if_neg h3]
    by_cases h4 : s.attr.getLsbD 5 = true ∧ bg.getD px 0 ≠ 0
    · rw [if_pos h4, if_neg (fun h => h.2.2.2 h4)]
    · rw [if_neg h4, if_pos ⟨rfl, h2, h3, h4⟩, List.getElem?_set_self (by omega)]
  · simp only [e, false_and, if_false]
    split
    · rfl
    split
    · rfl
    · exact List.getElem?_set_ne e

/-- What column `x` holds after some columns of a sprite are drawn. -/
theorem drawSpriteColumns_get (p : Ppu) (s : Sprite) (pl : Byte × Byte) (bg : List (BitVec 2)) (x : Nat) (hx : x < 256)
    (cols : List Nat) : ∀ l : List Pixel, l.length = 256 →
      (cols.foldl (drawSpriteColumn p s pl bg) l)[x]? =
        if s.x.toNat ≤ x ∧ x - s.x.toNat ∈ cols ∧ spriteColumn s pl (x - s.x.toNat) ≠ 0 ∧ ¬ (x < 8 ∧ p.sprLeft8 = false) ∧
            ¬ (s.attr.getLsbD 5 = true ∧ bg.getD x 0 ≠ 0) then
          some (pixelOf (p.palette.read
            (0x10 + (s.attr &&& 3).toNat * 4 + (spriteColumn s pl (x - s.x.toNat)).toNat)))
        else l[x]? := by
  induction cols with
  | nil => intro l _; rw [if_neg (fun h => by cases h.2.1)]; rfl
  | cons col cols ih =>
    intro l hl
    rw [List.foldl_cons, ih _ (by rw [drawSpriteColumn_length]; exact hl), drawSpriteColumn_get p s pl bg l col x hx hl]
    by_cases hq : ¬ (x < 8 ∧ p.sprLeft8 = false) ∧ ¬ (s.attr.getLsbD 5 = true ∧ bg.getD x 0 ≠ 0)
    swap
    · simp only [hq, and_false, if_false]
    simp only [hq.1, hq.2, not_false_eq_true, and_true]
    by_cases e : s.x.toNat + col = x
    · have ec : x - s.x.toNat = col := by omega
      have le : s.x.toNat ≤ x := by omega
      simp only [ec, e, le, List.mem_cons_self, true_and]
      by_cases g : spriteColumn s pl col = 0
      · simp only [g, ne_eq, not_true_eq_false, and_false, if_false]
      · simp only [g, ne_eq, not_false_eq_true, and_true, if_true, ite_self]
    · simp only [e, false_and, if_false]
      by_cases le : s.x.toNat ≤ x
      · have ne : x - s.x.toNat ≠ col := by omega
        simp only [List.mem_cons, ne, false_or]
      · simp only [le, false_and, if_false]

/-- The palette entry that sprite `i` puts at screen column `px` of row `y`, in the words of `Machine/PpuRender.lean`. -/
def spritePixel (c : Cart) (p : Ppu) (y px i : Nat) : Option Byte :=
  let s := p.sprite i
  match spriteRow p s y with
  | none => none
  | some r =>
    let col := px - s.x.toNat
    let ci := spriteColumn s (spritePattern c p s r) col
    if px < s.x.toNat ∨ 8 ≤ col ∨ ci = 0 ∨ (px < 8 ∧ p.sprLeft8 = false) ∨
        (s.attr.getLsbD 5 = true ∧ (bgColumn c p y px).1 ≠ 0) then none
    else some (p.palette.read (0x10 + (s.attr &&& 3).toNat * 4 + ci.toNat))

theorem getLsbD_eq_div (v : Byte) (b : Nat) : v.getLsbD b = decide (v.toNat / 2 ^ b % 2 = 1) := by
  rw [BitVec.getLsbD, Nat.testBit_eq_decide_div_mod_eq]

theorem planePixel_toNat (lo hi : Byte) (b : Nat) :
    (planePixel lo hi b).toNat = 2 * (hi.toNat / 2 ^ b % 2) + lo.toNat / 2 ^ b % 2 := by
  rw [planePixel, getLsbD_eq_div, getLsbD_eq_div]
  have h1 : hi.toNat / 2 ^ b % 2 = 0 ∨ hi.toNat / 2 ^ b % 2 = 1 := by omega
  have h2 : lo.toNat / 2 ^ b % 2 = 0 ∨ lo.toNat / 2 ^ b % 2 = 1 := by omega
  rcases h1 with h1 | h1 <;> rcases h2 with h2 | h2 <;> rw [h1, h2] <;> rfl

/-- The rows and columns that `renderLine` writes into the mask. -/
theorem renderLine_maskRow_get (c : Cart) (p : Ppu) (y x : Nat) (h : x < 256) :
    ((renderLine c p y).maskRow y)[x]? = some (bgColumn c p y x).1 := by
  rw [renderLine_maskRow, List.getElem?_map, bgLine_get c p y x h]; rfl

theorem spr16_eq (p : Ppu) : p.spr16 = decide (p.ctrl.toNat / 32 % 2 = 1) := getLsbD_eq_div _ 5

theorem sprEn_eq (p : Ppu) : p.sprEn = decide (p.mask.toNat / 16 % 2 = 1) := getLsbD_eq_div _ 4

theorem sprLeft8_eq (p : Ppu) : p.sprLeft8 = decide (p.mask.toNat / 4 % 2 = 1) := getLsbD_eq_div _ 2

theorem bgEn_eq (p : Ppu) : p.bgEn = decide (p.mask.toNat / 8 % 2 = 1) := getLsbD_eq_div _ 3

theorem bgLeft8_eq (p : Ppu) : p.bgLeft8 = decide (p.mask.toNat / 2 % 2 = 1) := getLsbD_eq_div _ 1

/-- The planes of a sprite's row in numbers (R343). -/
theorem spritePattern_eq (c : Cart) (p : Ppu) (s : Sprite) (r : Nat) : spritePattern c p s r =
    let tall := p.ctrl.toNat / 32 % 2 = 1
    let h := if tall then 16 else 8
    let fr := if s.attr.toNat / 128 = 1 then h - 1 - r else r
    let pa := if tall then s.tile.toNat % 2 * 0x1000 + (s.tile.toNat / 2 * 2 + fr / 8) * 16 + fr % 8
      else p.ctrl.toNat / 8 % 2 * 0x1000 + s.tile.toNat * 16 + fr
    (ppuRd c p pa, ppuRd c p (pa + 8)) := by
  have e7 : s.attr.getLsbD 7 = decide (s.attr.toNat / 128 = 1) := by
    rw [getLsbD_eq_div]
    have := s.attr.isLt
    congr 1
    exact propext ⟨fun h => by omega, fun h => by omega⟩
  have e0 : bitNat (s.tile.getLsbD 0) = s.tile.toNat % 2 := by
    generalize s.tile = v; revert v; decide
  have em : (s.tile &&& 0xFE).toNat = s.tile.toNat / 2 * 2 := by
    generalize s.tile = v; revert v; decide
  have eb : bitNat p.sprBank = p.ctrl.toNat / 8 % 2 := by
    rw [Ppu.sprBank]; generalize p.ctrl = v; revert v; decide
  unfold spritePattern
  dsimp only
  rw [e7, e0, em, eb, Ppu.spriteHeight, spr16_eq]
  simp only [decide_eq_true_eq]

/-- The claims' sprite pixel is the model's. -/
theorem spriteEntry_eq (c : Cart) (p : Ppu) (y px i : Nat) (hx : px < 256) :
    spriteEntry c p y px i = spritePixel c p y px i := by
  unfold spriteEntry spritePixel spriteRow
  rw [renderLine_maskRow_get c p y px hx]
  have e5 : (p.sprite i).attr.getLsbD 5 = decide ((p.sprite i).attr.toNat / 32 % 2 = 1) := getLsbD_eq_div _ 5
  have e6 : (p.sprite i).attr.getLsbD 6 = decide ((p.sprite i).attr.toNat / 64 % 2 = 1) := getLsbD_eq_div _ 6
  have e3 : ((p.sprite i).attr &&& 3).toNat = (p.sprite i).attr.toNat % 4 := by
    generalize (p.sprite i).attr = v; revert v; decide
  have hs : p.oam.read (4 * i) = (p.sprite i).y ∧ p.oam.read (4 * i + 1) = (p.sprite i).tile ∧
      p.oam.read (4 * i + 2) = (p.sprite i).attr ∧ p.oam.read (4 * i + 3) = (p.sprite i).x := ⟨rfl, rfl, rfl, rfl⟩
  rw [hs.1, hs.2.1, hs.2.2.1, hs.2.2.2, Ppu.spriteHeight, spr16_eq]
  generalize p.sprite i = s at *
  simp only [decide_eq_true_eq, ge_iff_le]
  generalize hh : (if p.ctrl.toNat / 32 % 2 = 1 then 16 else 8) = h
  by_cases hr : s.y.toNat < 0xEF ∧ s.y.toNat + 1 ≤ y ∧ y < s.y.toNat + 1 + h
  swap
  · rw [if_neg (fun hq => hr ⟨hq.1, hq.2.1, hq.2.2.1⟩)]
    by_cases h1 : 0xEF ≤ s.y.toNat
    · rw [if_pos h1]
    · by_cases h2 : y < s.y.toNat + 1
      · rw [if_neg h1, if_pos h2]
      · rw [if_neg h1, if_neg h2, if_pos (by omega)]
  rw [if_neg (by omega : ¬ 0xEF ≤ s.y.toNat), if_neg (by omega : ¬ y < s.y.toNat + 1),
    if_neg (by omega : ¬ h ≤ y - (s.y.toNat + 1))]
  dsimp only
  rw [spritePattern_eq, spriteColumn, e6, e5, e3, sprLeft8_eq]
  simp only [decide_eq_true_eq, hh]
  simp only [← planePixel_toNat]
  generalize planePixel _ _ _ = ci
  generalize (bgColumn c p y px).1 = b
  have hz : ci = 0 ↔ ci.toNat = 0 := ⟨fun h => by rw [h]; rfl, fun h => BitVec.eq_of_toNat_eq h⟩
  by_cases hp : s.x.toNat ≤ px ∧ px < s.x.toNat + 8 ∧ ci.toNat ≠ 0 ∧ (px < 8 → p.mask.toNat / 4 % 2 = 1) ∧
      (s.attr.toNat / 32 % 2 = 1 → some b = some 0)
  · rw [if_pos ⟨hr.1, hr.2.1, hr.2.2, hp⟩, if_neg]
    rintro (h1 | h1 | h1 | h1 | h1)
    · omega
    · omega
    · exact hp.2.2.1 (hz.1 h1)
    · exact of_decide_eq_false h1.2 (hp.2.2.2.1 h1.1)
    · exact h1.2 (Option.some.inj (hp.2.2.2.2 h1.1))
  · rw [if_neg (fun hq => hp hq.2.2.2), if_pos]
    by_contra hq
    simp only [not_or, not_and] at hq
    refine hp ⟨by omega, by omega, fun h1 => hq.2.2.1 (hz.2 h1), fun h1 => ?_, fun h1 => ?_⟩
    · exact of_decide_eq_true (by simpa using hq.2.2.2.1 h1)
    · exact congrArg some (by simpa using hq.2.2.2.2 h1)

/-- What column `x` holds after a sprite is drawn: the sprite's entry, if it puts one there (R341). -/
theorem drawSprite_get (c : Cart) (p : Ppu) (y x i : Nat) (hx : x < 256) (l : List Pixel) (hl : l.length = 256) :
    (drawSprite c p y ((bgLine c p y).map Prod.fst) l i)[x]? =
      match spritePixel c p y x i with
      | some e => some (pixelOf e)
      | none => l[x]? := by
  unfold drawSprite spritePixel
  dsimp only
  cases hr : spriteRow p (p.sprite i) y with
  | none => rfl
  | some r =>
    dsimp only
    rw [drawSpriteColumns_get _ _ _ _ x hx _ l hl, bgMask_getD c p y x hx]
    generalize p.sprite i = s
    generalize (bgColumn c p y x).1 = b
    generalize hci : spriteColumn s (spritePattern c p s r) (x - s.x.toNat) = ci
    by_cases h : x < s.x.toNat ∨ 8 ≤ x - s.x.toNat ∨ ci = 0 ∨ (x < 8 ∧ p.sprLeft8 = false) ∨
        (s.attr.getLsbD 5 = true ∧ b ≠ 0)
    · rw [if_pos h]
      rw [if_neg]
      rintro ⟨h1, h2, h3, h4, h5⟩
      rw [List.mem_range] at h2
      rcases h with h | h | h | h | h
      · omega
      · omega
      · exact h3 h
      · exact h4 h
      · exact h5 h
    · rw [if_neg h]
      simp only [not_or] at h
      rw [if_pos ⟨by omega, List.mem_range.2 (by omega), h.2.2.1, h.2.2.2.1, h.2.2.2.2⟩]

/-- What column `x` holds after the sprites of a list are drawn in its order. -/
theorem drawSprites_get (c : Cart) (p : Ppu) (y x : Nat) (hx : x < 256) (is : List Nat) : ∀ l : List Pixel, l.length = 256 →
    (is.foldl (drawSprite c p y ((bgLine c p y).map Prod.fst)) l)[x]? =
      match is.reverse.findSome? (spritePixel c p y x) with
      | some e => some (pixelOf e)
      | none => l[x]? := by
  induction is with
  | nil => intro l _; rfl
  | cons i is ih =>
    intro l hl
    rw [List.foldl_cons, ih _ (by rw [drawSprite_length]; exact hl), List.reverse_cons, List.findSome?_append]
    cases is.reverse.findSome? (spritePixel c p y x) with
    | some e => rfl
    | none =>
      dsimp only
      rw [drawSprite_get c p y x i hx l hl]
      cases h : spritePixel c p y x i <;> simp [h]

/-- What column `x` of a line is: the entry of the first sprite that puts one there, or the background (R341, R345). -/
theorem renderLine_get (c : Cart) (p : Ppu) (x y : Nat) (hx : x < 256) : ((renderLine c p y).row y)[x]? =
    some (pixelOf (if p.sprEn then ((List.range 64).findSome? (spritePixel c p y x)).getD (bgColumn c p y x).2
      else (bgColumn c p y x).2)) := by
  rw [renderLine_row, spriteLine]
  have hb : ((bgLine c p y).map fun e => pixelOf e.2)[x]? = some (pixelOf (bgColumn c p y x).2) := by
    rw [List.getElem?_map, bgLine_get c p y x hx]; rfl
  split
  · rw [drawSprites_get c p y x hx _ _ (by simp), List.reverse_reverse]
    cases (List.range 64).findSome? (spritePixel c p y x) with
    | some e => rfl
    | none => exact hb
  · exact hb

/-- A tick leaves a machine in the fault state alone (R381). -/
theorem ppuTick_fault (n : Nat) (s : State) (k : TrapKind) (h : s.fault = some k) : ppuTick n s = s := by
  unfold ppuTick; rw [h]

/-- A tick of a machine that is not in the fault state. -/
theorem ppuTick_run (n : Nat) (s : State) (h : s.fault = none) : ppuTick n s =
    enterScanlines ((s.ppu.dot + n) / 341) { s with ppu := { s.ppu with dot := (s.ppu.dot + n) % 341 } } := by
  unfold ppuTick; simp only [h]

/-- Entering a scanline changes, beside the picture and the status, only `nmi_pending`. -/
theorem nextScanline_frame (s : State) : nextScanline s = { s with
    nmiPending := (nextScanline s).nmiPending
    ppu := { s.ppu with
      scanline := (s.ppu.scanline + 1) % 262
      vblank := (nextScanline s).ppu.vblank
      spr0hit := (nextScanline s).ppu.spr0hit
      framebuffer := (nextScanline s).ppu.framebuffer
      bgmask := (nextScanline s).ppu.bgmask } } := by
  unfold nextScanline enterScanline
  dsimp only
  generalize (s.ppu.scanline + 1) % 262 = y
  by_cases h1 : y ≤ 239
  · simp only [h1, if_true, renderLine]
  simp only [h1, if_false]
  by_cases h2 : y = 241
  · simp only [h2, if_true, vblankStart]
  simp only [h2, if_false]
  by_cases h3 : y = 261
  · simp only [h3, if_true, preRender]
  · simp only [h3, if_false]

theorem nextScanline_scanline (s : State) : (nextScanline s).ppu.scanline = (s.ppu.scanline + 1) % 262 := by
  rw [nextScanline_frame]

theorem nextScanline_dot (s : State) : (nextScanline s).ppu.dot = s.ppu.dot := by rw [nextScanline_frame]

theorem nextScanline_fault (s : State) : (nextScanline s).fault = s.fault := by rw [nextScanline_frame]

theorem nextScanline_ctrl (s : State) : (nextScanline s).ppu.ctrl = s.ppu.ctrl := by rw [nextScanline_frame]

/-- The dot plays no part in entering a scanline. -/
theorem nextScanline_withDot (s : State) (d : Nat) : nextScanline { s with ppu := { s.ppu with dot := d } } =
    { nextScanline s with ppu := { (nextScanline s).ppu with dot := d } } := by
  unfold nextScanline enterScanline
  dsimp only
  generalize (s.ppu.scanline + 1) % 262 = y
  by_cases h1 : y ≤ 239
  · simp only [h1, if_true]; rfl
  simp only [h1, if_false]
  by_cases h2 : y = 241
  · simp only [h2, if_true]; rfl
  simp only [h2, if_false]
  by_cases h3 : y = 261
  · simp only [h3, if_true]; rfl
  · simp only [h3, if_false]

theorem enterScanlines_withDot (n d : Nat) : ∀ s : State, enterScanlines n { s with ppu := { s.ppu with dot := d } } =
    { enterScanlines n s with ppu := { (enterScanlines n s).ppu with dot := d } } := by
  induction n with
  | zero => intro s; rfl
  | succ n ih => intro s; rw [enterScanlines, nextScanline_withDot, ih]; rfl

theorem enterScanlines_add (m n : Nat) : ∀ s : State, enterScanlines (m + n) s = enterScanlines n (enterScanlines m s) := by
  induction m with
  | zero => intro s; rw [Nat.zero_add]; rfl
  | succ m ih => intro s; rw [Nat.add_right_comm, enterScanlines, ih]; rfl

theorem enterScanlines_scanline (n : Nat) : ∀ s : State, s.ppu.scanline < 262 →
    (enterScanlines n s).ppu.scanline = (s.ppu.scanline + n) % 262 := by
  induction n with
  | zero => intro s h; exact (Nat.mod_eq_of_lt h).symm
  | succ n ih =>
    intro s h
    rw [enterScanlines, ih _ (by rw [nextScanline_scanline]; exact Nat.mod_lt _ (by decide)), nextScanline_scanline]
    omega

theorem enterScanlines_dot (n : Nat) : ∀ s : State, (enterScanlines n s).ppu.dot = s.ppu.dot := by
  induction n with
  | zero => intro s; rfl
  | succ n ih => intro s; rw [enterScanlines, ih, nextScanline_dot]

theorem enterScanlines_fault (n : Nat) : ∀ s : State, (enterScanlines n s).fault = s.fault := by
  induction n with
  | zero => intro s; rfl
  | succ n ih => intro s; rw [enterScanlines, ih, nextScanline_fault]

theorem enterScanlines_ctrl (n : Nat) : ∀ s : State, (enterScanlines n s).ppu.ctrl = s.ppu.ctrl := by
  induction n with
  | zero => intro s; rfl
  | succ n ih => intro s; rw [enterScanlines, ih, nextScanline_ctrl]

/-- VBlank and the NMI request when a scanline is entered (R334, R335). -/
theorem nextScanline_vblank (s : State) :
    (nextScanline s).ppu.vblank = (if (s.ppu.scanline + 1) % 262 = 241 then true
      else if (s.ppu.scanline + 1) % 262 = 261 then false else s.ppu.vblank) ∧
    (nextScanline s).nmiPending =
      (s.nmiPending || (decide ((s.ppu.scanline + 1) % 262 = 241) && s.ppu.nmiEn)) := by
  unfold nextScanline enterScanline
  dsimp only
  generalize (s.ppu.scanline + 1) % 262 = y
  by_cases h1 : y ≤ 239
  · have h2 : y ≠ 241 := by omega
    have h3 : y ≠ 261 := by omega
    simp [h1, h2, h3, renderLine]
  by_cases h2 : y = 241
  · simp only [h2, if_true, vblankStart]
    simp [Ppu.nmiEn]
  by_cases h3 : y = 261
  · simp [h3, preRender]
  · simp [h1, h2, h3]

end Sys2Proof.Machine
end

