-- ==== Sys2Proof/Laws/Invariant.lean ====
section
/-!
SUPPORT. The invariant, operation by operation: `Sound` is the invariant without its clause on the wait, which is 0 inside a
dispatch. Every bus access, every scanline and every tick keeps it.
-/

namespace Sys2Proof.Machine

/-- The invariant but for the wait. -/
def Sound (s : State) : Prop := State.Inv { s with remainingCycles := 1 }

theorem sound_iff (s : State) : s.Inv ↔ Sound s ∧ 1 ≤ s.remainingCycles := by
  constructor
  · intro h
    exact ⟨{ h with wait := Int.le_refl 1 }, h.wait⟩
  · rintro ⟨h, hw⟩
    exact { h with wait := hw }

/-- The registers, the flags, the wait, the fault, the NMI request, the interrupt line and the host's queue are not in it. -/
theorem Sound.congr {s t : State} (h : Sound s) (h1 : t.ram = s.ram) (h2 : t.cart = s.cart) (h3 : t.ppu = s.ppu)
    (h4 : t.joy1 = s.joy1) (h5 : t.joy2 = s.joy2) (h6 : t.config = s.config) (h7 : t.turn = s.turn) : Sound t := by
  unfold Sound at *
  constructor
  · exact h1 ▸ h.ram
  · exact h2 ▸ h.cart
  · exact h6 ▸ h.config
  · exact h3 ▸ h.vram
  · exact h3 ▸ h.palette
  · exact h3 ▸ h.paletteMirrors
  · exact h3 ▸ h.oam
  · exact h3 ▸ h.scanline
  · exact h3 ▸ h.dot
  · exact h3 ▸ h.framebuffer
  · exact h3 ▸ h.bgmask
  · exact h3 ▸ h.rows
  · exact h5 ▸ h4 ▸ h.joypads
  · exact h5 ▸ h4 ▸ h.strobes
  · exact h5 ▸ h.joy2
  · exact Int.le_refl 1
  · exact h7 ▸ h.budget

/-- The level of the interrupt line is in no clause. -/
theorem Sound.sampleIrq {s : State} (h : Sound s) : Sound (sampleIrq s) := h.congr rfl rfl rfl rfl rfl rfl rfl

/-- A write of RAM. -/
theorem Sound.ram {s : State} (h : Sound s) (k : Nat) (v : Byte) (hk : k < 0x800) :
    Sound { s with ram := s.ram.write k v } := by
  unfold Sound at *
  exact { h with ram := Memory.wf_write _ _ _ _ hk h.ram }

/-- Any change of the PPU that keeps its memories, its counters and its picture. -/
theorem Sound.ppuRegs {s : State} (h : Sound s) (p : Ppu) (h1 : p.vram = s.ppu.vram) (h2 : p.palette = s.ppu.palette)
    (h3 : p.oam = s.ppu.oam) (h4 : p.scanline = s.ppu.scanline) (h5 : p.dot = s.ppu.dot)
    (h6 : p.framebuffer = s.ppu.framebuffer) (h7 : p.bgmask = s.ppu.bgmask) : Sound { s with ppu := p } := by
  unfold Sound at *
  constructor
  · exact h.ram
  · exact h.cart
  · exact h.config
  · exact h1 ▸ h.vram
  · exact h2 ▸ h.palette
  · exact h2 ▸ h.paletteMirrors
  · exact h3 ▸ h.oam
  · exact h4 ▸ h.scanline
  · exact h5 ▸ h.dot
  · exact h6 ▸ h.framebuffer
  · exact h7 ▸ h.bgmask
  · simp only [Ppu.row, Ppu.maskRow] at *; rw [h6, h7]; exact h.rows
  · exact h.joypads
  · exact h.strobes
  · exact h.joy2
  · exact Int.le_refl 1
  · exact h.budget

/-- A write of OAM. -/
theorem Sound.oam {s : State} (h : Sound s) (k : Nat) (v : Byte) (hk : k < 0x100) :
    Sound { s with ppu := { s.ppu with oam := s.ppu.oam.write k v } } := by
  unfold Sound at *
  exact { h with oam := Memory.wf_write _ _ _ _ hk h.oam }

theorem ntIndex_lt (mir : Mirroring) (a : Nat) : ntIndex mir a < 0x800 := by
  unfold ntIndex
  dsimp only
  have h1 : (a - 0x2000) % 0x1000 < 0x1000 := Nat.mod_lt _ (by decide)
  generalize (a - 0x2000) % 0x1000 = r at h1
  cases mir <;> dsimp only <;> omega

theorem palIndex_spec (a : Nat) : palIndex a < 0x20 ∧ palIndex a ∉ [0x10, 0x14, 0x18, 0x1C] := by
  unfold palIndex
  dsimp only
  have h1 : a % 0x20 < 0x20 := Nat.mod_lt _ (by decide)
  generalize a % 0x20 = r at h1
  revert r
  decide

theorem Cart.wf_writeChr (c : Cart) (a : Nat) (v : Byte) (ha : a < 0x2000) (h : c.wf = true) : (c.writeChr a v).wf = true := by
  unfold Cart.writeChr
  split
  · rename_i hr
    have hr' : Cart.chrIsRam { c with chrRam := c.chrRam.write a v } = true := hr
    unfold Cart.wf at *
    simp only [Bool.and_eq_true] at *
    obtain ⟨⟨⟨h1, h2⟩, h3⟩, h4⟩ := h
    exact ⟨⟨⟨h1, h2⟩, Memory.wf_write _ _ _ _ ha h3⟩, by rw [hr']; rfl⟩
  · exact h

theorem Cart.wf_writePrg (c : Cart) (v : Byte) (h : c.wf = true) : (c.writePrg v).wf = true := by
  unfold Cart.writePrg
  split
  · exact h
  · rename_i hm
    unfold Cart.wf Cart.chrIsRam at *
    simp only [hm] at *
    exact h

/-- A write of the PPU bus. -/
theorem Sound.ppuWr {s : State} (h : Sound s) (a : Nat) (v : Byte) :
    Sound { s with cart := (ppuWr s.cart s.ppu a v).1, ppu := (ppuWr s.cart s.ppu a v).2 } := by
  unfold Machine.ppuWr
  have ha : a % 0x4000 < 0x4000 := Nat.mod_lt _ (by decide)
  generalize a % 0x4000 = n at ha
  by_cases h1 : n < 0x2000
  · rw [if_pos h1]
    unfold Sound at *
    exact { h with cart := Cart.wf_writeChr _ _ _ h1 h.cart }
  rw [if_neg h1]
  by_cases h2 : n < 0x3F00
  · rw [if_pos h2]
    unfold Sound at *
    exact { h with vram := Memory.wf_write _ _ _ _ (ntIndex_lt _ _) h.vram }
  · rw [if_neg h2]
    unfold Sound at *
    obtain ⟨p1, p2⟩ := palIndex_spec n
    refine { h with palette := Memory.wf_write _ _ _ _ p1 h.palette, paletteMirrors := fun i hi => ?_ }
    have ne : palIndex n ≠ i := by rintro rfl; exact p2 hi
    rw [Memory.read_write, if_neg ne]
    exact h.paletteMirrors i hi

theorem joypad_read (j : Joypad) (hi : j.index.toNat ≤ 8) (hs : j.strobe = true → j.index = 0) :
    j.read.2.index.toNat ≤ 8 ∧ (j.read.2.strobe = true → j.read.2.index = 0) ∧ j.read.2.buttons = j.buttons := by
  unfold Joypad.read
  split
  · exact ⟨hi, hs, rfl⟩
  · rename_i hst
    split
    · exact ⟨hi, hs, rfl⟩
    · refine ⟨?_, fun h => absurd h hst, rfl⟩
      show (j.index + 1).toNat ≤ 8
      rw [BitVec.toNat_add]
      simp
      omega

theorem joypad_write (j : Joypad) (v : Byte) (hi : j.index.toNat ≤ 8) :
    (j.write v).index.toNat ≤ 8 ∧ ((j.write v).strobe = true → (j.write v).index = 0) ∧ (j.write v).buttons = j.buttons := by
  unfold Joypad.write
  cases v.getLsbD 0
  · exact ⟨hi, fun h => absurd h Bool.false_ne_true, rfl⟩
  · exact ⟨Nat.zero_le _, fun _ => rfl, rfl⟩

theorem Sound.joy1 {s : State} (h : Sound s) (j : Joypad) (hi : j.index.toNat ≤ 8) (hs : j.strobe = true → j.index = 0) :
    Sound { s with joy1 := j } := by
  unfold Sound at *
  exact { h with joypads := ⟨hi, h.joypads.2⟩, strobes := ⟨hs, h.strobes.2⟩ }

theorem Sound.joy2 {s : State} (h : Sound s) (j : Joypad) (hi : j.index.toNat ≤ 8) (hs : j.strobe = true → j.index = 0)
    (hb : j.buttons = s.joy2.buttons) : Sound { s with joy2 := j } := by
  unfold Sound at *
  exact { h with joypads := ⟨h.joypads.1, hi⟩, strobes := ⟨h.strobes.1, hs⟩, joy2 := hb.trans h.joy2 }

/-- Every read keeps it. -/
theorem Sound.rd {a : Word} {s t : State} {v : Byte} (h : Sound s) (hr : rd a s = .ok v t) : Sound t := by
  unfold Machine.rd at hr
  simp only at hr
  split at hr
  · cases hr; exact h
  split at hr
  · unfold ppuRegRead at hr
    split at hr <;> cases hr
    · exact h.ppuRegs _ rfl rfl rfl rfl rfl rfl rfl
    · exact h
    · apply h.ppuRegs <;> rw [Ppu.dataRead_frame]
  split at hr
  · cases hr
    obtain ⟨j1, j2, -⟩ := joypad_read s.joy1 h.joypads.1 h.strobes.1
    exact h.joy1 _ j1 j2
  split at hr
  · cases hr
    obtain ⟨j1, j2, j3⟩ := joypad_read s.joy2 h.joypads.2 h.strobes.2
    exact h.joy2 _ j1 j2 j3
  split at hr
  · cases hr; exact h
  split at hr
  · cases hr; exact h
  · cases hr

theorem Sound.dmaBytes (v : Byte) : ∀ (n i : Nat) {s t : State}, Sound s → dmaBytes v n i s = .ok () t → Sound t := by
  intro n
  induction n with
  | zero => intro i s t h hr; cases hr; exact h
  | succ n ih =>
    intro i s t h hr
    rw [Machine.dmaBytes] at hr
    obtain ⟨b, u, h1, h2⟩ := Res.bind_eq_ok hr
    exact ih (i + 1) ((h.rd h1).oam _ b (Nat.mod_lt _ (by decide))) h2

/-- Every write keeps it. -/
theorem Sound.wr {a : Word} {s t : State} {v : Byte} (h : Sound s) (hr : wr a v s = .ok () t) : Sound t := by
  unfold Machine.wr at hr
  simp only at hr
  split at hr
  · cases hr; exact h.ram _ _ (Nat.mod_lt _ (by decide))
  split at hr
  · unfold ppuRegWrite at hr
    split at hr <;> cases hr
    · exact (h.ppuRegs { s.ppu with ctrl := v } rfl rfl rfl rfl rfl rfl rfl).congr rfl rfl rfl rfl rfl rfl rfl
    · exact h.ppuRegs _ rfl rfl rfl rfl rfl rfl rfl
    · exact h.ppuRegs _ rfl rfl rfl rfl rfl rfl rfl
    · exact (h.oam _ v s.ppu.oamAddr.isLt).ppuRegs _ rfl rfl rfl rfl rfl rfl rfl
    · apply h.ppuRegs <;> (unfold Ppu.scrollWrite; split <;> rfl)
    · apply h.ppuRegs <;> (unfold Ppu.addrWrite; split <;> rfl)
    · exact (h.ppuWr (s.ppu.vramAddr.toNat % 0x4000) v).ppuRegs _ rfl rfl rfl rfl rfl rfl rfl
  split at hr
  · rw [oamDma] at hr
    obtain ⟨b, u, h1, h2⟩ := Res.bind_eq_ok hr
    cases h2
    exact (Sound.dmaBytes v 256 0 h h1).congr rfl rfl rfl rfl rfl rfl rfl
  split at hr
  · cases hr
    obtain ⟨j1, j2, -⟩ := joypad_write s.joy1 v h.joypads.1
    exact h.joy1 _ j1 j2
  split at hr
  · cases hr
    obtain ⟨j1, j2, j3⟩ := joypad_write s.joy2 v h.joypads.2
    exact h.joy2 _ j1 j2 j3
  split at hr
  · cases hr; exact h
  · cases hr
    unfold Sound at *
    exact { h with cart := Cart.wf_writePrg _ _ h.cart }

/-- Every scanline keeps it. -/
theorem Sound.nextScanline {s : State} (h : Sound s) : Sound (nextScanline s) := by
  unfold Machine.nextScanline
  dsimp only
  have hy : (s.ppu.scanline + 1) % 262 < 262 := Nat.mod_lt _ (by decide)
  generalize (s.ppu.scanline + 1) % 262 = y at hy
  have h' : Sound { s with ppu := { s.ppu with scanline := y } } := by
    unfold Sound at *
    exact { h with scanline := hy }
  unfold enterScanline
  by_cases h1 : y ≤ 239
  · rw [if_pos h1]
    generalize { s with ppu := { s.ppu with scanline := y } } = t at h'
    unfold Sound at *
    refine { h' with
      framebuffer := ⟨Cells.wf_write _ _ _ _ h'.framebuffer.1, Cells.below_write _ _ _ _ _ (by omega) h'.framebuffer.2⟩
      bgmask := ⟨Cells.wf_write _ _ _ _ h'.bgmask.1, Cells.below_write _ _ _ _ _ (by omega) h'.bgmask.2⟩
      rows := fun z => ?_ }
    by_cases e : z = y
    · subst e
      constructor
      · show ((renderLine t.cart t.ppu z).row z).length = 256
        rw [renderLine_row, spriteLine_length]; simp
      · show ((renderLine t.cart t.ppu z).maskRow z).length = 256
        rw [renderLine_maskRow]; simp
    · have := renderLine_other t.cart t.ppu y z e
      show ((renderLine t.cart t.ppu y).row z).length = 256 ∧ ((renderLine t.cart t.ppu y).maskRow z).length = 256
      rw [this.1, this.2]
      exact h'.rows z
  rw [if_neg h1]
  split
  · exact (h'.ppuRegs { s.ppu with scanline := y, vblank := true } rfl rfl rfl rfl rfl rfl rfl).congr
      rfl rfl rfl rfl rfl rfl rfl
  split
  · exact h'.ppuRegs _ rfl rfl rfl rfl rfl rfl rfl
  · exact h'

theorem Sound.enterScanlines (n : Nat) : ∀ {s : State}, Sound s → Sound (enterScanlines n s) := by
  induction n with
  | zero => intro s h; exact h
  | succ n ih => intro s h; exact ih h.nextScanline

/-- Every tick of the PPU keeps it. -/
theorem Sound.ppuTick {s : State} (h : Sound s) (n : Nat) : Sound (ppuTick n s) := by
  cases hf : s.fault with
  | some k => rw [ppuTick_fault n s k hf]; exact h
  | none =>
    rw [ppuTick_run n s hf]
    refine Sound.enterScanlines _ ?_
    unfold Sound at *
    exact { h with dot := Nat.mod_lt _ (by decide) }

theorem enterScanlines_wait (n : Nat) : ∀ s : State, (enterScanlines n s).remainingCycles = s.remainingCycles := by
  induction n with
  | zero => intro s; rfl
  | succ n ih => intro s; rw [Machine.enterScanlines, ih, nextScanline_frame]

theorem ppuTick_wait (n : Nat) (s : State) : (ppuTick n s).remainingCycles = s.remainingCycles := by
  cases hf : s.fault with
  | some k => rw [ppuTick_fault n s k hf]
  | none => rw [ppuTick_run n s hf, enterScanlines_wait]

end Sys2Proof.Machine
end

