-- ==== Sys2Proof/Laws/Steps.lean ====
section
/-!
SUPPORT. What a dispatch can do, said once: nothing, an interrupt entry, or the fetch and execution of one instruction; and
the fetch from memory that is read without side effects.
-/

namespace Sys2Proof.Machine

theorem pendingVector_none {s : State} (h : Undisturbed s) : pendingVector s = none := by
  obtain ⟨-, h2, h3⟩ := h
  simp only [pendingVector, h2]
  cases hi : s.irqLine <;> simp_all

theorem dispatch_undisturbed {s : State} (h : Undisturbed s) : dispatch s =
    match fetch { s with remainingCycles := 0 } with
    | .trap k => raiseTrap s k
    | .ok i t => settle s (exec i t) := by
  unfold dispatch
  split
  · rename_i k hk; rw [h.1] at hk; cases hk
  · split
    · rename_i v hv; rw [pendingVector_none h] at hv; cases hv
    · rfl

/-- A dispatch is one of these. -/
theorem dispatch_cases (s : State) : (∃ k, s.fault = some k ∧ dispatch s = .next s) ∨
    (s.fault = none ∧ ∃ v, pendingVector s = some v ∧
      dispatch s = finish s (interruptEntry v s.pc false (acknowledge s))) ∨
    (s.fault = none ∧ pendingVector s = none ∧ ∃ k, fetch { s with remainingCycles := 0 } = .trap k ∧
      dispatch s = raiseTrap s k) ∨
    (s.fault = none ∧ pendingVector s = none ∧ ∃ i t, fetch { s with remainingCycles := 0 } = .ok i t ∧
      dispatch s = settle s (exec i t)) := by
  cases hd : dispatch s with
  | _ =>
    rw [← hd]
    unfold dispatch
    split
    · rename_i k hk; exact .inl ⟨k, hk, rfl⟩
    · rename_i hf
      split
      · rename_i v hv; exact .inr (.inl ⟨hf, v, hv, rfl⟩)
      · rename_i hv
        split
        · rename_i k hk; exact .inr (.inr (.inl ⟨hf, hv, k, hk, rfl⟩))
        · rename_i i t hi; exact .inr (.inr (.inr ⟨hf, hv, i, t, hi, rfl⟩))

/-- Every instruction answers a next state: taking a trap is one. -/
theorem exec_next (i : Instr) (s : State) : ∃ t, exec i s = .next t := by
  cases i with
  | brk =>
    show ∃ t, execBrk s = .next t
    unfold execBrk
    split
    · exact ⟨_, rfl⟩
    · exact finish_next _ _
  | bcc d | bcs d | beq d | bne d | bmi d | bpl d | bvc d | bvs d =>
    show ∃ t, branch d _ s = .next t
    unfold branch
    split <;> exact ⟨_, rfl⟩
  | _ => first | exact ⟨_, rfl⟩ | exact finish_next _ _

theorem settle_next (s t : State) : ∃ u, settle s (.next t) = .next u ∧
    ((t.fault = none ∧ u = t) ∨ ∃ k, t.fault = some k ∧ u = { s with fault := some k }) := by
  unfold settle
  cases h : t.fault with
  | none => exact ⟨t, by simp only [h], .inl ⟨rfl, rfl⟩⟩
  | some k => exact ⟨_, by simp only [h]; rfl, .inr ⟨k, rfl, rfl⟩⟩

/-- Every instruction, with the roll-back of its trap, goes on from the boundary as R431 and R381 say. -/
theorem settle_runsFrom (s t : State) (i : Instr) : ∃ u, settle s (exec i t) = .next u ∧ RunsFrom s i t u := by
  obtain ⟨v, hv⟩ := exec_next i t
  obtain ⟨u, hu, h⟩ := settle_next s v
  refine ⟨u, by rw [hv, hu], v, hv, ?_⟩
  rcases h with ⟨h0, rfl⟩ | ⟨k, hk, rfl⟩
  · exact ⟨fun _ => rfl, fun k hk => by rw [h0] at hk; cases hk⟩
  · exact ⟨fun h0 => (by rw [h0] at hk; cases hk), fun k' hk' => by rw [hk] at hk'; cases hk'; rfl⟩

/-- A read of a byte that `codeByte` gives has no side effect. -/
theorem rd_code {s t : State} {a : Word} {b : Byte} (h : codeByte s a = some b) (hr : t.ram = s.ram) (hc : t.cart = s.cart) :
    rd a t = .ok b t := by
  unfold codeByte at h
  by_cases h1 : a.toNat < 0x2000
  · rw [if_pos h1] at h
    cases h
    rw [rd_ram a t h1, State.ramAt, hr]
  · rw [if_neg h1] at h
    by_cases h2 : a.toNat < 0x8000
    · rw [if_pos h2] at h; cases h
    · rw [if_neg h2] at h
      cases hp : s.cart.readPrg a.toNat with
      | ok v => rw [hp] at h; cases h; exact (rd_prg a t (by omega)).1 _ (by rw [hc]; exact hp)
      | error k => rw [hp] at h; cases h

/-- The bytes at PC, where reading has no side effect, are what the fetch decodes. -/
theorem fetch_code {s t : State} {i : Instr} {bs : List Byte} (hd : decode bs = .ok (i, [])) (h : CodeAt s s.pc bs)
    (hr : t.ram = s.ram) (hc : t.cart = s.cart) (hp : t.pc = s.pc) : fetch t = .ok i t := by
  match bs with
  | [] => cases hd
  | op :: rest =>
    obtain ⟨h0, h⟩ := h
    unfold decode at hd
    simp only at hd
    unfold fetch
    rw [hp, rd_code h0 hr hc, Res.bind_ok]
    split at hd
    · rename_i hl; cases hd; rw [hl]; rfl
    · rename_i l rest' hl
      cases hd
      obtain ⟨h1, -⟩ := h
      rw [hl]
      simp only
      rw [rd_code h1 hr hc, Res.bind_ok]
    · rename_i l h' rest' hl
      cases hd
      obtain ⟨h1, h2, -⟩ := h
      have e : s.pc + 1 + 1 = s.pc + 2 := by rw [BitVec.add_assoc]; rfl
      rw [e] at h2
      rw [hl]
      simp only
      rw [rd_code h1 hr hc, Res.bind_ok, rd_code h2 hr hc, Res.bind_ok]
    · cases hd

end Sys2Proof.Machine
end

