-- ==== Sys2Proof/Tests/Slice0.lean ====
section
/-!
SUPPORT. Tests of this model, and a witness for the hypotheses of every obligation. The expected results of the tests are
those of `95_test_vectors.md`, section 2, whose identifiers the names carry, and of the encoding columns of
`opcode_table.json`.
-/

set_option Elab.async false

open Sys2Proof Sys2Proof.Machine

namespace Sys2Proof.Tests

/-! Helpers. -/

/-- The cartridge of the vectors: NROM, two PRG banks, vertical mirroring, the vectors 9000, 8000, A000, and a few tiles. -/
def testCart : Cart :=
  { Cart.blank with
    mirroring := .vertical
    prg := [(0x7FFB, 0x90), (0x7FFD, 0x80), (0x7FFF, 0xA0)]
    chr := [(0x10, 0x80)] ++ (Memory.ofBytes 0x20 (List.replicate 16 0xFF)) ++ [(0x40, 0x80)] }

/-- A UxROM cartridge of four banks, the first byte of each telling its number, and CHR RAM. -/
def testUxrom : Cart :=
  { Cart.blank with
    mapper := .uxrom
    prgBanks := 4
    chrBanks := 0
    prg := [(0, 0xB0), (0x4000, 0xB1), (0x8000, 0xB2), (0xC000, 0xB3)] }

/-- The reset state with code at an address in RAM, other cells of RAM set, and PC at the code. -/
def code (pc : Word) (bs : List Byte) (cells : List (Nat × Byte)) : State :=
  { State.reset with
    cart := testCart
    pc := pc
    ram := cells.foldl (fun m c => m.write c.1 c.2) (Memory.ofBytes pc.toNat bs) }

/-- A state for device tests. -/
def base : State := { State.reset with cart := testCart }

/-- The next state, or the state given. -/
def after (s : State) (r : Result) : State :=
  match r with
  | .next t => t
  | .fault _ | .refused _ => s

/-- An outcome is this next state. -/
def nextIs (r : Result) (t : State) : Bool :=
  match r with
  | .next u => decide (u = t)
  | .fault _ | .refused _ => false

/-- One dispatch leads to the state `f` makes of `s`, with this cost. -/
def runs (s : State) (f : State → State) (cost : Int) : Bool := nextIs (dispatch s) { f s with remainingCycles := cost }

/-- One dispatch traps, and nothing but `fault` changes. -/
def traps (s : State) (k : TrapKind) : Bool := nextIs (dispatch s) { s with fault := some k }

/-- A bus access: a write, or a read that must return a byte. -/
inductive Access where
  | w (a : Word) (v : Byte)
  | r (a : Word) (v : Byte)

/-- Bus accesses one after the other, each read checked; the state at the end. -/
def accesses : List Access → State → Option State
  | [], s => some s
  | .w a v :: as, s =>
    match wr a v s with
    | .ok _ t => accesses as t
    | .trap _ => none
  | .r a v :: as, s =>
    match rd a s with
    | .ok v' t => if v = v' then accesses as t else none
    | .trap _ => none

/-- The accesses succeed and what they leave meets `p`. -/
def leaves (as : List Access) (s : State) (p : State → Bool) : Bool := ((accesses as s).map p).getD false

/-! Well-formedness: an ill-formed term for each check. -/

theorem test_wf_refuses : ([.lda .acc, .ldx (.zpx 0), .ldy (.zpy 0), .sta (.imm 0), .stx (.abx 0), .sty (.aby 0), .adc .imp,
    .sbc .acc, .and (.zpy 0), .ora .imp, .eor .acc, .cmp (.zpy 0), .cpx (.zpx 0), .cpy (.abx 0), .bit (.imm 0), .inc .acc,
    .dec (.aby 0), .asl (.imm 0), .lsr (.aby 0), .rol (.izx 0), .ror .imp, .lax (.imm 0), .sax (.izy 0), .dcp .acc,
    .isb (.imm 0), .slo .acc, .rla (.imm 0), .sre (.zpy 0), .rra .imp, .anc 0x4B 0, .jam 0x00, .nopUndoc 0xEA .imp,
    .nopUndoc 0x04 (.abs 0), .invalid 0x00] : List Instr).all (fun i => !i.wf) = true := by decide

/-! Decoding: a word of the opcode table for every constructor. -/

theorem test_decode_loads_stores : ([
    ([0xB1, 0x34], .lda (.izy 0x34)), ([0xB6, 0x34], .ldx (.zpy 0x34)), ([0xBC, 0x34, 0x12], .ldy (.abx 0x1234)),
    ([0x99, 0x34, 0x12], .sta (.aby 0x1234)), ([0x96, 0x34], .stx (.zpy 0x34)), ([0x94, 0x34], .sty (.zpx 0x34))
    ] : List (List Byte × Instr)).all (fun e => decide (decode e.1 = .ok (e.2, []))) = true := by
  decide +kernel

theorem test_decode_transfers : ([
    ([0xAA], .tax), ([0xA8], .tay), ([0x8A], .txa), ([0x98], .tya), ([0xBA], .tsx), ([0x9A], .txs)
    ] : List (List Byte × Instr)).all (fun e => decide (decode e.1 = .ok (e.2, []))) = true := by
  decide +kernel

theorem test_decode_arithmetic : ([
    ([0x61, 0x34], .adc (.izx 0x34)), ([0xE9, 0x34], .sbc (.imm 0x34)), ([0x2D, 0x34, 0x12], .and (.abs 0x1234)),
    ([0x15, 0x34], .ora (.zpx 0x34)), ([0x59, 0x34, 0x12], .eor (.aby 0x1234)), ([0xDD, 0x34, 0x12], .cmp (.abx 0x1234)),
    ([0xE0, 0x34], .cpx (.imm 0x34)), ([0xC0, 0x34], .cpy (.imm 0x34)), ([0x24, 0x34], .bit (.zp 0x34)),
    ([0xFE, 0x34, 0x12], .inc (.abx 0x1234)), ([0xD6, 0x34], .dec (.zpx 0x34)), ([0xE8], .inx), ([0xC8], .iny),
    ([0xCA], .dex), ([0x88], .dey)
    ] : List (List Byte × Instr)).all (fun e => decide (decode e.1 = .ok (e.2, []))) = true := by
  decide +kernel

theorem test_decode_shifts : ([
    ([0x0A], .asl .acc), ([0x5E, 0x34, 0x12], .lsr (.abx 0x1234)), ([0x26, 0x34], .rol (.zp 0x34)),
    ([0x6E, 0x34, 0x12], .ror (.abs 0x1234))
    ] : List (List Byte × Instr)).all (fun e => decide (decode e.1 = .ok (e.2, []))) = true := by
  decide +kernel

theorem test_decode_control : ([
    ([0x4C, 0x34, 0x12], .jmp 0x1234), ([0x6C, 0x34, 0x12], .jmpInd 0x1234), ([0x20, 0x34, 0x12], .jsr 0x1234),
    ([0x60], .rts), ([0x40], .rti), ([0x00], .brk), ([0x90, 0x34], .bcc 0x34), ([0xB0, 0x34], .bcs 0x34),
    ([0xF0, 0x34], .beq 0x34), ([0xD0, 0x34], .bne 0x34), ([0x30, 0x34], .bmi 0x34), ([0x10, 0x34], .bpl 0x34),
    ([0x50, 0x34], .bvc 0x34), ([0x70, 0x34], .bvs 0x34)
    ] : List (List Byte × Instr)).all (fun e => decide (decode e.1 = .ok (e.2, []))) = true := by
  decide +kernel

theorem test_decode_stack_flags : ([
    ([0x48], .pha), ([0x08], .php), ([0x68], .pla), ([0x28], .plp), ([0x18], .clc), ([0x38], .sec), ([0x58], .cli),
    ([0x78], .sei), ([0xD8], .cld), ([0xF8], .sed), ([0xB8], .clv), ([0xEA], .nop)
    ] : List (List Byte × Instr)).all (fun e => decide (decode e.1 = .ok (e.2, []))) = true := by
  decide +kernel

theorem test_decode_undocumented : ([
    ([0xB3, 0x34], .lax (.izy 0x34)), ([0x97, 0x34], .sax (.zpy 0x34)), ([0xEB, 0x34], .usbc 0x34),
    ([0xDB, 0x34, 0x12], .dcp (.aby 0x1234)), ([0xE3, 0x34], .isb (.izx 0x34)), ([0x1F, 0x34, 0x12], .slo (.abx 0x1234)),
    ([0x33, 0x34], .rla (.izy 0x34)), ([0x57, 0x34], .sre (.zpx 0x34)), ([0x6F, 0x34, 0x12], .rra (.abs 0x1234)),
    ([0x2B, 0x34], .anc 0x2B 0x34), ([0x4B, 0x34], .alr 0x34), ([0xF2], .jam 0xF2),
    ([0xDC, 0x34, 0x12], .nopUndoc 0xDC (.abx 0x1234)), ([0xCB], .invalid 0xCB)
    ] : List (List Byte × Instr)).all (fun e => decide (decode e.1 = .ok (e.2, []))) = true := by
  decide +kernel


/-! The bits of one word of each family, as the encoding column writes them. -/

theorem test_decode_bits : ([
    ([0b10101001, 0b10000001], .lda (.imm 0x81)), ([0b10101010], .tax), ([0b01101101, 0b00000001, 0b10000000], .adc (.abs 0x8001)),
    ([0b00001010], .asl .acc), ([0b11010000, 0b11111001], .bne 0xF9), ([0b01001000], .pha),
    ([0b10100111, 0b00010000], .lax (.zp 0x10)), ([0b01101011], .invalid 0x6B)
    ] : List (List Byte × Instr)).all (fun e => decide (decode e.1 = .ok (e.2, []))) = true := by decide +kernel

/-- Bytes that end before the instruction does are refused by name. -/
theorem test_decode_truncated : decode [0xAD, 0x00] = .error (.truncated 3 2) := by decide +kernel

/-- The table's numbering: LDA #$34 is the 16-bit word 0x34A9, and JMP alone in its 8 bits has the operand 0. -/
theorem test_table_words : decodeTableWord 16 0x34A9 = some (.lda (.imm 0x34)) ∧ decodeTableWord 8 0x4C = some (.jmp 0) := by
  decide +kernel

/-- A word placed where the next step fetches runs as that step. -/
theorem test_withFetchWord : (after State.reset (step (State.reset.withFetchWord 16 0x34A9))).a = 0x34 := by decide +kernel

/-! One instruction on one state. -/

/-- LS3: LDA $10FF,X -/
theorem test_lda_LS3 :
    runs ({ code 0x0200 [0xBD, 0xFF, 0x10] [(0x100, 0x7F)] with x := 0x01, p := .ofByte 0x24 })
      (fun s => { s with a := 0x7F, p := .ofByte 0x24, pc := 0x0203 }) 5 = true := by
  decide +kernel

/-- LS5: LDA ($FF),Y -/
theorem test_lda_LS5 :
    runs ({ code 0x0200 [0xB1, 0xFF] [(0xFF, 0x00), (0x0, 0x03), (0x310, 0xAB)] with y := 0x10, p := .ofByte 0x24 })
      (fun s => { s with a := 0xAB, p := .ofByte 0xA4, pc := 0x0202 }) 5 = true := by
  decide +kernel

/-- LS8: LDX $FF,Y -/
theorem test_ldx_LS8 :
    runs ({ code 0x0200 [0xB6, 0xFF] [(0x1, 0x77)] with y := 0x02, p := .ofByte 0x24 })
      (fun s => { s with x := 0x77, p := .ofByte 0x24, pc := 0x0202 }) 4 = true := by
  decide +kernel

/-- LS9: LDY $0300,X -/
theorem test_ldy_LS9 :
    runs ({ code 0x0200 [0xBC, 0x00, 0x03] [(0x305, 0x00)] with x := 0x05, p := .ofByte 0x24 })
      (fun s => { s with p := .ofByte 0x26, pc := 0x0203 }) 4 = true := by
  decide +kernel

/-- LS10: STA $10FF,X -/
theorem test_sta_LS10 :
    runs ({ code 0x0200 [0x9D, 0xFF, 0x10] [] with a := 0x5A, x := 0x01, p := .ofByte 0x24 })
      (fun s => { s with p := .ofByte 0x24, pc := 0x0203, ram := s.ram.write 0x100 0x5A }) 5 = true := by
  decide +kernel

/-- LS12: STA ($40),Y -/
theorem test_sta_LS12 :
    runs ({ code 0x0200 [0x91, 0x40] [(0x40, 0x01), (0x41, 0x03)] with a := 0xEE, y := 0xFF, p := .ofByte 0x24 })
      (fun s => { s with p := .ofByte 0x24, pc := 0x0202, ram := s.ram.write 0x400 0xEE }) 6 = true := by
  decide +kernel

/-- LS13: STX $10,Y -/
theorem test_stx_LS13 :
    runs ({ code 0x0200 [0x96, 0x10] [] with x := 0x33, y := 0xF8, p := .ofByte 0x24 })
      (fun s => { s with p := .ofByte 0x24, pc := 0x0202, ram := s.ram.write 0x8 0x33 }) 4 = true := by
  decide +kernel

/-- LS14: STY $7FFF -/
theorem test_sty_LS14 :
    runs ({ code 0x0200 [0x8C, 0xFF, 0x7F] [] with y := 0x44, p := .ofByte 0x24 })
      (fun s => { s with p := .ofByte 0x24, pc := 0x0203 }) 4 = true := by
  decide +kernel

/-- LS16: TAX -/
theorem test_tax_LS16 :
    runs ({ code 0x0200 [0xAA] [] with a := 0x00, x := 0x12, p := .ofByte 0x24 })
      (fun s => { s with x := 0x00, p := .ofByte 0x26, pc := 0x0201 }) 2 = true := by
  decide +kernel

/-- LS17: TAY -/
theorem test_tay_LS17 :
    runs ({ code 0x0200 [0xA8] [] with a := 0xF0, p := .ofByte 0x24 })
      (fun s => { s with y := 0xF0, p := .ofByte 0xA4, pc := 0x0201 }) 2 = true := by
  decide +kernel

/-- LS18: TXA -/
theorem test_txa_LS18 :
    runs ({ code 0x0200 [0x8A] [] with x := 0x7F, a := 0x80, p := .ofByte 0x24 })
      (fun s => { s with a := 0x7F, p := .ofByte 0x24, pc := 0x0201 }) 2 = true := by
  decide +kernel

/-- LS19: TYA -/
theorem test_tya_LS19 :
    runs ({ code 0x0200 [0x98] [] with y := 0x00, a := 0x01, p := .ofByte 0x24 })
      (fun s => { s with a := 0x00, p := .ofByte 0x26, pc := 0x0201 }) 2 = true := by
  decide +kernel

/-- LS20: TSX -/
theorem test_tsx_LS20 :
    runs ({ code 0x0200 [0xBA] [] with p := .ofByte 0x24 })
      (fun s => { s with x := 0xFD, p := .ofByte 0xA4, pc := 0x0201 }) 2 = true := by
  decide +kernel

/-- LS21: TXS -/
theorem test_txs_LS21 :
    runs ({ code 0x0200 [0x9A] [] with x := 0x00, p := .ofByte 0x24 })
      (fun s => { s with sp := 0x00, p := .ofByte 0x24, pc := 0x0201 }) 2 = true := by
  decide +kernel

/-- AR4: ADC #$80 -/
theorem test_adc_AR4 :
    runs ({ code 0x0200 [0x69, 0x80] [] with a := 0x80, p := .ofByte 0x24 })
      (fun s => { s with a := 0x00, p := .ofByte 0x67, pc := 0x0202 }) 2 = true := by
  decide +kernel

/-- AR5: ADC #$01 -/
theorem test_adc_AR5 :
    runs ({ code 0x0200 [0x69, 0x01] [] with a := 0x09, p := .ofByte 0x2C })
      (fun s => { s with a := 0x0A, p := .ofByte 0x2C, pc := 0x0202 }) 2 = true := by
  decide +kernel

/-- AR10: SBC #$01 -/
theorem test_sbc_AR10 :
    runs ({ code 0x0200 [0xE9, 0x01] [] with a := 0x80, p := .ofByte 0x25 })
      (fun s => { s with a := 0x7F, p := .ofByte 0x65, pc := 0x0202 }) 2 = true := by
  decide +kernel

/-- AR11: SBC #$03 -/
theorem test_sbc_AR11 :
    runs ({ code 0x0200 [0xE9, 0x03] [] with a := 0x05, p := .ofByte 0x24 })
      (fun s => { s with a := 0x01, p := .ofByte 0x25, pc := 0x0202 }) 2 = true := by
  decide +kernel

/-- AR13: AND #$0F -/
theorem test_and_AR13 :
    runs ({ code 0x0200 [0x29, 0x0F] [] with a := 0xF0, p := .ofByte 0x24 })
      (fun s => { s with a := 0x00, p := .ofByte 0x26, pc := 0x0202 }) 2 = true := by
  decide +kernel

/-- AR14: ORA $10 -/
theorem test_ora_AR14 :
    runs ({ code 0x0200 [0x05, 0x10] [(0x10, 0x80)] with a := 0x01, p := .ofByte 0x24 })
      (fun s => { s with a := 0x81, p := .ofByte 0xA4, pc := 0x0202 }) 3 = true := by
  decide +kernel

/-- AR15: EOR #$FF -/
theorem test_eor_AR15 :
    runs ({ code 0x0200 [0x49, 0xFF] [] with a := 0xFF, p := .ofByte 0x24 })
      (fun s => { s with a := 0x00, p := .ofByte 0x26, pc := 0x0202 }) 2 = true := by
  decide +kernel

/-- AR17: CMP #$01 -/
theorem test_cmp_AR17 :
    runs ({ code 0x0200 [0xC9, 0x01] [] with a := 0x00, p := .ofByte 0x65 })
      (fun s => { s with p := .ofByte 0xE4, pc := 0x0202 }) 2 = true := by
  decide +kernel

/-- AR19: CPX $10 -/
theorem test_cpx_AR19 :
    runs ({ code 0x0200 [0xE4, 0x10] [(0x10, 0x20)] with x := 0x10, p := .ofByte 0x24 })
      (fun s => { s with p := .ofByte 0xA4, pc := 0x0202 }) 3 = true := by
  decide +kernel

/-- AR20: CPY #$00 -/
theorem test_cpy_AR20 :
    runs ({ code 0x0200 [0xC0, 0x00] [] with y := 0x00, p := .ofByte 0x24 })
      (fun s => { s with p := .ofByte 0x27, pc := 0x0202 }) 2 = true := by
  decide +kernel

/-- AR22: BIT $0300 -/
theorem test_bit_AR22 :
    runs ({ code 0x0200 [0x2C, 0x00, 0x03] [(0x300, 0x3F)] with a := 0xFF, p := .ofByte 0xE4 })
      (fun s => { s with p := .ofByte 0x24, pc := 0x0203 }) 4 = true := by
  decide +kernel

/-- AR24: INC $0300,X -/
theorem test_inc_AR24 :
    runs ({ code 0x0200 [0xFE, 0x00, 0x03] [(0x3FF, 0x7F)] with x := 0xFF, p := .ofByte 0x24 })
      (fun s => { s with p := .ofByte 0xA4, pc := 0x0203, ram := s.ram.write 0x3FF 0x80 }) 7 = true := by
  decide +kernel

/-- AR26: DEC $10,X -/
theorem test_dec_AR26 :
    runs ({ code 0x0200 [0xD6, 0x10] [(0x0, 0x01)] with x := 0xF0, p := .ofByte 0x24 })
      (fun s => { s with p := .ofByte 0x26, pc := 0x0202, ram := s.ram.write 0x0 0x00 }) 6 = true := by
  decide +kernel

/-- AR27: INX -/
theorem test_inx_AR27 :
    runs ({ code 0x0200 [0xE8] [] with x := 0xFF, p := .ofByte 0x24 })
      (fun s => { s with x := 0x00, p := .ofByte 0x26, pc := 0x0201 }) 2 = true := by
  decide +kernel

/-- AR28: INY -/
theorem test_iny_AR28 :
    runs ({ code 0x0200 [0xC8] [] with y := 0x7F, p := .ofByte 0x24 })
      (fun s => { s with y := 0x80, p := .ofByte 0xA4, pc := 0x0201 }) 2 = true := by
  decide +kernel

/-- AR29: DEX -/
theorem test_dex_AR29 :
    runs ({ code 0x0200 [0xCA] [] with x := 0x00, p := .ofByte 0x24 })
      (fun s => { s with x := 0xFF, p := .ofByte 0xA4, pc := 0x0201 }) 2 = true := by
  decide +kernel

/-- AR30: DEY -/
theorem test_dey_AR30 :
    runs ({ code 0x0200 [0x88] [] with y := 0x01, p := .ofByte 0x24 })
      (fun s => { s with y := 0x00, p := .ofByte 0x26, pc := 0x0201 }) 2 = true := by
  decide +kernel

/-- SH1: ASL A -/
theorem test_asl_SH1 :
    runs ({ code 0x0200 [0x0A] [] with a := 0x80, p := .ofByte 0x24 })
      (fun s => { s with a := 0x00, p := .ofByte 0x27, pc := 0x0201 }) 2 = true := by
  decide +kernel

/-- SH2: ASL $10 -/
theorem test_asl_SH2 :
    runs ({ code 0x0200 [0x06, 0x10] [(0x10, 0x41)] with p := .ofByte 0x25 })
      (fun s => { s with p := .ofByte 0xA4, pc := 0x0202, ram := s.ram.write 0x10 0x82 }) 5 = true := by
  decide +kernel

/-- SH4: LSR $0300,X -/
theorem test_lsr_SH4 :
    runs ({ code 0x0200 [0x5E, 0x00, 0x03] [(0x301, 0xFE)] with x := 0x01, p := .ofByte 0x24 })
      (fun s => { s with p := .ofByte 0x24, pc := 0x0203, ram := s.ram.write 0x301 0x7F }) 7 = true := by
  decide +kernel

/-- SH6: ROL $10 -/
theorem test_rol_SH6 :
    runs ({ code 0x0200 [0x26, 0x10] [(0x10, 0x40)] with p := .ofByte 0x24 })
      (fun s => { s with p := .ofByte 0xA4, pc := 0x0202, ram := s.ram.write 0x10 0x80 }) 5 = true := by
  decide +kernel

/-- SH9: ROR $0300 -/
theorem test_ror_SH9 :
    runs ({ code 0x0200 [0x6E, 0x00, 0x03] [(0x300, 0x03)] with p := .ofByte 0x25 })
      (fun s => { s with p := .ofByte 0xA5, pc := 0x0203, ram := s.ram.write 0x300 0x81 }) 6 = true := by
  decide +kernel

/-- SH10: ASL $2002 -/
theorem test_asl_SH10 :
    traps ({ code 0x0200 [0x0E, 0x02, 0x20] [] with p := .ofByte 0x24 }) (.ppuRegisterMisuse .ppustatus .write) = true := by
  decide +kernel

/-- CF1: BEQ $06C6 -/
theorem test_beq_CF1 :
    runs ({ code 0x06CB [0xF0, 0xF9] [] with p := .ofByte 0x26 })
      (fun s => { s with p := .ofByte 0x26, pc := 0x06C6 }) 3 = true := by
  decide +kernel

/-- CF2: BEQ $06C6 -/
theorem test_beq_CF2 :
    runs ({ code 0x06CB [0xF0, 0xF9] [] with p := .ofByte 0x24 })
      (fun s => { s with p := .ofByte 0x24, pc := 0x06CD }) 2 = true := by
  decide +kernel

/-- CF3: BNE $0304 -/
theorem test_bne_CF3 :
    runs ({ code 0x02FD [0xD0, 0x05] [] with p := .ofByte 0x24 })
      (fun s => { s with p := .ofByte 0x24, pc := 0x0304 }) 4 = true := by
  decide +kernel

/-- CF4: BCC $02FE -/
theorem test_bcc_CF4 :
    runs ({ code 0x0300 [0x90, 0xFC] [] with p := .ofByte 0x24 })
      (fun s => { s with p := .ofByte 0x24, pc := 0x02FE }) 4 = true := by
  decide +kernel

/-- CF5: BCS +0 -/
theorem test_bcs_CF5 :
    runs ({ code 0x0200 [0xB0, 0x00] [] with p := .ofByte 0x25 })
      (fun s => { s with p := .ofByte 0x25, pc := 0x0202 }) 3 = true := by
  decide +kernel

/-- CF6: BMI $0281 -/
theorem test_bmi_CF6 :
    runs ({ code 0x0200 [0x30, 0x7F] [] with p := .ofByte 0xA4 })
      (fun s => { s with p := .ofByte 0xA4, pc := 0x0281 }) 3 = true := by
  decide +kernel

/-- CF7: BPL $0182 -/
theorem test_bpl_CF7 :
    runs ({ code 0x0200 [0x10, 0x80] [] with p := .ofByte 0x24 })
      (fun s => { s with p := .ofByte 0x24, pc := 0x0182 }) 4 = true := by
  decide +kernel

/-- CF8: BVC -/
theorem test_bvc_CF8 :
    runs ({ code 0x0200 [0x50, 0x10] [] with p := .ofByte 0x64 })
      (fun s => { s with p := .ofByte 0x64, pc := 0x0202 }) 2 = true := by
  decide +kernel

/-- CF9: BVS $0212 -/
theorem test_bvs_CF9 :
    runs ({ code 0x0200 [0x70, 0x10] [] with p := .ofByte 0x64 })
      (fun s => { s with p := .ofByte 0x64, pc := 0x0212 }) 3 = true := by
  decide +kernel

/-- CF10: JMP $1234 -/
theorem test_jmp_CF10 :
    runs ({ code 0x0200 [0x4C, 0x34, 0x12] [] with p := .ofByte 0x24 })
      (fun s => { s with p := .ofByte 0x24, pc := 0x1234 }) 3 = true := by
  decide +kernel

/-- CF11: JMP ($02FF -/
theorem test_jmp_CF11 :
    runs ({ code 0x0400 [0x6C, 0xFF, 0x02] [(0x2FF, 0x34), (0x200, 0x12), (0x300, 0x56)] with p := .ofByte 0x24 })
      (fun s => { s with p := .ofByte 0x24, pc := 0x1234 }) 5 = true := by
  decide +kernel

/-- CF13: JSR $0300 -/
theorem test_jsr_CF13 :
    runs ({ code 0x0200 [0x20, 0x00, 0x03] [] with p := .ofByte 0x24 })
      (fun s => { s with sp := 0xFB, p := .ofByte 0x24, pc := 0x0300, ram := (s.ram.write 0x1FC 0x02).write 0x1FD 0x02 }) 6 = true := by
  decide +kernel

/-- CF15: RTS -/
theorem test_rts_CF15 :
    runs ({ code 0x0300 [0x60] [(0x1FC, 0xFF), (0x1FD, 0xFF)] with sp := 0xFB, p := .ofByte 0x24 })
      (fun s => { s with sp := 0xFD, p := .ofByte 0x24, pc := 0x0000 }) 6 = true := by
  decide +kernel

/-- CF16: RTI -/
theorem test_rti_CF16 :
    runs ({ code 0x0300 [0x40] [(0x1FB, 0xFF), (0x1FC, 0x34), (0x1FD, 0x12)] with sp := 0xFA, p := .ofByte 0x24 })
      (fun s => { s with sp := 0xFD, p := .ofByte 0xEF, pc := 0x1234 }) 6 = true := by
  decide +kernel

/-- CF18: BRK -/
theorem test_brk_CF18 :
    traps ({ code 0x0200 [0x00, 0xEA] [] with p := .ofByte 0x24 }) .brk = true := by
  decide +kernel

/-- CF19: BRK -/
theorem test_brk_CF19 :
    runs ({ code 0x0200 [0x00, 0xEA] [] with p := .ofByte 0x61, config := { Config.default with brkMode := .vector } })
      (fun s => { s with sp := 0xFA, p := .ofByte 0x65, pc := 0xA000, ram := ((s.ram.write 0x1FB 0x71).write 0x1FC 0x02).write 0x1FD 0x02 }) 7 = true := by
  decide +kernel

/-- SF2: PHA -/
theorem test_pha_SF2 :
    runs ({ code 0x0200 [0x48] [] with a := 0x9C, sp := 0x00, p := .ofByte 0x24 })
      (fun s => { s with sp := 0xFF, p := .ofByte 0x24, pc := 0x0201, ram := s.ram.write 0x100 0x9C }) 3 = true := by
  decide +kernel

/-- SF3: PHP -/
theorem test_php_SF3 :
    runs ({ code 0x0200 [0x08] [] with p := .ofByte 0xA5 })
      (fun s => { s with sp := 0xFC, p := .ofByte 0xA5, pc := 0x0201, ram := s.ram.write 0x1FD 0xB5 }) 3 = true := by
  decide +kernel

/-- SF6: PLA -/
theorem test_pla_SF6 :
    runs ({ code 0x0200 [0x68] [(0x100, 0x80)] with sp := 0xFF, p := .ofByte 0x24 })
      (fun s => { s with a := 0x80, sp := 0x00, p := .ofByte 0xA4, pc := 0x0201 }) 4 = true := by
  decide +kernel

/-- SF8: PLP -/
theorem test_plp_SF8 :
    runs ({ code 0x0200 [0x28] [(0x1FD, 0x10)] with sp := 0xFC, p := .ofByte 0xEF })
      (fun s => { s with sp := 0xFD, p := .ofByte 0x20, pc := 0x0201 }) 4 = true := by
  decide +kernel

/-- SF9: CLC -/
theorem test_clc_SF9 :
    runs ({ code 0x0200 [0x18] [] with p := .ofByte 0xEF })
      (fun s => { s with p := .ofByte 0xEE, pc := 0x0201 }) 2 = true := by
  decide +kernel

/-- SF10: SEC -/
theorem test_sec_SF10 :
    runs ({ code 0x0200 [0x38] [] with p := .ofByte 0x24 })
      (fun s => { s with p := .ofByte 0x25, pc := 0x0201 }) 2 = true := by
  decide +kernel

/-- SF11: CLI -/
theorem test_cli_SF11 :
    runs ({ code 0x0200 [0x58] [] with p := .ofByte 0x24 })
      (fun s => { s with p := .ofByte 0x20, pc := 0x0201 }) 2 = true := by
  decide +kernel

/-- SF12: SEI -/
theorem test_sei_SF12 :
    runs ({ code 0x0200 [0x78] [] with p := .ofByte 0x20 })
      (fun s => { s with p := .ofByte 0x24, pc := 0x0201 }) 2 = true := by
  decide +kernel

/-- SF13: CLD -/
theorem test_cld_SF13 :
    runs ({ code 0x0200 [0xD8] [] with p := .ofByte 0x2C })
      (fun s => { s with p := .ofByte 0x24, pc := 0x0201 }) 2 = true := by
  decide +kernel

/-- SF14: SED -/
theorem test_sed_SF14 :
    runs ({ code 0x0200 [0xF8] [] with p := .ofByte 0x24 })
      (fun s => { s with p := .ofByte 0x2C, pc := 0x0201 }) 2 = true := by
  decide +kernel

/-- SF15: CLV -/
theorem test_clv_SF15 :
    runs ({ code 0x0200 [0xB8] [] with p := .ofByte 0x64 })
      (fun s => { s with p := .ofByte 0x24, pc := 0x0201 }) 2 = true := by
  decide +kernel

/-- SF16: NOP -/
theorem test_nop_SF16 :
    runs ({ code 0x0200 [0xEA] [] with p := .ofByte 0x24 })
      (fun s => { s with p := .ofByte 0x24, pc := 0x0201 }) 2 = true := by
  decide +kernel

/-- IL2: LAX ($40),Y -/
theorem test_lax_IL2 :
    runs ({ code 0x0200 [0xB3, 0x40] [(0x40, 0xFF), (0x41, 0x02), (0x300, 0x00)] with y := 0x01, p := .ofByte 0x24 })
      (fun s => { s with p := .ofByte 0x26, pc := 0x0202 }) 6 = true := by
  decide +kernel

/-- IL3: SAX $10 -/
theorem test_sax_IL3 :
    runs ({ code 0x0200 [0x87, 0x10] [] with a := 0xF0, x := 0x3C, p := .ofByte 0x24 })
      (fun s => { s with p := .ofByte 0x24, pc := 0x0202, ram := s.ram.write 0x10 0x30 }) 3 = true := by
  decide +kernel

/-- IL4: USBC #$01 -/
theorem test_usbc_IL4 :
    runs ({ code 0x0200 [0xEB, 0x01] [] with a := 0x00, p := .ofByte 0x25 })
      (fun s => { s with a := 0xFF, p := .ofByte 0xA4, pc := 0x0202 }) 2 = true := by
  decide +kernel

/-- IL6: DCP $10 -/
theorem test_dcp_IL6 :
    runs ({ code 0x0200 [0xC7, 0x10] [(0x10, 0x00)] with a := 0x00, p := .ofByte 0x24 })
      (fun s => { s with p := .ofByte 0x24, pc := 0x0202, ram := s.ram.write 0x10 0xFF }) 5 = true := by
  decide +kernel

/-- IL8: ISB $10 -/
theorem test_isb_IL8 :
    runs ({ code 0x0200 [0xE7, 0x10] [(0x10, 0xFF)] with a := 0x00, p := .ofByte 0x25 })
      (fun s => { s with p := .ofByte 0x27, pc := 0x0202, ram := s.ram.write 0x10 0x00 }) 5 = true := by
  decide +kernel

/-- IL9: SLO $10 -/
theorem test_slo_IL9 :
    runs ({ code 0x0200 [0x07, 0x10] [(0x10, 0xC0)] with a := 0x01, p := .ofByte 0x24 })
      (fun s => { s with a := 0x81, p := .ofByte 0xA5, pc := 0x0202, ram := s.ram.write 0x10 0x80 }) 5 = true := by
  decide +kernel

/-- IL10: RLA $10 -/
theorem test_rla_IL10 :
    runs ({ code 0x0200 [0x27, 0x10] [(0x10, 0x40)] with a := 0xFF, p := .ofByte 0x25 })
      (fun s => { s with a := 0x81, p := .ofByte 0xA4, pc := 0x0202, ram := s.ram.write 0x10 0x81 }) 5 = true := by
  decide +kernel

/-- IL11: SRE $10 -/
theorem test_sre_IL11 :
    runs ({ code 0x0200 [0x47, 0x10] [(0x10, 0x03)] with a := 0x01, p := .ofByte 0x24 })
      (fun s => { s with a := 0x00, p := .ofByte 0x27, pc := 0x0202, ram := s.ram.write 0x10 0x01 }) 5 = true := by
  decide +kernel

/-- IL13: RRA $0300,X -/
theorem test_rra_IL13 :
    runs ({ code 0x0200 [0x7F, 0x00, 0x03] [(0x3FF, 0x00)] with a := 0x7F, x := 0xFF, p := .ofByte 0x25 })
      (fun s => { s with a := 0xFF, p := .ofByte 0xA4, pc := 0x0203, ram := s.ram.write 0x3FF 0x80 }) 7 = true := by
  decide +kernel

/-- IL15: ANC #$7F -/
theorem test_anc_IL15 :
    runs ({ code 0x0200 [0x2B, 0x7F] [] with a := 0xFF, p := .ofByte 0x25 })
      (fun s => { s with a := 0x7F, p := .ofByte 0x24, pc := 0x0202 }) 2 = true := by
  decide +kernel

/-- IL16: ALR #$03 -/
theorem test_alr_IL16 :
    runs ({ code 0x0200 [0x4B, 0x03] [] with a := 0xFF, p := .ofByte 0x24 })
      (fun s => { s with a := 0x01, p := .ofByte 0x25, pc := 0x0202 }) 2 = true := by
  decide +kernel

/-- IL18: JAM -/
theorem test_jam_IL18 :
    runs ({ code 0x0200 [0x02] [] with p := .ofByte 0x24 })
      (fun s => { s with p := .ofByte 0x24, pc := 0x0200 }) 2 = true := by
  decide +kernel

/-- IL19: NOP $2110,X -/
theorem test_nop_IL19 :
    runs ({ code 0x0200 [0x1C, 0xF0, 0x20] [] with x := 0x20, p := .ofByte 0x24 })
      (fun s => { s with p := .ofByte 0x24, pc := 0x0203 }) 5 = true := by
  decide +kernel

/-- IL24: invalid 0x9C -/
theorem test_invalid_IL24 :
    traps ({ code 0x0200 [0x9C, 0x00, 0x03] [] with y := 0xFF, p := .ofByte 0x24 }) (.invalidOpcode 0x9C) = true := by
  decide +kernel

/-- IN1. -/
theorem test_nmi_IN1 :
    runs ({ code 0x0234 [0xEA] [] with p := .ofByte 0xA0, nmiPending := true })
      (fun s => { s with sp := 0xFA, p := .ofByte 0xA4, pc := 0x9000, nmiPending := false, ram := ((s.ram.write 0x1FB 0xA0).write 0x1FC 0x34).write 0x1FD 0x02 }) 7 = true := by
  decide +kernel

/-- IN2. -/
theorem test_nmi_masked_IN2 :
    runs ({ code 0x0234 [0xEA] [] with p := .ofByte 0x24, nmiPending := true })
      (fun s => { s with sp := 0xFA, p := .ofByte 0x24, pc := 0x9000, nmiPending := false, ram := ((s.ram.write 0x1FB 0x24).write 0x1FC 0x34).write 0x1FD 0x02 }) 7 = true := by
  decide +kernel

/-- IN3. -/
theorem test_irq_IN3 :
    runs ({ code 0x0234 [0xEA] [] with p := .ofByte 0x23, irqLine := true })
      (fun s => { s with sp := 0xFA, p := .ofByte 0x27, pc := 0xA000, ram := ((s.ram.write 0x1FB 0x23).write 0x1FC 0x34).write 0x1FD 0x02 }) 7 = true := by
  decide +kernel

/-- IN4. -/
theorem test_irq_masked_IN4 :
    runs ({ code 0x0234 [0xEA] [] with p := .ofByte 0x24, irqLine := true })
      (fun s => { s with p := .ofByte 0x24, pc := 0x0235 }) 2 = true := by
  decide +kernel

/-- IN5. -/
theorem test_nmi_before_irq_IN5 :
    runs ({ code 0x0234 [0xEA] [] with p := .ofByte 0x20, irqLine := true, nmiPending := true })
      (fun s => { s with sp := 0xFA, p := .ofByte 0x24, pc := 0x9000, nmiPending := false, ram := ((s.ram.write 0x1FB 0x20).write 0x1FC 0x34).write 0x1FD 0x02 }) 7 = true := by
  decide +kernel

/-! Devices. -/

/-- PR1: two bytes through PPUDATA. -/
theorem test_ppudata_PR1 : leaves [.w 0x2006 0x21, .w 0x2006 0x08, .w 0x2007 0xAA, .w 0x2007 0xBB] base
    (fun t => t.ppu.vram.read 0x108 = 0xAA ∧ t.ppu.vram.read 0x109 = 0xBB ∧ t.ppu.vramAddr = 0x210A) = true := by
  decide +kernel

/-- PR3: the reads are delayed by one. -/
theorem test_ppudata_PR3 : leaves [.w 0x2006 0x21, .w 0x2006 0x08, .w 0x2007 0xAA, .w 0x2007 0xBB, .w 0x2006 0x21,
    .w 0x2006 0x08, .r 0x2007 0x00, .r 0x2007 0xAA, .r 0x2007 0xBB] base (fun t => t.ppu.vramAddr = 0x210B) = true := by
  decide +kernel

/-- PR4: a palette read is immediate and fills the buffer from under it. -/
theorem test_ppudata_PR4 : leaves [.w 0x2006 0x3F, .w 0x2006 0x00, .r 0x2007 0x21]
    { base with ppu := { base.ppu with vram := [(0x700, 0x77)], palette := [(0x00, 0x21)] } }
    (fun t => t.ppu.readBuffer = 0x77 ∧ t.ppu.vramAddr = 0x3F01) = true := by decide +kernel

/-- PR5, PR6b: the two latches. -/
theorem test_latches_PR5_PR6b : leaves [.w 0x2006 0x12, .r 0x2002 0x00, .w 0x2006 0x34, .w 0x2006 0x56] base
      (fun t => t.ppu.vramAddr = 0x3456) = true ∧
    leaves [.w 0x2005 0x01, .w 0x2006 0x20, .w 0x2005 0x02, .w 0x2006 0x10] base
      (fun t => t.ppu.scrollX = 0x01 ∧ t.ppu.scrollY = 0x02 ∧ t.ppu.vramAddr = 0x2010) = true := by
  decide +kernel

/-- PR7: OAMADDR and OAMDATA. -/
theorem test_oam_PR7 : leaves [.w 0x2003 0xFE, .w 0x2004 0x01, .w 0x2004 0x02, .w 0x2004 0x03, .r 0x2004 0x00,
    .r 0x2004 0x00] base (fun t => t.ppu.oam.read 0xFE = 0x01 ∧ t.ppu.oam.read 0xFF = 0x02 ∧ t.ppu.oam.read 0x00 = 0x03 ∧
      t.ppu.oamAddr = 0x01) = true := by decide +kernel

/-- PR10, PR10d: the NMI request of a PPUCTRL write, and the status byte. -/
theorem test_nmi_status_PR10 : leaves [.w 0x2000 0x80, .r 0x2002 0xC0, .r 0x2002 0x40]
    { base with ppu := { base.ppu with vblank := true, spr0hit := true } } (fun t => t.nmiPending) = true := by decide +kernel

/-- PP1, PP3: the palette mirror, and an entry that is not mirrored. -/
theorem test_palette_PP1_PP3 : ppuRd testCart (ppuWr testCart Ppu.reset 0x3F10 0x21).2 0x3F00 = 0x21 ∧
    ppuRd testCart (ppuWr testCart Ppu.reset 0x3F11 0x16).2 0x3F01 = 0x00 := by decide +kernel

/-- MI1, MI2: 2405 lies with 2005 under horizontal mirroring, with 2C05 under vertical. -/
theorem test_mirroring_MI1_MI2 : ntIndex .horizontal 0x2405 = 0x005 ∧ ntIndex .horizontal 0x2C05 = 0x405 ∧
    ntIndex .vertical 0x2405 = 0x405 ∧ ntIndex .vertical 0x2805 = 0x005 ∧ ntIndex .vertical 0x3EFF = 0x6FF := by
  decide +kernel

/-- MP3, MP4: bank selection, and a bank beyond the ROM. -/
theorem test_uxrom_MP3_MP4 : leaves [.w 0x8000 0x02, .r 0x8000 0xB2, .r 0xC000 0xB3]
      { base with cart := testUxrom } (fun t => t.cart.bankSelect = 2) = true ∧
    (accesses [.w 0xFFFF 0xF7, .r 0xC000 0xB3] { base with cart := testUxrom }).isSome = true ∧
    readTrap 0x8000 { base with cart := { testUxrom with bankSelect := 7 } } = some .cartridgeOutOfRange := by decide +kernel

/-- DM2, DM3, DM5: a DMA with an offset, one that traps, one that reads the joypads. -/
theorem test_dma_DM2_DM3_DM5 : leaves [.w 0x4014 0x02]
      { base with ram := Memory.ofBytes 0x2FC [0xFC, 0xFD, 0xFE, 0xFF], ppu := { base.ppu with oamAddr := 0x04 } }
      (fun t => t.ppu.oam = [(0, 0xFC), (1, 0xFD), (2, 0xFE), (3, 0xFF)] ∧ t.remainingCycles = 7 + 513) = true ∧
    wr 0x4014 0x20 base = .trap (.ppuRegisterMisuse .ppuctrl .read) ∧
    leaves [.w 0x4014 0x40] { base with joy1 := { base.joy1 with buttons := 0xFF } }
      (fun t => t.ppu.oam = [(0x16, 0x01)] ∧ t.joy1.index = 1 ∧ t.joy2.index = 1) = true := by decide +kernel

/-- JP1: the buttons in order, then ones. -/
theorem test_joypad_JP1 : leaves [.w 0x4016 0x01, .w 0x4016 0x00, .r 0x4016 0x01, .r 0x4016 0x00, .r 0x4016 0x00,
    .r 0x4016 0x01, .r 0x4016 0x00, .r 0x4016 0x00, .r 0x4016 0x00, .r 0x4016 0x01, .r 0x4016 0x01, .r 0x4016 0x01]
    { base with joy1 := { base.joy1 with buttons := 0x89 } } (fun t => t.joy1.index = 8) = true := by decide +kernel

/-- RD1: the example of R350, one column at a time. -/
theorem test_background_RD1 :
    let p : Ppu := { Ppu.reset with
      mask := 0x1E, vram := [(0x000, 0x01), (0x3C0, 0x03)], palette := [(0x00, 0x0F), (0x0D, 0x2A)] }
    bgColumn testCart p 0 0 = (1, 0x2A) ∧ bgColumn testCart p 0 1 = (0, 0x0F) ∧ bgColumn testCart p 0 2 = (0, 0x0F) := by
  decide +kernel

/-- RD12: the background scrolled into nametable 1. -/
theorem test_scroll_RD12 :
    let p : Ppu := { Ppu.reset with
      mask := 0x0A, vram := [(0x400, 0x02)], palette := [(0x00, 0x0F), (0x03, 0x13)], scrollX := 0xF8 }
    bgColumn testCart p 5 7 = (0, 0x0F) ∧ bgColumn testCart p 5 8 = (3, 0x13) ∧ bgColumn testCart p 5 16 = (0, 0x0F) := by
  decide +kernel

/-- RD3, RD4, RD8, RD9: where sprite 0 hits. -/
theorem test_sprite_zero_RD3_RD4_RD8_RD9 :
    let p : Ppu := { Ppu.reset with mask := 0x10, oam := [(0, 0x70), (1, 0x02), (3, 0x40)] }
    spr0OnLine testCart p 0x70 = false ∧ spr0OnLine testCart p 0x71 = true ∧ spr0OnLine testCart p 0x79 = false ∧
    spr0OnLine testCart { p with mask := 0x08 } 0x71 = false ∧
    spr0OnLine testCart { p with oam := [(0, 0xEF), (1, 0x02), (3, 0x40)] } 0xF0 = false ∧
    spr0OnLine testCart { p with oam := [(0, 0xEE), (1, 0x02), (3, 0x40)] } 0xEF = true := by decide +kernel

/-- RD11: a sprite behind the left mask. -/
theorem test_sprite_left_RD11 :
    let p : Ppu := { Ppu.reset with
      mask := 0x18, vram := [(0, 0x02), (1, 0x02)], palette := [(0x00, 0x0F), (0x03, 0x13), (0x13, 0x23)]
      oam := [(5, 0x02), (7, 0x04)] }
    spriteEntry testCart p 1 7 1 = none ∧ spriteEntry testCart p 1 8 1 = some 0x23 ∧
    bgColumn testCart p 1 12 = (3, 0x13) := by decide +kernel

/-- TK1, TK3, TK5: dots, and what entering a scanline does to `vblank`. -/
theorem test_ticks_TK1_TK3_TK5 : (ppuTick 340 base).ppu.dot = 340 ∧ (ppuTick 340 base).ppu.scanline = 0 ∧
    (nextScanline { base with ppu := { base.ppu with scanline := 240 } }).ppu.vblank = true ∧
    (nextScanline { base with ppu := { base.ppu with scanline := 260, vblank := true } }).ppu.vblank = false := by
  decide +kernel

/-! A witness for the hypotheses of every obligation that has some; boundary values. -/

/-- A read instruction: well-formed, with a load that traps and with one that does not. -/
def readWitness (f : Operand → Instr) : Bool :=
  (f (.abs 0x2000)).wf && decide (loadTrap (.abs 0x2000) base = some (.ppuRegisterMisuse .ppuctrl .read)) &&
  (f (.abs 0x1FFF)).wf && decide (loadTrap (.abs 0x1FFF) base = none)

/-- A store: well-formed, with a write that traps and with one that does not. -/
def storeWitness (f : Operand → Instr) : Bool :=
  (f (.abs 0x2002)).wf && decide (writeTrap 0x2002 0x00 base = some (.ppuRegisterMisuse .ppustatus .write)) &&
  (f (.abs 0x1FFF)).wf && decide (writeTrap 0x1FFF 0x00 base = none)

/-- A read-modify-write instruction: a load that traps, a store that traps, neither. -/
def rmwWitness (f : Operand → Instr) : Bool :=
  (f (.abs 0x2000)).wf && decide (loadTrap (.abs 0x2000) base = some (.ppuRegisterMisuse .ppuctrl .read)) &&
  (f (.abs 0x2002)).wf && decide (loadTrap (.abs 0x2002) base = none) &&
  decide (storeTrap (.abs 0x2002) 0x00 base = some (.ppuRegisterMisuse .ppustatus .write)) &&
  (f (.abs 0x1FFF)).wf && decide (loadTrap (.abs 0x1FFF) base = none) && decide (storeTrap (.abs 0x1FFF) 0x00 base = none)

theorem witness_DecodeOfEncodeIsIdentity : (Instr.lda (.abx 0xFFFF)).wf = true ∧ (Instr.lda .acc).wf = false := by decide

theorem witness_BusRouters : (0x1FFF : Word).toNat < 0x2000 ∧ 0x2000 ≤ (0x2000 : Word).toNat ∧
    (0x3FFF : Word).toNat < 0x4000 ∧ 0x4000 ≤ (0x4000 : Word).toNat ∧ (0x7FFF : Word).toNat < 0x8000 ∧
    (0x7FFF : Word) ≠ 0x4016 ∧ (0x7FFF : Word) ≠ 0x4017 ∧ (0x7FFF : Word) ≠ 0x4014 ∧ 0x8000 ≤ (0x8000 : Word).toNat ∧
    testUxrom.readPrg 0xFFFF = .ok 0x00 ∧
    ({ testUxrom with bankSelect := 4 } : Cart).readPrg 0x8000 = .error .cartridgeOutOfRange := by
  refine ⟨by decide, by decide, by decide, by decide, by decide, by decide, by decide, by decide, by decide,
    by decide +kernel, by decide +kernel⟩

theorem witness_RamAppearsFourTimes : (0x1FFF : Word).toNat < 0x2000 ∧ (0x07FF : Word).toNat < 0x2000 := by decide

theorem witness_ReadsTrapExactlyWhereSaid :
    readTrap 0x2000 base = some (.ppuRegisterMisuse .ppuctrl .read) ∧
    readTrap 0x3FFE base = some (.ppuRegisterMisuse .ppuaddr .read) ∧ readTrap 0x1FFF base = none ∧
    readTrap 0x3FFF base = none ∧ readTrap 0x4000 base = none ∧ readTrap 0xFFFF base = none ∧
    readTrap 0xBFFF { base with cart := { testUxrom with bankSelect := 4 } } = some .cartridgeOutOfRange ∧
    readTrap 0xC000 { base with cart := { testUxrom with bankSelect := 4 } } = none := by decide +kernel

theorem witness_WritesTrapExactlyWhereSaid :
    writeTrap 0x2002 0x00 base = some (.ppuRegisterMisuse .ppustatus .write) ∧
    writeTrap 0x4014 0x3F base = some (.ppuRegisterMisuse .ppuctrl .read) ∧ writeTrap 0x4014 0x1F base = none ∧
    writeTrap 0x4014 0x40 base = none ∧ writeTrap 0xFFFF 0x00 base = none := by decide +kernel

theorem witness_StatusReadClearsVblankAndLatches : HitsPpu 0x2002 .ppustatus ∧ HitsPpu 0x3FFA .ppustatus :=
  ⟨⟨by decide, by decide, rfl⟩, ⟨by decide, by decide, rfl⟩⟩

theorem witness_ControlAndMaskWrites : HitsPpu 0x2000 .ppuctrl ∧ HitsPpu 0x3FF9 .ppumask :=
  ⟨⟨by decide, by decide, rfl⟩, ⟨by decide, by decide, rfl⟩⟩

theorem witness_OamPorts : HitsPpu 0x2003 .oamaddr ∧ HitsPpu 0x3FFC .oamdata :=
  ⟨⟨by decide, by decide, rfl⟩, ⟨by decide, by decide, rfl⟩⟩

theorem witness_ScrollAndAddressLatches : HitsPpu 0x2005 .ppuscroll ∧ HitsPpu 0x3FFE .ppuaddr ∧
    base.ppu.scrollLatch = false ∧ base.ppu.addrLatch = false ∧
    ({ base.ppu with scrollLatch := true } : Ppu).scrollLatch = true ∧
    ({ base.ppu with addrLatch := true } : Ppu).addrLatch = true :=
  ⟨⟨by decide, by decide, rfl⟩, ⟨by decide, by decide, rfl⟩, rfl, rfl, rfl, rfl⟩

theorem witness_DataPort : HitsPpu 0x2007 .ppudata ∧ HitsPpu 0x3FFF .ppudata ∧
    ({ base.ppu with vramAddr := 0x7EFF } : Ppu).vramAddr.toNat % 0x4000 < 0x3F00 ∧
    0x3F00 ≤ ({ base.ppu with vramAddr := 0x7F00 } : Ppu).vramAddr.toNat % 0x4000 :=
  ⟨⟨by decide, by decide, rfl⟩, ⟨by decide, by decide, rfl⟩, by decide, by decide⟩

theorem witness_PpudataReadsAreDelayed : base.ppu.addrLatch = false ∧
    ((0x3E : Byte).toNat * 256 + (0xFF : Byte).toNat) % 0x4000 < 0x3F00 := by decide

theorem witness_PpuBusReads : 0x1FFF < 0x2000 ∧ testCart.mapper = .nrom ∧
    ({ testUxrom with chrBanks := 1 } : Cart).chrBanks ≠ 0 ∧ testUxrom.mapper = .uxrom ∧ testUxrom.chrBanks = 0 ∧
    3 < 4 ∧ 0x3FF < 0x400 ∧ 0xEFF < 0xF00 ∧ 0xFF < 0x100 ∧
    Cart.blank.mirroring = .horizontal ∧ testCart.mirroring = .vertical := by decide

theorem witness_PrgMapping : testCart.wf = true ∧ testCart.mapper = .nrom ∧ testCart.prgBanks = 2 ∧
    ({ Cart.blank with prgBanks := 1 } : Cart).wf = true ∧ testUxrom.wf = true ∧ testUxrom.mapper = .uxrom ∧
    testUxrom.bankSelect.toNat < testUxrom.prgBanks ∧ ({ testUxrom with bankSelect := 4 } : Cart).wf = true ∧
    ({ testUxrom with bankSelect := 4 } : Cart).prgBanks ≤ ({ testUxrom with bankSelect := 4 } : Cart).bankSelect.toNat ∧
    0x8000 ≤ 0xBFFF ∧ 0xBFFF < 0xC000 ∧ 0xC000 ≤ 0xFFFF ∧ 0xFFFF < 0x10000 := by decide +kernel

theorem witness_OamDmaCopiesAPage : ([0x00, 0x1F, 0x40, 0x41, 0x7F, 0x80, 0xFF] : List Byte).all
    (fun v => decide (readTrap (wordOf 0x00 v) base = none)) = true := by decide +kernel

theorem witness_JoypadReportsItsButtons : (0x01 : Byte).getLsbD 0 = true ∧ (0xFE : Byte).getLsbD 0 = false := by decide

theorem witness_LoadsFollowTheirRules :
    readWitness .lda = true ∧ readWitness .ldx = true ∧ readWitness .ldy = true ∧ readWitness .lax = true := by decide +kernel

theorem witness_LogicFollowsItsRules :
    readWitness .and = true ∧ readWitness .ora = true ∧ readWitness .eor = true := by decide +kernel

theorem witness_ArithmeticFollowsItsRules : readWitness .adc = true ∧ readWitness .sbc = true := by decide +kernel

theorem witness_AdcIsSbcOfTheComplement : load (resolve (.imm 0xF0) base) base = .ok 0xF0 base ∧
    load (resolve (.imm 0x0F) base) base = .ok (~~~(0xF0 : Byte)) base := ⟨rfl, rfl⟩

theorem witness_DecimalFlagIsInert : Instr.rra (.zp 0) ∈
    [Instr.adc (.zp 0), .sbc (.zp 0), .usbc 0, .isb (.zp 0), .rra (.zp 0)] := by decide

theorem witness_ComparesFollowTheirRules :
    readWitness .cmp = true ∧ readWitness .cpx = true ∧ readWitness .cpy = true ∧ readWitness .bit = true := by decide +kernel

theorem witness_StoresFollowTheirRules :
    storeWitness .sta = true ∧ storeWitness .stx = true ∧ storeWitness .sty = true ∧ storeWitness .sax = true := by
  decide +kernel

theorem witness_IncrementsFollowTheirRules : rmwWitness .inc = true ∧ rmwWitness .dec = true := by decide +kernel

theorem witness_ShiftsFollowTheirRules :
    rmwWitness .asl = true ∧ rmwWitness .lsr = true ∧ rmwWitness .rol = true ∧ rmwWitness .ror = true ∧
    (Instr.asl .acc).wf = true ∧ loadTrap .acc base = none ∧ storeTrap .acc 0x00 base = none := by decide +kernel

theorem witness_UndocumentedPairsFollowTheirRules :
    rmwWitness .dcp = true ∧ rmwWitness .isb = true ∧ rmwWitness .slo = true ∧ rmwWitness .rla = true ∧
    rmwWitness .sre = true ∧ rmwWitness .rra = true := by decide +kernel

theorem witness_AncAndAlrFollowTheirRules : ((0x0B : Byte) = 0x0B ∨ (0x0B : Byte) = 0x2B) ∧
    ((0x2B : Byte) = 0x0B ∨ (0x2B : Byte) = 0x2B) := by decide

theorem witness_NopsAndJamFollowTheirRules : (Instr.nopUndoc 0xFC (.abx 0xFFFF)).wf = true ∧
    (Instr.nopUndoc 0x1A .imp).wf = true ∧
    (0xF2 : Byte) ∈ ([0x02, 0x12, 0x22, 0x32, 0x42, 0x52, 0x62, 0x72, 0x92, 0xB2, 0xD2, 0xF2] : List Byte) := by decide

theorem witness_JumpsFollowTheirRules :
    readTrap 0x3FF8 base = some (.ppuRegisterMisuse .ppuctrl .read) ∧
    (readTrap 0x20FF base = none ∧ readTrap 0x2000 base = some (.ppuRegisterMisuse .ppuctrl .read)) ∧
    (readTrap 0x1FFF base = none ∧ readTrap 0x1F00 base = none) := by decide +kernel

theorem witness_BrkAndInvalidOpcodes : base.config.brkMode = .trap ∧
    ({ Config.default with brkMode := .vector } : Config).brkMode = .vector ∧ base.cart.wf = true ∧
    (0xCB : Byte) ∈ ([0x6B, 0x8B, 0x93, 0x9B, 0x9C, 0x9E, 0x9F, 0xAB, 0xBB, 0xCB] : List Byte) ∧
    Undisturbed (code 0x0200 [0xCB] []) ∧
    rd (code 0x0200 [0xCB] []).pc { code 0x0200 [0xCB] [] with remainingCycles := 0 } =
      .ok 0xCB { code 0x0200 [0xCB] [] with remainingCycles := 0 } :=
  ⟨rfl, rfl, by decide +kernel, by decide, ⟨rfl, rfl, fun h => by cases h⟩, rfl⟩

theorem witness_InterruptsAreTakenInOrder : base.cart.wf = true ∧ base.fault = none ∧ base.nmiPending = false ∧
    ({ base with nmiPending := true } : State).nmiPending = true ∧
    (({ base with irqLine := true, p := .ofByte 0x20 } : State).irqLine = true ∧
      ({ base with irqLine := true, p := .ofByte 0x20 } : State).p.i = false) ∧
    (base.irqLine = true → base.p.i = true) ∧
    fetch { code 0x0200 [0xEA] [] with remainingCycles := 0 } = .ok .nop { code 0x0200 [0xEA] [] with remainingCycles := 0 } ∧
    fetch { base with pc := 0x2000, remainingCycles := 0 } = .trap (.ppuRegisterMisuse .ppuctrl .read) := by decide +kernel

theorem witness_ReturnsUndoCallsAndEntries : ((0xFFFE : Word) = 0xFFFA ∨ (0xFFFE : Word) = 0xFFFE) ∧
    base.cart.wf = true := by decide +kernel

theorem witness_StepRunsTheDecodedInstruction : decode [0xA9, 0x80] = .ok (.lda (.imm 0x80), []) ∧
    CodeAt (code 0x0200 [0xA9, 0x80] []) (code 0x0200 [0xA9, 0x80] []).pc [0xA9, 0x80] ∧
    Undisturbed (code 0x0200 [0xA9, 0x80] []) ∧
    (code 0x0200 [0xA9, 0x80] []).remainingCycles ≤ (7 : Nat) ∧
    (code 0x0200 [0xA9, 0x80] []).turn = .between ∧ (code 0x0200 [0xA9, 0x80] []).hostMoves = [] ∧
    (code 0x0200 [0xA9, 0x80] []).rom = .ready ∧
    (code 0x0200 [0xA9, 0x80] []).ppu.dot + 3 * ((code 0x0200 [0xA9, 0x80] []).remainingCycles - 1).toNat < 341 :=
  ⟨by decide +kernel, ⟨by decide +kernel, by decide +kernel, trivial⟩, ⟨rfl, rfl, fun h => by cases h⟩, by decide, rfl, rfl,
    rfl, by decide⟩

/-- The clause of a step inside a tick: the wait equals the budget. -/
theorem witness_StepRunsTheDecodedInstruction_inTick :
    ({ code 0x0200 [0xA9, 0x80] [] with turn := .inTick 7 7 } : State).turn = .inTick 7 7 ∧
    ({ code 0x0200 [0xA9, 0x80] [] with turn := .inTick 7 7 } : State).remainingCycles ≤ (7 : Nat) := by decide +kernel

/-- The sampled states that the clauses on a step name are undisturbed: the line falls at the boundary. -/
theorem witness_StepRunsTheDecodedInstruction_sampled : Undisturbed (sampleIrq
    { code 0x0200 [0xA9, 0x80] [] with p := .ofByte 0x20, irqLine := true, irqLevels := [false, true], turn := .inTick 7 0 }) :=
  ⟨rfl, rfl, fun h => by cases h⟩

/-- The clauses on the fetch: a trap at the opcode, at the second and at the third byte, and the opcode fetched from a port
with a side effect. -/
theorem witness_StepRunsTheDecodedInstruction_fetch :
    fetch { base with pc := 0x2000 } = .trap (.ppuRegisterMisuse .ppuctrl .read) ∧
    fetch { code 0x1FFF [] [(0x7FF, 0xA9)] with pc := 0x1FFF } = .trap (.ppuRegisterMisuse .ppuctrl .read) ∧
    fetch { code 0x1FFE [] [(0x7FE, 0xAD)] with pc := 0x1FFE } = .trap (.ppuRegisterMisuse .ppuctrl .read) ∧
    (∀ i, decode [0xA9] ≠ .ok (i, [])) ∧ (∀ i, decode [0xAD, 0x00] ≠ .ok (i, [])) ∧
    fetch { base with pc := 0x4016, joy1 := { base.joy1 with buttons := 0x01 } } =
      .ok (.ora (.izx 0x00)) { base with
        pc := 0x4016
        joy1 := { base.joy1 with buttons := 0x01, index := 1 }
        joy2 := { base.joy2 with index := 1 } } :=
  ⟨by decide +kernel, by decide +kernel, by decide +kernel, (by intro i h; cases h), (by intro i h; cases h), by decide +kernel⟩

/-- R389, D9: the interrupt line rises at the second instruction boundary of a tick, and the IRQ is taken there. -/
theorem test_irq_inside_a_tick :
    let s := { code 0x0200 [0xEA, 0xEA] [] with
      p := .ofByte 0x20, irqLevels := [false, true], turn := .inTick 9 9 }
    let t := after base (step s)
    let u := after base (step t)
    t.pc = 0x0201 ∧ u.pc = 0xA000 ∧ u.turn = .inTick 9 0 ∧ u.irqLevels = [] ∧ u.irqLine = true := by decide +kernel

theorem witness_TrapsRollBack : (code 0x0200 [0x00] []).fault = none ∧
    nextIs (dispatch (code 0x0200 [0x00] [])) { code 0x0200 [0x00] [] with fault := some .brk } = true := by decide +kernel

/-- The last clause: a reset by the host clears the fault. -/
theorem witness_FaultIsAbsorbing : ({ base with fault := some .brk } : State).fault = some .brk ∧
    ({ base with fault := some .brk, turn := .inTick 1 1 } : State).turn = .inTick 1 1 ∧
    base.turn = .between ∧ base.hostMoves = [] ∧ base.rom = .ready ∧
    (after base (step { base with fault := some .brk, hostMoves := [.reset] })).fault ≠ some .brk := by decide +kernel

/-- One instruction for each of the clauses: it completes, and the flag named changes. -/
theorem witness_OnlyNamedInstructionsWriteFlags :
    (exec .sec base = .next (after base (exec .sec base)) ∧ (after base (exec .sec base)).p.c ≠ base.p.c) ∧
    (exec .tax base = .next (after base (exec .tax base)) ∧ (after base (exec .tax base)).p.z ≠ base.p.z) ∧
    (exec .cli base = .next (after base (exec .cli base)) ∧ (after base (exec .cli base)).p.i ≠ base.p.i) ∧
    (exec .sed base = .next (after base (exec .sed base)) ∧ (after base (exec .sed base)).p.d ≠ base.p.d) ∧
    (exec (.adc (.imm 0x7F)) { base with a := 1 } = .next (after base (exec (.adc (.imm 0x7F)) { base with a := 1 })) ∧
      (after base (exec (.adc (.imm 0x7F)) { base with a := 1 })).p.v ≠ base.p.v ∧ (Instr.adc (.imm 0x7F)).wf = true) ∧
    (exec .tsx base = .next (after base (exec .tsx base)) ∧ (after base (exec .tsx base)).p.n ≠ base.p.n) := by
  refine ⟨⟨rfl, ?_⟩, ⟨rfl, ?_⟩, ⟨rfl, ?_⟩, ⟨rfl, ?_⟩, ⟨rfl, ?_⟩, ⟨rfl, ?_⟩⟩ <;>
    decide +kernel

/-- One instruction for each of the registers: it completes, and the register changes. -/
theorem witness_OnlyNamedInstructionsWriteRegisters :
    (exec .tya { base with y := 1 } = .next (after base (exec .tya { base with y := 1 })) ∧
      (after base (exec .tya { base with y := 1 })).a ≠ base.a) ∧
    (exec .inx base = .next (after base (exec .inx base)) ∧ (after base (exec .inx base)).x ≠ base.x) ∧
    (exec .iny base = .next (after base (exec .iny base)) ∧ (after base (exec .iny base)).y ≠ base.y) ∧
    (exec .txs base = .next (after base (exec .txs base)) ∧ (after base (exec .txs base)).sp ≠ base.sp) := by
  refine ⟨⟨rfl, ?_⟩, ⟨rfl, ?_⟩, ⟨rfl, ?_⟩, ⟨rfl, ?_⟩⟩ <;> decide +kernel

theorem witness_PcAdvancesAndCostIsTheRows : (Instr.inc (.abs 0x4014)).wf = true ∧ base.fault = none ∧
    (after base (exec (.inc (.abs 0x4014)) base)).fault = none ∧
    (after base (exec (.inc (.abs 0x4014)) base)).remainingCycles = 7 + 6 + 513 ∧
    (Instr.inc (.abs 0x4014)).mnemonic ∉ ([.jmp, .jsr, .rts, .rti, .brk, .jam, .bcc, .bcs, .beq, .bne, .bmi, .bpl, .bvc,
      .bvs] : List Mnemonic) := by decide +kernel

/-- The last column of the last line: shown and opaque with the background on, sprites off; hidden with it off. -/
theorem witness_BackgroundLine :
    let p : Ppu := { Ppu.reset with mask := 0x08, vram := [(29 * 32 + 31, 0x02)] }
    255 < 256 ∧ 239 < 240 ∧ p.mask.toNat / 16 % 2 = 0 ∧ bgShown p 255 ∧ ¬ bgShown p 7 ∧ (bgColumn testCart p 239 255).1 ≠ 0 :=
  ⟨by decide, by decide, rfl, ⟨rfl, .inl (by decide)⟩, fun h => by rcases h.2 with h | h <;> revert h <;> decide,
    by decide +kernel⟩

/-- The last sprite at the last column of the last line, and a column where none puts a pixel. -/
theorem witness_EarlierSpriteWins :
    let p : Ppu := { Ppu.reset with
      mask := 0x10, oam := [(252, 0xEE), (253, 0x02), (255, 0xF8)], palette := [(0x13, 0x23)] }
    255 < 256 ∧ 239 < 240 ∧ p.mask.toNat / 16 % 2 = 1 ∧ 63 < 64 ∧ spriteEntry testCart p 239 255 63 = some 0x23 ∧
    (∀ j, j < 63 → spriteEntry testCart p 239 255 j = none) ∧ (∀ j, j < 64 → spriteEntry testCart p 239 0 j = none) := by
  decide +kernel

theorem witness_RenderingFrame : (1 : Nat) ≠ 0 := by decide

theorem witness_ScanlineSchedule : (0 ≤ 239 ∧ 239 ≤ 239) ∧ (240 = 240 ∨ (242 ≤ 240 ∧ 240 ≤ 260)) ∧
    (242 = 240 ∨ (242 ≤ 242 ∧ 242 ≤ 260)) ∧ (260 = 240 ∨ (242 ≤ 260 ∧ 260 ≤ 260)) := by decide

/-- The last dot of a frame, and the last dot that a line can still count up to. -/
theorem witness_PpuTickCountsDots : base.ppu.dot + 340 < 341 ∧
    ({ base with ppu := { base.ppu with scanline := 261, dot := 340 } } : State).ppu.dot = 340 ∧
    ({ base with ppu := { base.ppu with scanline := 261, dot := 340 } } : State).fault = none ∧
    ({ base with ppu := { base.ppu with scanline := 261, dot := 340 } } : State).ppu.scanline < 262 ∧
    ({ base with ppu := { base.ppu with scanline := 261, dot := 340 } } : State).ppu.dot < 341 := by decide

theorem witness_VblankSchedule : base.fault = none ∧ base.ppu.scanline = 0 ∧ base.ppu.dot = 0 ∧ base.ppu.vblank = false ∧
    171522 < 82181 + 89342 := by decide

/-- A tick queued; the wait equal to the budget; the wait one more than the budget; the fault state. -/
theorem witness_TickRunsTheCpuThenThePpu : base.turn = .between ∧
    ({ base with hostMoves := [.tick 7] } : State).hostMoves = [.tick 7] ∧ base.rom = .ready ∧ base.fault = none ∧
    ({ base with turn := .inTick 7 7 } : State).turn = .inTick 7 7 ∧ base.remainingCycles ≤ (7 : Nat) ∧
    (6 : Nat) < base.remainingCycles ∧ ({ base with fault := some .brk } : State).fault = some .brk := by decide +kernel

/-- A running machine in the fault state that is reset, and one without an image. -/
theorem witness_ResetEstablishesItsState :
    ({ base with hostMoves := [.reset], fault := some .brk } : State).turn = .between ∧
    ({ base with hostMoves := [.reset], fault := some .brk } : State).hostMoves = [.reset] ∧
    ({ base with hostMoves := [.reset], fault := some .brk } : State).rom ≠ .absent ∧ base.cart.wf = true ∧
    ({ base with hostMoves := [.reset], rom := .absent } : State).rom = .absent := by decide +kernel

/-- A header of NROM with one PRG bank and one CHR bank, and an image of exactly the length it implies. -/
theorem witness_RomImages :
    let rom : List Byte := [0x4E, 0x45, 0x53, 0x1A, 0x01, 0x01, 0x01, 0x00] ++ List.replicate (8 + 16384 + 8192) 0x00
    let b := fun k => (rom.getD k 0x00).toNat
    b 0 = 0x4E ∧ b 1 = 0x45 ∧ b 2 = 0x53 ∧ b 3 = 0x1A ∧ b 7 / 4 % 4 = 0 ∧ b 7 / 16 * 16 + b 6 / 16 = 0 ∧
    b 4 = 1 ∧ b 5 = 1 ∧ b 6 / 8 % 2 = 0 ∧ b 6 / 4 % 2 = 0 ∧ 16 + 1 * 16384 + 1 * 8192 = rom.length := by
  refine ⟨rfl, rfl, rfl, rfl, rfl, rfl, rfl, rfl, rfl, rfl, ?_⟩
  rw [List.length_append, List.length_replicate]; decide

/-- Refused: no byte at all, and a header one byte short. -/
theorem witness_RomImages_refused : (([] : List Byte).getD 0 0x00).toNat ≠ 0x4E ∧
    ¬ 16 + 0x01 * 16384 ≤ ([0x4E, 0x45, 0x53, 0x1A, 0x01, 0x01, 0x00, 0x00, 0, 0, 0, 0, 0, 0, 0] : List Byte).length := by decide

/-- Each move at the head of the queue, the last button, an image that R7 refuses, and one that it accepts. -/
theorem witness_HostMovesBetweenTicks :
    ({ base with hostMoves := [.keyup .right] } : State).turn = .between ∧
    ({ base with hostMoves := [.keyup .right] } : State).hostMoves = .keyup .right :: [] ∧
    ([.a, .b, .select, .start, .up, .down, .left, .right] : List Button)[7]? = some .right ∧
    ({ base with rom := .absent } : State).rom = .absent ∧ ({ base with rom := .loaded } : State).rom = .loaded ∧
    Cart.ofRom [] = .error .signature := ⟨rfl, rfl, rfl, rfl, rfl, rfl⟩

theorem witness_HostMovesBetweenTicks_accepted : ∃ rom c, Cart.ofRom rom = .ok c := by
  have h : ∀ tail : List Byte, tail.length = 8 + 16384 →
      ∃ c, Cart.ofRom (0x4E :: 0x45 :: 0x53 :: 0x1A :: 0x01 :: 0x00 :: 0x20 :: 0x00 :: tail) = .ok c := by
    intro tail ht
    have hm : headerMapperId 32#8 0#8 = 2 := rfl
    have hd : headerMirroring 32#8 = some .horizontal := rfl
    have hp : prgOffset 32#8 = 16 := rfl
    simp [Cart.ofRom, hm, hd, hp, cartOf, ht]
  exact ⟨_, h (List.replicate (8 + 16384) 0x00) List.length_replicate⟩

/-- A state that meets the invariant, and its step. -/
theorem witness_EveryStepKeepsTheInvariant : (code 0x0200 [0xE6, 0x10] []).Inv ∧
    step (code 0x0200 [0xE6, 0x10] []) = .next (after base (step (code 0x0200 [0xE6, 0x10] []))) := by
  constructor
  · constructor
    case rows =>
      intro y
      show clearRow.length = 256 ∧ clearMask.length = 256
      simp only [clearRow, clearMask, List.length_replicate, and_self]
    case budget => intro n b h; cases h
    all_goals decide +kernel
  · rfl

end Sys2Proof.Tests
end

/-!
SUPPORT. ROM images (R6, R7): the header in numbers, the images that are accepted, and the cartridge of an accepted one
(O57).
-/

namespace Sys2Proof.Machine

/-! ## A memory built from bytes -/

theorem Memory.read_ofBytes_of_lt (k j : Nat) (bs : List Byte) (hj : j < k) : (Memory.ofBytes k bs).read j = 0x00 := by
  rcases Cells.read_mem 0x00 (Memory.ofBytes k bs) j with h | h
  · exact h
  · exact absurd (Memory.mem_ofBytes _ _ _ h).1 (Nat.not_le_of_lt hj)

theorem Memory.read_ofBytes_cons (k j : Nat) (b : Byte) (bs : List Byte) :
    (Memory.ofBytes k (b :: bs)).read j = if k = j then b else (Memory.ofBytes (k + 1) bs).read j := by
  rw [Memory.ofBytes]
  split
  case isTrue hb =>
    split
    case isTrue hk => rw [hb, Memory.read_ofBytes_of_lt _ _ _ (by omega)]
    case isFalse => rfl
  case isFalse => rfl

/-- A memory built from bytes holds each of them at its key, and 0x00 behind the last. -/
theorem Memory.read_ofBytes (k i : Nat) (bs : List Byte) : (Memory.ofBytes k bs).read (k + i) = bs.getD i 0x00 := by
  induction bs generalizing k i with
  | nil => simp [Memory.ofBytes]
  | cons b bs ih =>
    cases i with
    | zero => simp [Memory.read_ofBytes_cons]
    | succ i =>
      have ih := ih (k + 1) i
      rw [show k + 1 + i = k + (i + 1) by omega] at ih
      simpa [Memory.read_ofBytes_cons] using ih

/-- A memory built from `n` bytes of a list, from `off` on, reads as the list does there. -/
theorem Memory.read_ofBytes_slice (bs : List Byte) (off n k : Nat) (hk : k < n) :
    (Memory.ofBytes 0 ((bs.drop off).take n)).read k = bs.getD (off + k) 0x00 := by
  have h := Memory.read_ofBytes 0 k ((bs.drop off).take n)
  rw [Nat.zero_add] at h
  rw [h, List.getD_eq_getElem?_getD, List.getElem?_take_of_lt hk, List.getElem?_drop, ← List.getD_eq_getElem?_getD]

theorem Memory.wf_ofBytes_slice (bs : List Byte) (off n : Nat) :
    (Memory.ofBytes 0 ((bs.drop off).take n)).wf n = true :=
  Memory.wf_ofBytes 0 n _ (by rw [Nat.zero_add]; exact List.length_take_le n _)

/-! ## The bits of the header in numbers -/

theorem getLsbD_iff_toNat (b : Byte) (i : Nat) : b.getLsbD i = true ↔ b.toNat / 2 ^ i % 2 = 1 := by
  rw [BitVec.getLsbD, Nat.testBit_eq_decide_div_mod_eq, decide_eq_true_eq]

theorem versionField_eq_zero_iff : ∀ b : Byte, b &&& 0x0C = 0 ↔ b.toNat / 4 % 4 = 0 := by decide

theorem headerMirroring_eq (b : Byte) : headerMirroring b =
    if b.toNat / 8 % 2 = 1 then none else if b.toNat % 2 = 1 then some .vertical else some .horizontal := by
  simp only [headerMirroring, getLsbD_iff_toNat, Nat.reducePow, Nat.div_one]

theorem prgOffset_eq (b : Byte) : prgOffset b = 16 + if b.toNat / 4 % 2 = 1 then 512 else 0 := by
  simp only [prgOffset, getLsbD_iff_toNat, Nat.reducePow]

/-! ## The accepted images and their cartridge -/

/-- A byte of the image as a number, 0 behind its end. -/
def romByte (rom : List Byte) (k : Nat) : Nat := (rom.getD k 0x00).toNat

/-- `MAPPER_ID` of the image (R6). -/
def romMapperId (rom : List Byte) : Nat := romByte rom 7 / 16 * 16 + romByte rom 6 / 16

/-- Where PRG begins in the image (R6). -/
def romStart (rom : List Byte) : Nat := 16 + if romByte rom 6 / 4 % 2 = 1 then 512 else 0

/-- The image meets no condition of R7 for a refusal. -/
def RomAccepted (rom : List Byte) : Prop :=
  romByte rom 0 = 0x4E ∧ romByte rom 1 = 0x45 ∧ romByte rom 2 = 0x53 ∧ romByte rom 3 = 0x1A ∧
  romByte rom 7 / 4 % 4 = 0 ∧ (romMapperId rom = 0 ∨ romMapperId rom = 2) ∧ romByte rom 4 ≠ 0 ∧
  (romMapperId rom = 0 → romByte rom 4 ≤ 2 ∧ romByte rom 5 ≠ 0) ∧ romByte rom 6 / 8 % 2 = 0 ∧
  romStart rom + romByte rom 4 * 16384 + romByte rom 5 * 8192 ≤ rom.length

/-- The cartridge R6 gives for an image. -/
def romCart (rom : List Byte) : Cart where
  mapper := if romMapperId rom = 0 then .nrom else .uxrom
  prgBanks := romByte rom 4
  chrBanks := romByte rom 5
  mirroring := if romByte rom 6 % 2 = 1 then .vertical else .horizontal
  prg := Memory.ofBytes 0 ((rom.drop (romStart rom)).take (romByte rom 4 * 16384))
  chr := Memory.ofBytes 0 ((rom.drop (romStart rom + romByte rom 4 * 16384)).take (romByte rom 5 * 8192))
  chrRam := []
  bankSelect := 0

@[simp] theorem romByte_cons_zero (b : Byte) (rom : List Byte) : romByte (b :: rom) 0 = b.toNat := rfl

@[simp] theorem romByte_cons_succ (b : Byte) (rom : List Byte) (k : Nat) :
    romByte (b :: rom) (k + 1) = romByte rom k := rfl

theorem romByte_lt (rom : List Byte) (k : Nat) : romByte rom k < 256 := (rom.getD k 0x00).isLt

/-- A byte that is not 0 lies in the image. -/
theorem lt_length_of_romByte_ne_zero {rom : List Byte} {k : Nat} (h : romByte rom k ≠ 0) : k < rom.length := by
  by_contra hk
  exact h (by rw [romByte, List.getD_eq_default _ _ (Nat.le_of_not_lt hk)]; rfl)

/-- An accepted image has a whole header: its PRG bank alone is longer. -/
theorem RomAccepted.sixteen_le_length {rom : List Byte} (h : RomAccepted rom) : 16 ≤ rom.length := by
  obtain ⟨-, -, -, -, -, -, -, -, -, hlen⟩ := h
  have hstart : 16 ≤ romStart rom := Nat.le_add_right _ _
  omega

/-- An accepted image begins with the signature and four header bytes. -/
theorem RomAccepted.exists_header {rom : List Byte} (h : RomAccepted rom) :
    ∃ b4 b5 b6 b7 tail, rom = 0x4E :: 0x45 :: 0x53 :: 0x1A :: b4 :: b5 :: b6 :: b7 :: tail := by
  have hlen := h.sixteen_le_length
  obtain ⟨h0, h1, h2, h3, -⟩ := h
  match rom, hlen with
  | b0 :: b1 :: b2 :: b3 :: b4 :: b5 :: b6 :: b7 :: tail, _ =>
    obtain rfl : b0 = 0x4E := BitVec.eq_of_toNat_eq h0
    obtain rfl : b1 = 0x45 := BitVec.eq_of_toNat_eq h1
    obtain rfl : b2 = 0x53 := BitVec.eq_of_toNat_eq h2
    obtain rfl : b3 = 0x1A := BitVec.eq_of_toNat_eq h3
    exact ⟨b4, b5, b6, b7, tail, rfl⟩

/-! ## What the loader answers -/

/-- The loader on an image with the signature: its guards in the order it tests them, in numbers. -/
theorem Cart.ofRom_header {rom tail : List Byte} {b4 b5 b6 b7 : Byte}
    (hrom : rom = 0x4E :: 0x45 :: 0x53 :: 0x1A :: b4 :: b5 :: b6 :: b7 :: tail) :
    Cart.ofRom rom =
      if romByte rom 7 / 4 % 4 ≠ 0 then .error .version
      else if romMapperId rom ≠ 0 ∧ romMapperId rom ≠ 2 then .error .mapper
      else if romByte rom 4 = 0 then .error .prgBanks
      else if romMapperId rom = 0 ∧ (romByte rom 4 > 2 ∨ romByte rom 5 = 0) then .error .nromBanks
      else if romByte rom 6 / 8 % 2 = 1 then .error .fourScreen
      else if rom.length < romStart rom + romByte rom 4 * 16384 + romByte rom 5 * 8192 then .error .tooShort
      else .ok (romCart rom) := by
  subst hrom
  have hzero (b : Byte) : b = 0 ↔ b.toNat = 0 := BitVec.toNat_inj.symm
  refine (Cart.ofRom.eq_1 b4 b5 b6 b7 tail).trans ?_
  simp only [cartOf, romCart, romMapperId, romStart, headerMapperId, romByte_cons_zero, romByte_cons_succ, ne_eq,
    versionField_eq_zero_iff, hzero b4, hzero b5, headerMirroring_eq, prgOffset_eq]
  by_cases hfour : b6.toNat / 8 % 2 = 1
  · simp only [hfour, if_true]
  · by_cases hvert : b6.toNat % 2 = 1 <;> simp only [hfour, hvert, if_true, if_false] <;> rfl

/-- An image the loader accepts meets no condition of R7. -/
theorem RomAccepted.of_ofRom_ok {rom : List Byte} {c : Cart} (h : Cart.ofRom rom = .ok c) : RomAccepted rom := by
  obtain ⟨b4, b5, b6, b7, tail, hrom⟩ :
      ∃ b4 b5 b6 b7 tail, rom = 0x4E :: 0x45 :: 0x53 :: 0x1A :: b4 :: b5 :: b6 :: b7 :: tail := by
    unfold Cart.ofRom at h
    split at h
    · exact ⟨_, _, _, _, _, rfl⟩
    · cases h
  rw [Cart.ofRom_header hrom] at h
  split_ifs at h with hver hmap hprg hnrom hmir hlen
  refine ⟨by rw [hrom]; rfl, by rw [hrom]; rfl, by rw [hrom]; rfl, by rw [hrom]; rfl, ?_⟩
  exact ⟨by omega, by omega, hprg, by omega, by omega, by omega⟩

/-- The loader answers the cartridge of R6 for an accepted image. -/
theorem RomAccepted.ofRom_eq {rom : List Byte} (h : RomAccepted rom) : Cart.ofRom rom = .ok (romCart rom) := by
  obtain ⟨b4, b5, b6, b7, tail, hrom⟩ := h.exists_header
  obtain ⟨-, -, -, -, hver, hmap, hprg, hnrom, hmir, hlen⟩ := h
  rw [Cart.ofRom_header hrom, if_neg (by omega), if_neg (by omega), if_neg hprg, if_neg (by omega), if_neg (by omega),
    if_neg (by omega)]

theorem exists_error_of_not_romAccepted {rom : List Byte} (h : ¬ RomAccepted rom) : ∃ e, Cart.ofRom rom = .error e := by
  cases hload : Cart.ofRom rom with
  | error e => exact ⟨e, rfl⟩
  | ok c => exact absurd (RomAccepted.of_ofRom_ok hload) h

/-- The cartridge of an accepted image is legal. -/
theorem RomAccepted.wf_romCart {rom : List Byte} (h : RomAccepted rom) : (romCart rom).wf = true := by
  obtain ⟨-, -, -, -, -, -, hprg, hnrom, -, -⟩ := h
  have hprg' : 1 ≤ romByte rom 4 := Nat.one_le_iff_ne_zero.2 hprg
  by_cases hm : romMapperId rom = 0
  · obtain ⟨hbanks, hchr⟩ := hnrom hm
    simp [Cart.wf, romCart, hm, hprg', hbanks, Nat.one_le_iff_ne_zero, hchr, romByte_lt, Memory.wf_ofBytes_slice]
  · simp [Cart.wf, romCart, hm, hprg', romByte_lt, Memory.wf_ofBytes_slice]

theorem romCart_mapper_eq_nrom_iff (rom : List Byte) : (romCart rom).mapper = .nrom ↔ romMapperId rom = 0 := by
  simp [romCart]

theorem romCart_mirroring_eq_vertical_iff (rom : List Byte) :
    (romCart rom).mirroring = .vertical ↔ romByte rom 6 % 2 = 1 := by
  simp [romCart]

/-- Settles O57: an image is accepted exactly if it meets no condition of R7, and then gives the cartridge `romCart` that
reads off its header and its bytes. -/
theorem romImages : Obligations.RomImages := by
  intro rom
  refine ⟨exists_error_of_not_romAccepted, RomAccepted.sixteen_le_length, fun h => ⟨romCart rom, ?_⟩⟩
  have h : RomAccepted rom := h
  exact ⟨h.ofRom_eq, h.wf_romCart, romCart_mapper_eq_nrom_iff rom, rfl, rfl, romCart_mirroring_eq_vertical_iff rom, rfl, rfl,
    fun k hk => Memory.read_ofBytes_slice rom (romStart rom) _ k hk,
    fun k hk => Memory.read_ofBytes_slice rom (romStart rom + romByte rom 4 * 16384) _ k hk⟩

end Sys2Proof.Machine

/-!
SUPPORT. What a sequence of operations ensures when it yields, and how an instruction ends: at its boundary with a trap, or
in a state of which the rules of its shape (`Machine/Operands.lean`) say what it is.
-/

namespace Sys2Proof.Machine

/-! ## What an operation ensures -/

/-- If the operation yields, its value and its state meet `Q`. -/
def Res.Ensures {α : Type} (r : Res α) (Q : α → State → Prop) : Prop := ∀ v t, r = .ok v t → Q v t

theorem Res.Ensures.ok {α : Type} {v : α} {s : State} {Q : α → State → Prop} (h : Q v s) : (Res.ok v s).Ensures Q := by
  intro _ _ e; cases e; exact h

theorem Res.Ensures.bind {α β : Type} {r : Res α} {f : α → State → Res β} {P : α → State → Prop}
    {Q : β → State → Prop} (hr : r.Ensures P) (hf : ∀ v t, P v t → (f v t).Ensures Q) : (r.bind f).Ensures Q := by
  intro b u h
  obtain ⟨v, t, h1, h2⟩ := Res.bind_eq_ok h
  exact hf v t (hr v t h1) b u h2

/-- An operation that yields, put before others: its state is theirs to begin in. -/
theorem Res.Ensures.bind_ok {α β : Type} {r : Res α} {f : α → State → Res β} {v : α} {t : State}
    {Q : β → State → Prop} (hr : r = .ok v t) (hf : (f v t).Ensures Q) : (r.bind f).Ensures Q := by
  rw [hr]; exact hf

/-! ## How an instruction ends -/

/-- The outcome of an instruction that began in `s`: its boundary with `fault` set, or a state that meets `Q`. -/
def Ends (s : State) (r : Result) (Q : State → Prop) : Prop :=
  ∀ t, r = .next t → (∃ k, t = { s with fault := some k }) ∨ Q t

section
variable {s : State} {Q : State → Prop}

theorem Ends.next {t : State} (h : Q t) : Ends s (.next t) Q := by
  intro _ e; cases e; exact .inr h

theorem Ends.raiseTrap (s : State) (k : TrapKind) (Q : State → Prop) : Ends s (raiseTrap s k) Q := by
  intro _ e; cases e; exact .inl ⟨k, rfl⟩

theorem Ends.finish {r : Res Unit} (h : r.Ensures fun _ t => Q t) : Ends s (finish s r) Q := by
  cases r with
  | ok u t => exact .next (h u t rfl)
  | trap k => exact .raiseTrap s k Q

theorem Ends.readInstr {m : Operand} {f : Byte → State → State}
    (h : ∀ v t, load (resolve m s) s = .ok v t →
      Q ((f v t).retire (lenOf m) (readCycles m + penalty (resolve m s).crossed))) : Ends s (readInstr m f s) Q :=
  .finish (.bind (P := fun v t => load (resolve m s) s = .ok v t) (fun _ _ e => e) fun v t e => .ok (h v t e))

theorem Ends.writeInstr {m : Operand} {v : Byte}
    (h : ∀ t, store (resolve m s) v s = .ok () t → Q (t.retire (lenOf m) (writeCycles m))) :
    Ends s (writeInstr m v s) Q :=
  .finish (.bind (P := fun _ t => store (resolve m s) v s = .ok () t) (fun _ _ e => e) fun _ t e => .ok (h t e))

theorem Ends.rmwInstr {m : Operand} {g : Byte → Flags → Byte × Flags} {f : Byte → State → State}
    (h : ∀ v t u, load (resolve m s) s = .ok v t →
      store (resolve m s) (g v t.p).1 { t with p := (g v t.p).2 } = .ok () u →
      Q ((f (g v t.p).1 u).retire (lenOf m) (rmwCycles m))) : Ends s (rmwInstr m g f s) Q :=
  .finish (.bind (P := fun v t => load (resolve m s) s = .ok v t) (fun _ _ e => e) fun v t hl =>
    .bind (P := fun _ u => store (resolve m s) (g v t.p).1 { t with p := (g v t.p).2 } = .ok () u) (fun _ _ e => e)
      fun _ u hs => .ok (h v t u hl hs))

theorem Ends.branch {d : Byte} {cond : Bool} (h : ∀ pc n, 0 < n → Q ({ s with pc := pc }.bill n)) :
    Ends s (branch d cond s) Q := by
  unfold Machine.branch
  split
  · exact .next (h _ _ (by omega))
  · exact .next (h _ 2 (by decide))

end

end Sys2Proof.Machine

/-!
SUPPORT. What every instruction leaves alone or in order, whatever it computes: it reaches the machine through the CPU bus and
the registers only, and at its end it bills at least one cycle (O59, O46).
-/

namespace Sys2Proof.Machine

/-- `t` comes from `s` by accesses of the CPU bus and changes of registers. -/
structure CpuFrame (s t : State) : Prop where
  /-- The invariant, but for the wait. -/
  sound : Sound s → Sound t
  /-- R35: ROM is fixed at load. -/
  roms : t.cart.prg = s.cart.prg ∧ t.cart.chr = s.cart.chr
  /-- R8: the parameters are fixed for a run. -/
  config : t.config = s.config
  /-- R31: the interrupt line is an external input. -/
  irq : t.irqLine = s.irqLine ∧ t.irqLevels = s.irqLevels
  /-- R440: what belongs to the host and to the tick under way. -/
  host : t.rom = s.rom ∧ t.turn = s.turn ∧ t.hostMoves = s.hostMoves
  /-- R431: cycles are only added. -/
  wait : s.remainingCycles ≤ t.remainingCycles

theorem CpuFrame.refl (s : State) : CpuFrame s s := ⟨id, ⟨rfl, rfl⟩, rfl, ⟨rfl, rfl⟩, ⟨rfl, rfl, rfl⟩, le_refl _⟩

theorem CpuFrame.trans {s t u : State} (h : CpuFrame s t) (h' : CpuFrame t u) : CpuFrame s u where
  sound := h'.sound ∘ h.sound
  roms := ⟨h'.roms.1.trans h.roms.1, h'.roms.2.trans h.roms.2⟩
  config := h'.config.trans h.config
  irq := ⟨h'.irq.1.trans h.irq.1, h'.irq.2.trans h.irq.2⟩
  host := ⟨h'.host.1.trans h.host.1, h'.host.2.1.trans h.host.2.1, h'.host.2.2.trans h.host.2.2⟩
  wait := h.wait.trans h'.wait

/-- Nothing but A, X, Y, S, PC and the flags changed. -/
def RegisterChange (s t : State) : Prop :=
  t = { s with a := t.a, x := t.x, y := t.y, sp := t.sp, pc := t.pc, p := t.p }

theorem CpuFrame.of_registers {s t : State} (h : RegisterChange s t) : CpuFrame s t := by
  rw [h]
  exact ⟨fun hs => hs.congr rfl rfl rfl rfl rfl rfl rfl, ⟨rfl, rfl⟩, rfl, ⟨rfl, rfl⟩, ⟨rfl, rfl, rfl⟩, le_refl _⟩

theorem CpuFrame.withFault (s : State) (k : TrapKind) : CpuFrame s { s with fault := some k } :=
  ⟨fun hs => hs.congr rfl rfl rfl rfl rfl rfl rfl, ⟨rfl, rfl⟩, rfl, ⟨rfl, rfl⟩, ⟨rfl, rfl, rfl⟩, le_refl _⟩

theorem CpuFrame.bill (s : State) (n : Nat) : CpuFrame s (s.bill n) :=
  ⟨fun hs => hs.congr rfl rfl rfl rfl rfl rfl rfl, ⟨rfl, rfl⟩, rfl, ⟨rfl, rfl⟩, ⟨rfl, rfl, rfl⟩, by simp⟩

theorem CpuFrame.of_rd {a : Word} {s t : State} {v : Byte} (h : rd a s = .ok v t) : CpuFrame s t := by
  have hsound : Sound s → Sound t := fun hs => hs.rd h
  rw [rd_frame h] at hsound ⊢
  exact ⟨hsound, ⟨rfl, rfl⟩, rfl, ⟨rfl, rfl⟩, ⟨rfl, rfl, rfl⟩, le_refl _⟩

theorem CpuFrame.of_wr {a : Word} {s t : State} {v : Byte} (h : wr a v s = .ok () t) : CpuFrame s t := by
  have hf := wr_frame h
  obtain ⟨hline, hlevels, -, hconfig, hrom, hturn, hmoves⟩ := hf.control
  obtain ⟨-, -, -, -, hprg, hchr⟩ := hf.cartridge
  exact ⟨fun hs => hs.wr h, ⟨hprg, hchr⟩, hconfig, ⟨hline, hlevels⟩, ⟨hrom, hturn, hmoves⟩,
    by rw [hf.cycles]; split <;> omega⟩

theorem CpuFrame.of_load {r : Resolved} {s t : State} {v : Byte} (h : load r s = .ok v t) : CpuFrame s t := by
  cases r with
  | mem ea c => exact .of_rd h
  | none | acc | imm => cases h; exact .refl _

theorem CpuFrame.of_store {r : Resolved} {s t : State} {v : Byte} (h : store r v s = .ok () t) : CpuFrame s t := by
  cases r with
  | mem ea c => exact .of_wr h
  | acc => cases h; exact .of_registers rfl
  | none | imm => cases h; exact .refl _

theorem rd_cpuFrame (a : Word) (s : State) : (rd a s).Ensures fun _ t => CpuFrame s t := fun _ _ => .of_rd

theorem rd16_cpuFrame (a : Word) (s : State) : (rd16 a s).Ensures fun _ t => CpuFrame s t :=
  (rd_cpuFrame a s).bind fun _ t ht => (rd_cpuFrame (a + 1) t).bind fun _ _ hu => .ok (ht.trans hu)

theorem rdInd_cpuFrame (ptr : Word) (s : State) : (rdInd ptr s).Ensures fun _ t => CpuFrame s t :=
  (rd_cpuFrame ptr s).bind fun _ t ht => (rd_cpuFrame _ t).bind fun _ _ hu => .ok (ht.trans hu)

theorem push_cpuFrame (v : Byte) (s : State) : (push v s).Ensures fun _ t => CpuFrame s t :=
  .bind (P := fun _ t => CpuFrame s t) (fun _ _ => .of_wr) fun _ _ ht => .ok (ht.trans (.of_registers (by rfl)))

theorem pull_cpuFrame (s : State) : (pull s).Ensures fun _ t => CpuFrame s t :=
  fun v t h => CpuFrame.trans (.of_registers (by rfl)) (rd_cpuFrame _ { s with sp := s.sp + 1 } v t h)

theorem pushWord_cpuFrame (w : Word) (s : State) : (pushWord w s).Ensures fun _ t => CpuFrame s t :=
  (push_cpuFrame _ s).bind fun _ t ht u w h => ht.trans (push_cpuFrame _ t u w h)

theorem pullWord_cpuFrame (s : State) : (pullWord s).Ensures fun _ t => CpuFrame s t :=
  (pull_cpuFrame s).bind fun _ t ht => (pull_cpuFrame t).bind fun _ _ hu => .ok (ht.trans hu)

/-- An instruction from `s` completed in `t`: beside the frame, the wait grew, unless JAM takes no cycle (R8). -/
def Completed (s t : State) : Prop := CpuFrame s t ∧ (s.config.wf = true → s.remainingCycles < t.remainingCycles)

/-- After the accesses, the effect on the registers and the bill. -/
theorem CpuFrame.completed {s t u : State} {n : Nat} (h : CpuFrame s t) (hu : RegisterChange t u) (hn : 0 < n) :
    Completed s (u.bill n) := by
  have h : CpuFrame s u := h.trans (.of_registers hu)
  have hw := h.wait
  exact ⟨h.trans (.bill u n), fun _ => by rw [State.bill_remainingCycles]; omega⟩

theorem interruptEntry_completed (vector ret : Word) (b : Bool) (s : State) :
    (interruptEntry vector ret b s).Ensures fun _ t => Completed s t :=
  (pushWord_cpuFrame ret s).bind fun _ s1 h1 => (push_cpuFrame _ s1).bind fun _ s2 h2 =>
    (rd16_cpuFrame vector _).bind fun _ _ h3 =>
      .ok ((((h1.trans h2).trans (.of_registers (by rfl))).trans h3).completed rfl (by decide))

theorem interruptReturn_cpuFrame (s : State) : (interruptReturn s).Ensures fun _ t => CpuFrame s t :=
  (pull_cpuFrame s).bind fun _ _ h1 => (pullWord_cpuFrame _).bind fun _ _ h2 =>
    .ok (((h1.trans (.of_registers (by rfl))).trans h2).trans (.of_registers (by rfl)))

theorem readCycles_pos (m : Operand) : 0 < readCycles m := by cases m <;> simp [readCycles]
theorem writeCycles_pos (m : Operand) : 0 < writeCycles m := by cases m <;> simp [writeCycles]
theorem rmwCycles_pos (m : Operand) : 0 < rmwCycles m := by cases m <;> simp [rmwCycles]

theorem readInstr_completed {m : Operand} {f : Byte → State → State} {s : State} (hf : ∀ v t, RegisterChange t (f v t)) :
    Ends s (readInstr m f s) (Completed s) :=
  .readInstr fun v t h => (((CpuFrame.of_load h).trans (.of_registers (hf v t)))).completed rfl
    (Nat.add_pos_left (readCycles_pos m) _)

theorem writeInstr_completed {m : Operand} {v : Byte} {s : State} : Ends s (writeInstr m v s) (Completed s) :=
  .writeInstr fun _ h => (CpuFrame.of_store h).completed rfl (writeCycles_pos m)

theorem rmwInstr_completed {m : Operand} {g : Byte → Flags → Byte × Flags} {f : Byte → State → State} {s : State}
    (hf : ∀ v t, RegisterChange t (f v t)) : Ends s (rmwInstr m g f s) (Completed s) :=
  .rmwInstr fun v t u hl hs =>
    ((((CpuFrame.of_load hl).trans (.of_registers (by rfl))).trans (.of_store hs)).trans
      (.of_registers (hf (g v t.p).1 u))).completed rfl (rmwCycles_pos m)

theorem impliedInstr_completed {f : State → State} {s : State} (hf : RegisterChange s (f s)) :
    Ends s (impliedInstr f s) (Completed s) :=
  .next ((CpuFrame.of_registers hf).completed rfl (by decide))

theorem branch_completed {d : Byte} {cond : Bool} {s : State} : Ends s (branch d cond s) (Completed s) :=
  .branch fun _ _ hn => (CpuFrame.refl s).completed rfl hn

/-- Every instruction traps at its boundary or completes within the frame. -/
theorem exec_completed (i : Instr) (s : State) : Ends s (exec i s) (Completed s) := by
  unfold exec
  cases i with
  | lda | ldx | ldy | adc | sbc | and | ora | eor | cmp | cpx | cpy | bit | lax | usbc | anc | alr =>
    exact readInstr_completed fun _ _ => rfl
  | sta | stx | sty | sax => exact writeInstr_completed
  | inc | dec | asl | lsr | rol | ror | dcp | isb | slo | rla | sre | rra => exact rmwInstr_completed fun _ _ => rfl
  | tax | tay | txa | tya | tsx | txs | inx | iny | dex | dey | clc | sec | cli | sei | cld | sed | clv | nop =>
    exact impliedInstr_completed rfl
  | bcc | bcs | beq | bne | bmi | bpl | bvc | bvs => exact branch_completed
  | jmp => exact .next ((CpuFrame.refl s).completed rfl (by decide))
  | jmpInd ptr => exact .finish ((rdInd_cpuFrame ptr s).bind fun _ _ h => .ok (h.completed rfl (by decide)))
  | jsr => exact .finish ((pushWord_cpuFrame _ s).bind fun _ _ h => .ok (h.completed rfl (by decide)))
  | rts => exact .finish ((pullWord_cpuFrame s).bind fun _ _ h => .ok (h.completed rfl (by decide)))
  | rti => exact .finish ((interruptReturn_cpuFrame s).bind fun _ _ h => .ok (h.completed rfl (by decide)))
  | brk =>
    show Ends s (execBrk s) _
    unfold execBrk
    split
    · exact .raiseTrap s _ _
    · exact .finish (interruptEntry_completed _ _ _ s)
  | pha | php => exact .finish ((push_cpuFrame _ s).bind fun _ _ h => .ok (h.completed rfl (by decide)))
  | pla | plp => exact .finish ((pull_cpuFrame s).bind fun _ _ h => .ok (h.completed rfl (by decide)))
  | nopUndoc _ m => exact .next ((CpuFrame.refl s).completed rfl (Nat.add_pos_left (readCycles_pos m) _))
  | jam =>
    refine .next ⟨.bill s _, fun hc => ?_⟩
    have hj : 1 ≤ s.config.jamCycles := by simpa [Config.wf] using hc
    rw [State.bill_remainingCycles]
    omega
  | invalid => exact .raiseTrap s _ _

end Sys2Proof.Machine

/-!
SUPPORT. The invariant, agent by agent: it holds after a reset (O58, R421), and a dispatch, a tick and every move of the host
keep it (O59).
-/

namespace Sys2Proof.Machine

/-- The fields of the state that are in no clause of the invariant. -/
theorem State.Inv.congr {s t : State} (h : s.Inv) (hram : t.ram = s.ram) (hcart : t.cart = s.cart) (hppu : t.ppu = s.ppu)
    (hjoy1 : t.joy1 = s.joy1) (hjoy2 : t.joy2 = s.joy2) (hconfig : t.config = s.config) (hturn : t.turn = s.turn)
    (hwait : t.remainingCycles = s.remainingCycles) : t.Inv := by
  obtain ⟨hs, hw⟩ := (sound_iff s).1 h
  exact (sound_iff t).2 ⟨hs.congr hram hcart hppu hjoy1 hjoy2 hconfig hturn, hwait ▸ hw⟩

/-- A boundary is rolled back to with `fault` set (R381). -/
theorem State.Inv.withFault {s : State} (h : s.Inv) (k : TrapKind) : State.Inv { s with fault := some k } :=
  h.congr rfl rfl rfl rfl rfl rfl rfl rfl

/-- Empty RAM and the PPU of R51 meet every clause about them. -/
theorem State.Inv.of_cleared {s : State} (hram : s.ram = []) (hppu : s.ppu = Ppu.reset) (hcart : s.cart.wf = true)
    (hconfig : s.config.wf = true) (hindex : s.joy1.index = 0 ∧ s.joy2.index = 0) (hjoy2 : s.joy2.buttons = 0x00)
    (hwait : 1 ≤ s.remainingCycles) (hturn : ∀ n b, s.turn = .inTick n b → b ≤ n) : s.Inv where
  ram := hram ▸ rfl
  cart := hcart
  config := hconfig
  vram := hppu ▸ rfl
  palette := hppu ▸ rfl
  paletteMirrors := fun _ _ => hppu ▸ rfl
  oam := hppu ▸ rfl
  scanline := hppu ▸ by decide
  dot := hppu ▸ by decide
  framebuffer := hppu ▸ ⟨rfl, rfl⟩
  bgmask := hppu ▸ ⟨rfl, rfl⟩
  rows := fun _ => hppu ▸ ⟨List.length_replicate, List.length_replicate⟩
  joypads := by rw [hindex.1, hindex.2]; decide
  strobes := ⟨fun _ => hindex.1, fun _ => hindex.2⟩
  joy2 := hjoy2
  wait := hwait
  budget := hturn

/-- Settles O58: the state after reset has its memories empty, the blank cartridge, and waits seven cycles. -/
theorem invariantHoldsAtReset : Obligations.InvariantHoldsAtReset :=
  .of_cleared rfl rfl (by decide) (by decide) ⟨rfl, rfl⟩ rfl (by decide) fun _ _ h => by cases h

/-! ## A dispatch -/

theorem fetch_cpuFrame (s : State) : (fetch s).Ensures fun _ t => CpuFrame s t := by
  refine (rd_cpuFrame s.pc s).bind fun op s1 h1 => ?_
  have second := rd_cpuFrame (s.pc + 1) s1
  split
  · exact .ok h1
  · exact second.bind fun _ _ h2 => .ok (h1.trans h2)
  · exact second.bind fun _ s2 h2 => (rd_cpuFrame _ s2).bind fun _ _ h3 => .ok ((h1.trans h2).trans h3)

/-- What a dispatch completes from a wait that has elapsed meets the whole invariant. -/
theorem Completed.inv {s t : State} (h : Completed s t) (hs : Sound s) (hw : 0 ≤ s.remainingCycles) : t.Inv := by
  obtain ⟨hframe, hgrew⟩ := h
  have hgrew := hgrew hs.config
  exact (sound_iff t).2 ⟨hframe.sound hs, by omega⟩

theorem State.Inv.settle {s t u : State} {i : Instr} (h : s.Inv) (ht : Sound t) (hw : 0 ≤ t.remainingCycles)
    (hu : settle s (exec i t) = .next u) : u.Inv := by
  obtain ⟨v, hv⟩ := exec_next i t
  obtain ⟨u', hu', hcases⟩ := settle_next s v
  rw [hv, hu'] at hu
  cases hu
  obtain ⟨hnone, rfl⟩ | ⟨k, -, rfl⟩ := hcases
  · obtain ⟨k, rfl⟩ | hdone := exec_completed i t _ hv
    · cases hnone
    · exact hdone.inv ht hw
  · exact h.withFault k

theorem State.Inv.dispatch {s t : State} (h : s.Inv) (ht : dispatch s = .next t) : t.Inv := by
  obtain ⟨hs, -⟩ := (sound_iff s).1 h
  obtain ⟨k, -, hd⟩ | ⟨-, v, -, hd⟩ | ⟨-, -, k, -, hd⟩ | ⟨-, -, i, u, hfetch, hd⟩ := dispatch_cases s <;> rw [hd] at ht
  · cases ht; exact h
  · obtain ⟨k, rfl⟩ | hdone := Ends.finish (interruptEntry_completed v s.pc false (acknowledge s)) t ht
    · exact h.withFault k
    · exact hdone.inv (hs.congr rfl rfl rfl rfl rfl rfl rfl) (le_refl 0)
  · cases ht; exact h.withFault k
  · have hframe := fetch_cpuFrame _ i u hfetch
    exact h.settle (hframe.sound (hs.congr rfl rfl rfl rfl rfl rfl rfl)) hframe.wait ht

/-! ## The tick and the host -/

theorem State.Inv.ppuTick {s : State} (h : s.Inv) (n : Nat) : (ppuTick n s).Inv := by
  obtain ⟨hs, hw⟩ := (sound_iff s).1 h
  exact (sound_iff _).2 ⟨hs.ppuTick n, by rw [ppuTick_wait]; exact hw⟩

theorem State.Inv.withTurn {s : State} (h : s.Inv) (turn : Turn) (hturn : ∀ n b, turn = .inTick n b → b ≤ n) :
    State.Inv { s with turn := turn } :=
  { h with budget := hturn }

theorem State.Inv.withWait {s : State} (h : s.Inv) {wait : Int} (hwait : 1 ≤ wait) :
    State.Inv { s with remainingCycles := wait } :=
  { h with wait := hwait }

theorem State.Inv.sampleIrq {s : State} (h : s.Inv) : (sampleIrq s).Inv := h.congr rfl rfl rfl rfl rfl rfl rfl rfl

theorem State.Inv.between {s : State} (h : s.Inv) : State.Inv { s with turn := .between } :=
  h.withTurn .between fun _ _ e => by cases e

theorem State.Inv.tickTurn {s t : State} {n budget : Nat} (h : s.Inv) (hb : budget ≤ n)
    (ht : tickTurn n budget s = .next t) : t.Inv := by
  unfold Machine.tickTurn at ht
  split at ht
  · cases ht; exact h.between
  split at ht
  · refine State.Inv.dispatch (State.Inv.sampleIrq (h.withTurn _ fun n' b' e => ?_)) ht
    cases e
    have hw := h.wait
    omega
  · cases ht
    exact (h.between.withWait (by omega)).ppuTick _

theorem State.Inv.freeRun {s t : State} (h : s.Inv) (ht : freeRun s = .next t) : t.Inv := by
  unfold Machine.freeRun at ht
  split at ht
  · cases ht
  · cases ht
  split at ht
  · cases ht
  split at ht
  · rename_i u hu
    cases ht
    exact (((h.ppuTick _).withWait (le_refl 1)).sampleIrq.dispatch hu).ppuTick 3
  · cases ht
  · cases ht

/-- The host's reset goes on only where the core's does. -/
theorem hostMove_reset {s t : State} (h : hostMove .reset s = .next t) : reset s = .next t := by
  cases hr : s.rom <;> simp only [hostMove, hr] at h
  · cases h
  · exact h
  · exact h

/-- The host's tick only opens the budget. -/
theorem hostMove_tick {s t : State} {n : Nat} (h : hostMove (.tick n) s = .next t) :
    t = { s with turn := .inTick n n } := by
  cases hr : s.rom <;> simp only [hostMove, hr] at h <;> cases h
  rfl

/-- The mapper's reset selects bank 0, as a write of 0x00 does. -/
theorem Cart.reset_eq_writePrg (c : Cart) : c.reset = c.writePrg 0x00 := by
  unfold Cart.reset Cart.writePrg
  cases c.mapper <;> rfl

theorem Cart.wf_reset {c : Cart} (h : c.wf = true) : c.reset.wf = true := by
  rw [Cart.reset_eq_writePrg]; exact Cart.wf_writePrg c 0x00 h

theorem State.Inv.reset {s t : State} (h : s.Inv) (ht : Machine.reset s = .next t) : t.Inv := by
  unfold Machine.reset at ht
  extract_lets cleared at ht
  have hcleared : cleared.Inv :=
    .of_cleared rfl rfl (Cart.wf_reset h.cart) h.config ⟨rfl, rfl⟩ h.joy2 (by show (1 : Int) ≤ 7; decide) h.budget
  split at ht
  · rename_i v u hu
    cases ht
    have hframe := (rd16_cpuFrame _ _ v u hu).trans (CpuFrame.of_registers (t := { u with pc := v }) rfl)
    obtain ⟨hs, hw⟩ := (sound_iff _).1 hcleared
    exact (sound_iff _).2 ⟨hframe.sound hs, hw.trans hframe.wait⟩
  · cases ht; exact hcleared.withFault _

theorem State.Inv.loadRom {s : State} (h : s.Inv) (rom : List Byte) : (loadRom rom s).Inv := by
  unfold Machine.loadRom
  split
  · rename_i c hc
    have haccepted := RomAccepted.of_ofRom_ok hc
    rw [haccepted.ofRom_eq] at hc
    cases hc
    exact { h with cart := haccepted.wf_romCart }
  · exact h.congr rfl rfl rfl rfl rfl rfl rfl rfl

theorem State.Inv.hostMove {s t : State} {m : HostMove} (h : s.Inv) (ht : hostMove m s = .next t) : t.Inv := by
  cases m with
  | loadRom rom => cases ht; exact h.loadRom rom
  | reset => exact h.reset (hostMove_reset ht)
  | tick n =>
    rw [hostMove_tick ht]
    exact h.withTurn _ fun _ _ e => by cases e; exact le_refl n
  | keydown | keyup => cases ht; exact { h with }
  | readPicture => cases ht; exact h
  | irq level => cases ht; exact h.congr rfl rfl rfl rfl rfl rfl rfl rfl

/-! ## A step -/

theorem step_inTick {s : State} {n b : Nat} (h : s.turn = .inTick n b) : step s = tickTurn n b s := by
  simp only [step, advance, h]

theorem step_between_nil {s : State} (h : s.turn = .between) (hm : s.hostMoves = []) : step s = freeRun s := by
  simp only [step, advance, h, hm]

theorem step_between_cons {s : State} {m : HostMove} {ms : List HostMove} (h : s.turn = .between)
    (hm : s.hostMoves = m :: ms) : step s = hostMove m { s with hostMoves := ms } := by
  simp only [step, advance, h, hm]

/-- Settles O59: the agent whose turn it is keeps the invariant, whichever it is. -/
theorem everyStepKeepsTheInvariant : Obligations.EveryStepKeepsTheInvariant := by
  intro s t h ht
  cases hturn : s.turn with
  | inTick n budget =>
    rw [step_inTick hturn] at ht
    exact h.tickTurn (h.budget n budget hturn) ht
  | between =>
    cases hmoves : s.hostMoves with
    | nil =>
      rw [step_between_nil hturn hmoves] at ht
      exact h.freeRun ht
    | cons m ms =>
      have h' : State.Inv { s with hostMoves := ms } := h.congr rfl rfl rfl rfl rfl rfl rfl rfl
      rw [step_between_cons hturn hmoves] at ht
      exact h'.hostMove ht

end Sys2Proof.Machine

/-!
SUPPORT. The fault state (O44, R381): no agent but a reset of the host leaves it.
-/

namespace Sys2Proof.Machine

theorem dispatch_of_fault {s : State} {k : TrapKind} (h : s.fault = some k) : dispatch s = .next s := by
  unfold dispatch; rw [h]

theorem tickTurn_of_fault {s : State} {k : TrapKind} (n budget : Nat) (h : s.fault = some k) :
    tickTurn n budget s = .next { s with turn := .between } := by
  unfold tickTurn; rw [h]

theorem freeRun_of_fault {s : State} {k : TrapKind} (h : s.fault = some k) (hrom : s.rom = .ready) :
    freeRun s = .fault (.trapped k) := by
  unfold freeRun; simp only [hrom, h]

theorem freeRun_ne_next_of_fault {s : State} {k : TrapKind} (h : s.fault = some k) (t : State) : freeRun s ≠ .next t := by
  cases hrom : s.rom <;> simp [freeRun, hrom, h]

theorem loadRom_fault (rom : List Byte) (s : State) : (loadRom rom s).fault = s.fault := by
  unfold loadRom; split <;> rfl

/-- Every move of the host but a reset leaves `fault` as it is. -/
theorem hostMove_fault {s t : State} {m : HostMove} (hm : m ≠ .reset) (h : hostMove m s = .next t) : t.fault = s.fault := by
  cases m with
  | reset => exact absurd rfl hm
  | loadRom rom => cases h; exact loadRom_fault rom s
  | tick n => rw [hostMove_tick h]
  | keydown | keyup | readPicture | irq => cases h; rfl

/-- Only a reset by the host, between ticks, leads out of a fault. -/
theorem reset_of_step_clears_fault {s t : State} {k : TrapKind} (hf : s.fault = some k) (h : step s = .next t)
    (ht : t.fault ≠ some k) : s.turn = .between ∧ ∃ ms, s.hostMoves = .reset :: ms := by
  cases hturn : s.turn with
  | inTick n b =>
    rw [step_inTick hturn, tickTurn_of_fault n b hf] at h
    cases h
    exact absurd hf ht
  | between =>
    refine ⟨rfl, ?_⟩
    cases hmoves : s.hostMoves with
    | nil =>
      rw [step_between_nil hturn hmoves] at h
      exact absurd h (freeRun_ne_next_of_fault hf t)
    | cons m ms =>
      rw [step_between_cons hturn hmoves] at h
      by_cases hm : m = .reset
      · exact ⟨ms, by rw [hm]⟩
      · exact absurd ((hostMove_fault hm h).trans hf) ht

/-- Settles O44: each agent's turn in the fault state, and the one move that leads out of it. -/
theorem faultIsAbsorbing : Obligations.FaultIsAbsorbing := by
  intro s k hf
  refine ⟨dispatch_of_fault hf, fun n => ppuTick_fault n s k hf, fun n b hturn => ?_, fun hturn hmoves hrom => ?_,
    fun t h ht => reset_of_step_clears_fault hf h ht⟩
  · rw [step_inTick hturn, tickTurn_of_fault n b hf]
  · rw [step_between_nil hturn hmoves, freeRun_of_fault hf hrom]

end Sys2Proof.Machine

/-!
SUPPORT. Who writes the flags (O45, R26): a load and a store write none, so each instruction writes what its effect writes.
-/

namespace Sys2Proof.Machine

/-! ## What a load and a store leave in the registers -/

theorem ReadFrame.registers {s t : State} (h : ReadFrame s t) :
    t.a = s.a ∧ t.x = s.x ∧ t.y = s.y ∧ t.sp = s.sp ∧ t.pc = s.pc ∧ t.p = s.p := by
  rw [h]; exact ⟨rfl, rfl, rfl, rfl, rfl, rfl⟩

theorem rd16_readFrame (a : Word) (s : State) : (rd16 a s).Ensures fun _ t => ReadFrame s t :=
  .bind (fun _ _ => rd_frame) fun _ _ h1 => .bind (fun _ _ => rd_frame) fun _ _ h2 => .ok (h1.trans h2)

theorem rdInd_readFrame (ptr : Word) (s : State) : (rdInd ptr s).Ensures fun _ t => ReadFrame s t :=
  .bind (fun _ _ => rd_frame) fun _ _ h1 => .bind (fun _ _ => rd_frame) fun _ _ h2 => .ok (h1.trans h2)

/-- A store to the accumulator writes A; no other store does, and none writes another register or a flag. -/
theorem store_registers {r : Resolved} {s t : State} {v : Byte} (h : store r v s = .ok () t) :
    (r ≠ .acc → t.a = s.a) ∧ t.x = s.x ∧ t.y = s.y ∧ t.sp = s.sp ∧ t.pc = s.pc ∧ t.p = s.p := by
  cases r with
  | mem ea c =>
    obtain ⟨ha, hrest⟩ := (wr_frame h).registers
    exact ⟨fun _ => ha, hrest⟩
  | acc => cases h; exact ⟨fun hr => absurd rfl hr, rfl, rfl, rfl, rfl, rfl⟩
  | none | imm => cases h; exact ⟨fun _ => rfl, rfl, rfl, rfl, rfl, rfl⟩

/-- An interrupt entry moves S and PC and sets I; it changes no other register and no other flag (R386). -/
theorem interruptEntry_registers (vector ret : Word) (b : Bool) (s : State) : (interruptEntry vector ret b s).Ensures
    fun _ t => t.a = s.a ∧ t.x = s.x ∧ t.y = s.y ∧ t.p = { s.p with i := true } := by
  refine .bind_ok (pushWord_def ret s) (.bind_ok (push_def _ _) ((rd16_readFrame vector _).bind fun _ _ h => .ok ?_))
  obtain ⟨ha, hx, hy, -, -, hp⟩ := h.registers
  exact ⟨ha, hx, hy, hp⟩

/-- Returning from an interrupt, whole: three bytes pulled, P's first. -/
theorem interruptReturn_def (s : State) : interruptReturn s = .ok () { s with
    sp := s.sp + 3
    p := .ofByte (s.ram.read (stackCell (s.sp + 1)))
    pc := wordOf (s.ram.read (stackCell (s.sp + 2))) (s.ram.read (stackCell (s.sp + 3))) } := by
  have h2 : s.sp + 1 + 1 = s.sp + 2 := by rw [BitVec.add_assoc]; rfl
  have h3 : s.sp + 1 + 2 = s.sp + 3 := by rw [BitVec.add_assoc]; rfl
  rw [interruptReturn, pull_def, Res.bind_ok, pullWord_def, Res.bind_ok]
  simp only [h2, h3, stackCell]

/-! ## The flags -/

/-- R26: the instructions that write C. -/
def carryWriters : List Mnemonic :=
  [.adc, .sbc, .usbc, .rra, .isb, .cmp, .cpx, .cpy, .dcp, .asl, .lsr, .rol, .ror, .slo, .rla, .sre, .alr, .anc, .clc, .sec,
    .plp, .rti]

/-- R26: the instructions that write N and Z. -/
def resultWriters : List Mnemonic :=
  [.lda, .ldx, .ldy, .lax, .tax, .tay, .txa, .tya, .tsx, .inx, .iny, .dex, .dey, .inc, .dec, .adc, .sbc, .usbc, .and, .ora,
    .eor, .asl, .lsr, .rol, .ror, .cmp, .cpx, .cpy, .bit, .pla, .dcp, .isb, .slo, .rla, .sre, .rra, .anc, .alr, .plp, .rti]

/-- R26: the instructions that write V. -/
def overflowWriters : List Mnemonic := [.adc, .sbc, .usbc, .rra, .isb, .bit, .clv, .plp, .rti]

/-- From `p` to `q` no flag changed that the mnemonic does not write (R26). -/
def FlagsKept (mn : Mnemonic) (p q : Flags) : Prop :=
  (q.c ≠ p.c → mn ∈ carryWriters) ∧ (q.z ≠ p.z → mn ∈ resultWriters) ∧ (q.i ≠ p.i → mn ∈ [.sei, .cli, .brk, .plp, .rti]) ∧
  (q.d ≠ p.d → mn ∈ [.sed, .cld, .plp, .rti]) ∧ (q.v ≠ p.v → mn ∈ overflowWriters) ∧ (q.n ≠ p.n → mn ∈ resultWriters)

section
variable {mn : Mnemonic}

theorem FlagsKept.refl (mn : Mnemonic) (p : Flags) : FlagsKept mn p p := by simp [FlagsKept]

/-- A flag that differs over two legs differs over one of them. -/
theorem FlagsKept.trans {p q r : Flags} (h : FlagsKept mn p q) (h' : FlagsKept mn q r) : FlagsKept mn p r := by
  unfold FlagsKept at *
  grind

theorem FlagsKept.setNZ (p : Flags) (v : Byte) (hnz : resultWriters.contains mn = true) :
    FlagsKept mn p (p.setNZ v) := by
  simp [FlagsKept, List.contains_iff_mem.1 hnz]

/-- A comparison writes C, N and Z. -/
theorem FlagsKept.compare (p : Flags) (r m : Byte) (hc : carryWriters.contains mn = true)
    (hnz : resultWriters.contains mn = true) : FlagsKept mn p (p.compare r m) := by
  simp [FlagsKept, Flags.compare, List.contains_iff_mem.1 hc, List.contains_iff_mem.1 hnz]

/-- The adder writes C, N, V and Z; the subtraction is the adder. -/
theorem FlagsKept.adcCore (a m : Byte) (p : Flags) (hc : carryWriters.contains mn = true)
    (hnz : resultWriters.contains mn = true) (hv : overflowWriters.contains mn = true) :
    FlagsKept mn p (adcCore a m p).2 := by
  simp [FlagsKept, Machine.adcCore, List.contains_iff_mem.1 hc, List.contains_iff_mem.1 hnz, List.contains_iff_mem.1 hv]

theorem FlagsKept.bitTest (a m : Byte) (p : Flags) (hnz : resultWriters.contains mn = true)
    (hv : overflowWriters.contains mn = true) : FlagsKept mn p (p.bitTest a m) := by
  simp [FlagsKept, Flags.bitTest, List.contains_iff_mem.1 hnz, List.contains_iff_mem.1 hv]

/-- A shift writes C. -/
theorem FlagsKept.withC (p : Flags) (c : Bool) (hc : carryWriters.contains mn = true) :
    FlagsKept mn p { p with c := c } := by
  simp [FlagsKept, List.contains_iff_mem.1 hc]

/-- PLP and RTI write every flag. -/
theorem FlagsKept.of_pull (p q : Flags) (hmn : [Mnemonic.plp, .rti].contains mn = true) : FlagsKept mn p q := by
  simp only [List.contains_iff_mem, List.mem_cons, List.not_mem_nil, or_false] at hmn
  rcases hmn with rfl | rfl <;> simp [FlagsKept, carryWriters, resultWriters, overflowWriters]

end

section
variable {mn : Mnemonic} {s : State}

theorem readInstr_flags {m : Operand} {f : Byte → State → State}
    (hf : ∀ v t, FlagsKept mn t.p (f v t).p) : Ends s (readInstr m f s) fun t => FlagsKept mn s.p t.p := by
  refine .readInstr fun v t h => ?_
  obtain ⟨-, -, -, -, -, hp⟩ := (load_frame h).registers
  exact hp ▸ hf v t

theorem writeInstr_flags {m : Operand} {v : Byte} :
    Ends s (writeInstr m v s) fun t => FlagsKept mn s.p t.p := by
  refine .writeInstr fun t h => ?_
  obtain ⟨-, -, -, -, -, hp⟩ := store_registers h
  rw [State.retire_p, hp]
  exact .refl mn s.p

theorem rmwInstr_flags {m : Operand} {g : Byte → Flags → Byte × Flags} {f : Byte → State → State}
    (hg : ∀ v p, FlagsKept mn p (g v p).2) (hf : ∀ v t, FlagsKept mn t.p (f v t).p) :
    Ends s (rmwInstr m g f s) fun t => FlagsKept mn s.p t.p := by
  refine .rmwInstr fun v t u hl hs => ?_
  obtain ⟨-, -, -, -, -, hp⟩ := (load_frame hl).registers
  obtain ⟨-, -, -, -, -, hq⟩ := store_registers hs
  have hf := hf (g v t.p).1 u
  rw [hq] at hf
  exact hp ▸ (hg v t.p).trans hf

end

/-- Every instruction keeps the flags that R26 does not let it write. -/
theorem exec_flags (i : Instr) (s : State) : Ends s (exec i s) fun t => FlagsKept i.mnemonic s.p t.p := by
  unfold exec
  cases i with
  | lda | ldx | ldy | and | ora | eor | lax => exact readInstr_flags fun _ _ => .setNZ _ _ rfl
  | adc | sbc | usbc => exact readInstr_flags fun _ _ => .adcCore _ _ _ rfl rfl rfl
  | cmp | cpx | cpy => exact readInstr_flags fun _ _ => .compare _ _ _ rfl rfl
  | bit => exact readInstr_flags fun _ _ => .bitTest _ _ _ rfl rfl
  | anc => exact readInstr_flags fun _ _ => (FlagsKept.setNZ _ _ rfl).trans (.withC _ _ rfl)
  | alr => exact readInstr_flags fun _ _ => (FlagsKept.withC _ _ rfl).trans (.setNZ _ _ rfl)
  | sta | stx | sty | sax => exact writeInstr_flags
  | inc | dec => exact rmwInstr_flags (fun _ _ => .refl _ _) fun _ _ => .setNZ _ _ rfl
  | asl | lsr | rol | ror | slo | rla | sre =>
    exact rmwInstr_flags (fun _ _ => .withC _ _ rfl) fun _ _ => .setNZ _ _ rfl
  | dcp => exact rmwInstr_flags (fun _ _ => .refl _ _) fun _ _ => .compare _ _ _ rfl rfl
  | isb => exact rmwInstr_flags (fun _ _ => .refl _ _) fun _ _ => .adcCore _ _ _ rfl rfl rfl
  | rra =>
    exact rmwInstr_flags (fun _ _ => .withC _ _ rfl) fun _ _ => .adcCore _ _ _ rfl rfl rfl
  | tax | tay | txa | tya | tsx | inx | iny | dex | dey => exact .next (.setNZ _ _ rfl)
  | clc | sec => exact .next (.withC _ _ rfl)
  | cli | sei | cld | sed | clv => exact .next (by simp [FlagsKept, Instr.mnemonic, Instr.parts, overflowWriters])
  | txs | nop | jmp | jam | nopUndoc => exact .next (.refl _ _)
  | bcc | bcs | beq | bne | bmi | bpl | bvc | bvs => exact .branch fun _ _ _ => .refl _ _
  | jmpInd ptr =>
    refine .finish ((rdInd_readFrame ptr s).bind fun _ t h => .ok ?_)
    obtain ⟨-, -, -, -, -, hp⟩ := h.registers
    exact hp ▸ .refl _ t.p
  | jsr => exact .finish (.bind_ok (pushWord_def _ s) (.ok (.refl _ _)))
  | rts => exact .finish (.bind_ok (pullWord_def s) (.ok (.refl _ _)))
  | rti | plp => exact .finish fun _ _ _ => .of_pull _ _ rfl
  | brk =>
    show Ends s (execBrk s) _
    unfold execBrk
    split
    · exact .raiseTrap s _ _
    · refine .finish fun _ t h => ?_
      obtain ⟨-, -, -, hp⟩ := interruptEntry_registers _ _ _ s _ t h
      rw [hp]
      simp [FlagsKept, Instr.mnemonic, Instr.parts]
  | pha | php => exact .finish (.bind_ok (push_def _ s) (.ok (.refl _ _)))
  | pla => exact .finish (.bind_ok (pull_def s) (.ok (.setNZ _ _ rfl)))
  | invalid => exact .raiseTrap s _ _

/-- Settles O45: a trap keeps the flags, and what completes keeps those that R26 does not name. -/
theorem onlyNamedInstructionsWriteFlags : Obligations.OnlyNamedInstructionsWriteFlags := by
  intro i s t _ ht
  have hkept : FlagsKept i.mnemonic s.p t.p := by
    obtain ⟨k, rfl⟩ | h := exec_flags i s t ht
    · exact .refl _ _
    · exact h
  exact hkept

end Sys2Proof.Machine

/-!
SUPPORT. Who writes A, X, Y and S (O46, R20, R21).
-/

namespace Sys2Proof.Machine

/-- The instructions that write A in every mode. -/
def accWriters : List Mnemonic :=
  [.lda, .txa, .tya, .adc, .sbc, .and, .ora, .eor, .pla, .lax, .usbc, .isb, .slo, .rla, .sre, .rra, .anc, .alr]

/-- The shifts of the accumulator. -/
def accShifts : List Instr := [.asl .acc, .lsr .acc, .rol .acc, .ror .acc]

/-- The instructions that write X. -/
def xWriters : List Mnemonic := [.ldx, .tax, .tsx, .inx, .dex, .lax]

/-- The instructions that write Y. -/
def yWriters : List Mnemonic := [.ldy, .tay, .iny, .dey]

/-- The instructions that write S. -/
def spWriters : List Mnemonic := [.txs, .pha, .php, .pla, .plp, .jsr, .rts, .rti, .brk]

/-- From `s` to `t` no register changed that the instruction does not write. -/
def RegistersKept (i : Instr) (s t : State) : Prop :=
  (t.a ≠ s.a → i.mnemonic ∈ accWriters ∨ i ∈ accShifts) ∧ (t.x ≠ s.x → i.mnemonic ∈ xWriters) ∧
  (t.y ≠ s.y → i.mnemonic ∈ yWriters) ∧ (t.sp ≠ s.sp → i.mnemonic ∈ spWriters)

section
variable {i : Instr} {s t u : State}

theorem RegistersKept.of_eq (ha : t.a = s.a) (hx : t.x = s.x) (hy : t.y = s.y) (hsp : t.sp = s.sp) :
    RegistersKept i s t := by
  simp [RegistersKept, ha, hx, hy, hsp]

/-- A register that differs over two legs differs over one of them. -/
theorem RegistersKept.trans (h : RegistersKept i s t) (h' : RegistersKept i t u) : RegistersKept i s u := by
  unfold RegistersKept at *
  grind

theorem RegistersKept.of_a (h : accWriters.contains i.mnemonic = true) (hx : t.x = s.x) (hy : t.y = s.y)
    (hsp : t.sp = s.sp) : RegistersKept i s t := by
  simp [RegistersKept, List.contains_iff_mem.1 h, hx, hy, hsp]

theorem RegistersKept.of_x (h : xWriters.contains i.mnemonic = true) (ha : t.a = s.a) (hy : t.y = s.y)
    (hsp : t.sp = s.sp) : RegistersKept i s t := by
  simp [RegistersKept, List.contains_iff_mem.1 h, ha, hy, hsp]

theorem RegistersKept.of_y (h : yWriters.contains i.mnemonic = true) (ha : t.a = s.a) (hx : t.x = s.x)
    (hsp : t.sp = s.sp) : RegistersKept i s t := by
  simp [RegistersKept, List.contains_iff_mem.1 h, ha, hx, hsp]

theorem RegistersKept.of_sp (h : spWriters.contains i.mnemonic = true) (ha : t.a = s.a) (hx : t.x = s.x)
    (hy : t.y = s.y) : RegistersKept i s t := by
  simp [RegistersKept, List.contains_iff_mem.1 h, ha, hx, hy]

/-- The operand is the accumulator only if the instruction is a shift of it. -/
def AccOnlyInShifts (m : Operand) (i : Instr) : Prop := m = .acc → i ∈ accShifts

theorem AccOnlyInShifts.of_mode {l : List Mode} {m : Operand} (h : l.contains m.mode = true)
    (hl : l.contains Mode.acc = false) : AccOnlyInShifts m i := by
  rintro rfl
  rw [Operand.mode, hl] at h
  cases h

/-- The end of an instruction moves PC and the wait only. -/
theorem RegistersKept.retire (h : RegistersKept i s t) (len cost : Nat) : RegistersKept i s (t.retire len cost) := h

theorem RegistersKept.of_readFrame (h : ReadFrame s t) : RegistersKept i s t := by
  obtain ⟨ha, hx, hy, hsp, -, -⟩ := h.registers
  exact .of_eq ha hx hy hsp

theorem resolve_eq_acc_iff {m : Operand} {s : State} : resolve m s = .acc ↔ m = .acc := by
  cases m <;> simp [resolve]

theorem RegistersKept.of_store {m : Operand} {v : Byte} (hm : AccOnlyInShifts m i) (h : store (resolve m s) v t = .ok () u) :
    RegistersKept i t u := by
  obtain ⟨ha, hx, hy, hsp, -, -⟩ := store_registers h
  refine ⟨fun hne => .inr (hm ?_), fun hne => absurd hx hne, fun hne => absurd hy hne, fun hne => absurd hsp hne⟩
  by_contra hacc
  exact hne (ha fun hr => hacc (resolve_eq_acc_iff.1 hr))

theorem readInstr_registers {m : Operand} {f : Byte → State → State} (hf : ∀ v t, RegistersKept i t (f v t)) :
    Ends s (readInstr m f s) (RegistersKept i s) :=
  .readInstr fun v t h => (RegistersKept.of_readFrame (load_frame h)).trans (hf v t)

theorem writeInstr_registers {m : Operand} {v : Byte} (hm : AccOnlyInShifts m i) :
    Ends s (writeInstr m v s) (RegistersKept i s) :=
  .writeInstr fun _ h => (RegistersKept.of_store hm h).retire _ _

theorem rmwInstr_registers {m : Operand} {g : Byte → Flags → Byte × Flags} {f : Byte → State → State}
    (hm : AccOnlyInShifts m i) (hf : ∀ v t, RegistersKept i t (f v t)) : Ends s (rmwInstr m g f s) (RegistersKept i s) :=
  .rmwInstr fun v t u hl hs =>
    have hload : RegistersKept i s t := .of_readFrame (load_frame hl)
    have hflags : RegistersKept i t { t with p := (g v t.p).2 } := .of_eq rfl rfl rfl rfl
    ((hload.trans hflags).trans (.of_store hm hs)).trans (hf (g v t.p).1 u)

end

/-- Every instruction keeps the registers it is not named to write. -/
theorem exec_registers (i : Instr) (s : State) (hwf : i.wf = true) : Ends s (exec i s) (RegistersKept i s) := by
  unfold exec
  cases i with
  | lda | and | ora | eor | adc | sbc | usbc | anc | alr => exact readInstr_registers fun _ _ => .of_a rfl rfl rfl rfl
  | ldx => exact readInstr_registers fun _ _ => .of_x rfl rfl rfl rfl
  | ldy => exact readInstr_registers fun _ _ => .of_y rfl rfl rfl rfl
  | lax =>
    refine readInstr_registers fun v t => RegistersKept.trans (t := t.loadA v) ?_ ?_
    · exact .of_a rfl rfl rfl rfl
    · exact .of_x rfl rfl rfl rfl
  | cmp | cpx | cpy | bit => exact readInstr_registers fun _ _ => .of_eq rfl rfl rfl rfl
  | sta | stx | sty | sax => exact writeInstr_registers (.of_mode hwf rfl)
  | inc | dec | dcp => exact rmwInstr_registers (.of_mode hwf rfl) fun _ _ => .of_eq rfl rfl rfl rfl
  | isb | slo | rla | sre | rra => exact rmwInstr_registers (.of_mode hwf rfl) fun _ _ => .of_a rfl rfl rfl rfl
  | asl | lsr | rol | ror =>
    exact rmwInstr_registers (fun hm => by simp [hm, accShifts]) fun _ _ => .of_eq rfl rfl rfl rfl
  | txa | tya => exact .next (.of_a rfl rfl rfl rfl)
  | tax | tsx | inx | dex => exact .next (.of_x rfl rfl rfl rfl)
  | tay | iny | dey => exact .next (.of_y rfl rfl rfl rfl)
  | txs => exact .next (.of_sp rfl rfl rfl rfl)
  | clc | sec | cli | sei | cld | sed | clv | nop | jmp | jam | nopUndoc => exact .next (.of_eq rfl rfl rfl rfl)
  | bcc | bcs | beq | bne | bmi | bpl | bvc | bvs => exact .branch fun _ _ _ => .of_eq rfl rfl rfl rfl
  | jmpInd ptr =>
    refine .finish ((rdInd_readFrame ptr s).bind fun _ _ h => .ok ?_)
    obtain ⟨ha, hx, hy, hsp, -, -⟩ := h.registers
    exact .of_eq ha hx hy hsp
  | jsr => exact .finish (.bind_ok (pushWord_def _ s) (.ok (.of_sp rfl rfl rfl rfl)))
  | rts => exact .finish (.bind_ok (pullWord_def s) (.ok (.of_sp rfl rfl rfl rfl)))
  | rti => exact .finish (.bind_ok (interruptReturn_def s) (.ok (.of_sp rfl rfl rfl rfl)))
  | brk =>
    show Ends s (execBrk s) _
    unfold execBrk
    split
    · exact .raiseTrap s _ _
    · refine .finish fun _ t h => ?_
      obtain ⟨ha, hx, hy, -⟩ := interruptEntry_registers _ _ _ s _ t h
      exact .of_sp rfl ha hx hy
  | pha | php => exact .finish (.bind_ok (push_def _ s) (.ok (.of_sp rfl rfl rfl rfl)))
  | plp => exact .finish (.bind_ok (pull_def s) (.ok (.of_sp rfl rfl rfl rfl)))
  | pla =>
    refine .finish (.bind_ok (pull_def s) (.ok (RegistersKept.trans (t := { s with sp := s.sp + 1 }) ?_ ?_)))
    · exact .of_sp rfl rfl rfl rfl
    · exact .of_a rfl rfl rfl rfl
  | invalid => exact .raiseTrap s _ _

/-- Settles O46: the registers by `RegistersKept`, everything else by the frame of what completes; a trap keeps both. -/
theorem onlyNamedInstructionsWriteRegisters : Obligations.OnlyNamedInstructionsWriteRegisters := by
  intro i s t hwf ht
  have hkept : RegistersKept i s t := by
    obtain ⟨k, rfl⟩ | h := exec_registers i s hwf t ht
    · exact .of_eq rfl rfl rfl rfl
    · exact h
  have hframe : CpuFrame s t := by
    obtain ⟨k, rfl⟩ | h := exec_completed i s t ht
    · exact .withFault s k
    · exact h.1
  obtain ⟨ha, hx, hy, hsp⟩ := hkept
  obtain ⟨-, ⟨hprg, hchr⟩, hconfig, ⟨hline, hlevels⟩, ⟨hrom, hturn, hmoves⟩, -⟩ := hframe
  exact ⟨ha, hx, hy, hsp, hprg, hchr, hconfig, hline, hlevels, hrom, hturn, hmoves⟩

end Sys2Proof.Machine

/-!
SUPPORT. Where PC ends and what an instruction costs (O47, R23, R140, R176, R362): the cost of each shape is that of its row.
-/

namespace Sys2Proof.Laws.Row

/-- Every well-formed instruction has its row. -/
theorem statement : ∀ i : Instr, Statement i
  | .lda m => lda m | .ldx m => ldx m | .ldy m => ldy m | .sta m => sta m | .stx m => stx m | .sty m => sty m
  | .tax => tax | .tay => tay | .txa => txa | .tya => tya | .tsx => tsx | .txs => txs | .adc m => adc m
  | .sbc m => sbc m | .and m => and m | .ora m => ora m | .eor m => eor m | .cmp m => cmp m | .cpx m => cpx m
  | .cpy m => cpy m | .bit m => bit m | .inc m => inc m | .dec m => dec m | .inx => inx | .iny => iny | .dex => dex
  | .dey => dey | .asl m => asl m | .lsr m => lsr m | .rol m => rol m | .ror m => ror m | .jmp target => jmp target
  | .jmpInd ptr => jmpInd ptr | .jsr target => jsr target | .rts => rts | .rti => rti | .brk => brk | .bcc d => bcc d
  | .bcs d => bcs d | .beq d => beq d | .bne d => bne d | .bmi d => bmi d | .bpl d => bpl d | .bvc d => bvc d
  | .bvs d => bvs d | .pha => pha | .php => php | .pla => pla | .plp => plp | .clc => clc | .sec => sec | .cli => cli
  | .sei => sei | .cld => cld | .sed => sed | .clv => clv | .nop => nop | .lax m => lax m | .sax m => sax m
  | .usbc v => usbc v | .dcp m => dcp m | .isb m => isb m | .slo m => slo m | .rla m => rla m | .sre m => sre m
  | .rra m => rra m | .anc op v => anc op v | .alr v => alr v | .jam op => jam op | .nopUndoc op m => nopUndoc op m
  | .invalid op => invalid op

end Sys2Proof.Laws.Row

namespace Sys2Proof.Machine

/-- The cost of an instruction begun in `s` that completes: its row's, the page crossing, the DMA. -/
def instrCost (i : Instr) (s : State) : Nat :=
  rowCost i + (if i.opcode ∈ crossPenalty then crossCost i.operand s else 0) +
    (if i.storing = true ∧ (resolve i.operand s).addr = some 0x4014 then s.config.dmaCycles.toNat else 0)

/-- From `s` to `t` PC went past the instruction and its cost was billed. -/
def Advances (i : Instr) (s t : State) : Prop :=
  t.pc = s.pc + BitVec.ofNat 16 i.len ∧ t.remainingCycles = s.remainingCycles + (instrCost i s : Nat)

/-- The control transfers and JAM, which leave PC elsewhere. -/
def controlMnemonics : List Mnemonic :=
  [.jmp, .jsr, .rts, .rti, .brk, .jam, .bcc, .bcs, .beq, .bne, .bmi, .bpl, .bvc, .bvs]

/-! ## The cost of an instruction by its operand -/

theorem operandOf_bytes (m : Operand) : operandOf m.mode (m.bytes.getD 0 0x00) (m.bytes.getD 1 0x00) = m := by
  cases m <;> simp [operandOf, Operand.mode, Operand.bytes]

section
variable {i : Instr} {mn : Mnemonic} {op : Option Byte} {m : Operand}

theorem mnemonic_of_parts (h : i.parts = (mn, op, m.mode, m.bytes)) : i.mnemonic = mn := by rw [Instr.mnemonic, h]

theorem mode_of_parts (h : i.parts = (mn, op, m.mode, m.bytes)) : i.mode = m.mode := by rw [Instr.mode, h]

theorem operand_of_parts (h : i.parts = (mn, op, m.mode, m.bytes)) : i.operand = m := by
  rw [Instr.operand, mode_of_parts h, Instr.operandBytes, h, operandOf_bytes]

theorem len_of_parts (h : i.parts = (mn, op, m.mode, m.bytes)) : i.len = lenOf m := by
  rw [Instr.len, mode_of_parts h, lenOf]

/-- A read instruction: the read cost of its mode, and the cycle of a page crossing. -/
theorem instrCost_read (hwf : i.wf = true) (h : i.parts = (mn, op, m.mode, m.bytes))
    (hmn : readMnemonics.contains mn = true) (hst : i.storing = false) (s : State) :
    instrCost i s = readCycles m + penalty (resolve m s).crossed := by
  have hmem : i.mnemonic ∈ readMnemonics := by rw [mnemonic_of_parts h]; exact List.contains_iff_mem.1 hmn
  obtain ⟨-, hrow, hmode, -⟩ := Laws.Row.statement i hwf
  have hcost : rowCost i = readCycles m := by
    rw [← baseCycles_eq_rowCost, baseCycles_read (Laws.Row.statement i) hwf hmem (mode_of_parts h)]
  have hpen := (matrix_penalties _ (rowOf_mem i.opcode).1).1 (by rw [hrow]; exact hmem)
  rw [pen_iff_crossPenalty, hmode, mode_of_parts h] at hpen
  have hcross : (if i.opcode ∈ crossPenalty then crossCost m s else 0) = penalty (resolve m s).crossed := by
    split
    case isTrue => rfl
    case isFalse hno => rw [crossed_of_mode m s fun hm => hno (hpen.2 hm)]; rfl
  rw [instrCost, operand_of_parts h, hcross, hcost, hst]
  simp

/-- The cycles that a store to this operand takes beside the instruction's own (R362). -/
def dmaCost (m : Operand) (s : State) : Nat :=
  if (resolve m s).addr = some 0x4014 then s.config.dmaCycles.toNat else 0

/-- An instruction that stores: the cost of its row, and the DMA; no page crossing. -/
theorem instrCost_store (hwf : i.wf = true) (h : i.parts = (mn, op, m.mode, m.bytes))
    (hmn : readMnemonics.contains mn = false) (hst : i.storing = true) (s : State) :
    instrCost i s = i.baseCycles + dmaCost m s := by
  obtain ⟨-, hrow, -, -⟩ := Laws.Row.statement i hwf
  have hnot : i.mnemonic ∉ readMnemonics := by
    rw [mnemonic_of_parts h, ← List.contains_iff_mem, hmn]; exact Bool.false_ne_true
  have hpen : i.opcode ∉ crossPenalty := fun hp =>
    (matrix_penalties _ (rowOf_mem i.opcode).1).2 (by rw [hrow]; exact hnot) ((pen_iff_crossPenalty _).2 hp)
  rw [instrCost, operand_of_parts h, if_neg hpen, hst, baseCycles_eq_rowCost, dmaCost]
  simp

/-- An instruction without an operand: the cost of its row. -/
theorem instrCost_imp (h : i.parts = (mn, op, .imp, [])) (s : State) : instrCost i s = rowCost i := by
  rw [instrCost, operand_of_parts (m := .imp) h]
  simp [crossCost, resolve, Resolved.crossed, Resolved.addr]

end

/-! ## The shapes -/

theorem load_wait {r : Resolved} {s t : State} {v : Byte} (h : load r s = .ok v t) :
    t.remainingCycles = s.remainingCycles ∧ t.config = s.config := by
  rw [load_frame h]; exact ⟨rfl, rfl⟩

theorem store_wait {m : Operand} {s t u : State} {v : Byte} (h : store (resolve m s) v t = .ok () u)
    (hconfig : t.config = s.config) : u.remainingCycles = t.remainingCycles + (dmaCost m s : Nat) := by
  unfold dmaCost
  cases hr : resolve m s with
  | mem ea c =>
    rw [hr] at h
    rw [(wr_frame h).cycles, hconfig]
    simp [Resolved.addr]
  | none | acc | imm =>
    rw [hr] at h
    cases h
    simp [Resolved.addr]

section
variable {i : Instr} {mn : Mnemonic} {op : Option Byte} {m : Operand} {s : State}

theorem readInstr_advances {f : Byte → State → State} (hwf : i.wf = true) (h : i.parts = (mn, op, m.mode, m.bytes))
    (hmn : readMnemonics.contains mn = true) (hst : i.storing = false)
    (hf : ∀ v t, (f v t).pc = t.pc ∧ (f v t).remainingCycles = t.remainingCycles) :
    Ends s (readInstr m f s) (Advances i s) := by
  refine .readInstr fun v t hl => ?_
  obtain ⟨-, -, -, -, hpc, -⟩ := (load_frame hl).registers
  obtain ⟨hwait, -⟩ := load_wait hl
  obtain ⟨hfpc, hfwait⟩ := hf v t
  rw [Advances, State.retire_pc, State.retire_remainingCycles, hfpc, hfwait, hpc, hwait, len_of_parts h,
    instrCost_read hwf h hmn hst]
  exact ⟨rfl, rfl⟩

theorem writeInstr_advances {v : Byte} (hwf : i.wf = true) (h : i.parts = (mn, op, m.mode, m.bytes))
    (hmn : writeMnemonics.contains mn = true) (hread : readMnemonics.contains mn = false) (hst : i.storing = true) :
    Ends s (writeInstr m v s) (Advances i s) := by
  refine .writeInstr fun t hs => ?_
  obtain ⟨-, -, -, -, hpc, -⟩ := store_registers hs
  have hmem : i.mnemonic ∈ writeMnemonics := by rw [mnemonic_of_parts h]; exact List.contains_iff_mem.1 hmn
  rw [Advances, State.retire_pc, State.retire_remainingCycles, hpc, store_wait hs rfl, len_of_parts h,
    instrCost_store hwf h hread hst, baseCycles_write (Laws.Row.statement i) hwf hmem (mode_of_parts h)]
  exact ⟨rfl, by omega⟩

theorem rmwInstr_advances {g : Byte → Flags → Byte × Flags} {f : Byte → State → State} (hwf : i.wf = true)
    (h : i.parts = (mn, op, m.mode, m.bytes)) (hmn : rmwMnemonics.contains mn = true)
    (hread : readMnemonics.contains mn = false) (hst : i.storing = true)
    (hf : ∀ v t, (f v t).pc = t.pc ∧ (f v t).remainingCycles = t.remainingCycles) :
    Ends s (rmwInstr m g f s) (Advances i s) := by
  refine .rmwInstr fun v t u hl hs => ?_
  obtain ⟨-, -, -, -, hpc, -⟩ := (load_frame hl).registers
  obtain ⟨hwait, hconfig⟩ := load_wait hl
  obtain ⟨-, -, -, -, hpc', -⟩ := store_registers hs
  obtain ⟨hfpc, hfwait⟩ := hf (g v t.p).1 u
  have hmem : i.mnemonic ∈ rmwMnemonics := by rw [mnemonic_of_parts h]; exact List.contains_iff_mem.1 hmn
  rw [Advances, State.retire_pc, State.retire_remainingCycles, hfpc, hfwait, hpc', store_wait hs hconfig, len_of_parts h,
    instrCost_store hwf h hread hst, baseCycles_rmw (Laws.Row.statement i) hwf hmem (mode_of_parts h)]
  exact ⟨by rw [hpc], by rw [hwait]; omega⟩

/-- An instruction of one byte that ends with its row's cost billed. -/
theorem Advances.of_imp {t : State} (h : i.parts = (mn, op, .imp, [])) (hpc : t.pc = s.pc + 1)
    (hwait : t.remainingCycles = s.remainingCycles + (rowCost i : Nat)) : Advances i s t := by
  rw [Advances, instrCost_imp h, len_of_parts (m := .imp) h]
  exact ⟨hpc, hwait⟩

end

/-- Every instruction that is no control transfer advances PC and bills its cost. -/
theorem exec_advances (i : Instr) (s : State) (hwf : i.wf = true) (hctl : i.mnemonic ∉ controlMnemonics) :
    Ends s (exec i s) (Advances i s) := by
  unfold exec
  cases i with
  | lda | ldx | ldy | adc | sbc | and | ora | eor | cmp | cpx | cpy | bit | lax | usbc | anc | alr =>
    exact readInstr_advances hwf rfl rfl rfl fun _ _ => ⟨rfl, rfl⟩
  | sta | stx | sty | sax => exact writeInstr_advances hwf rfl rfl rfl rfl
  | inc | dec | asl | lsr | rol | ror | dcp | isb | slo | rla | sre | rra =>
    exact rmwInstr_advances hwf rfl rfl rfl rfl fun _ _ => ⟨rfl, rfl⟩
  | tax | tay | txa | tya | tsx | txs | inx | iny | dex | dey | clc | sec | cli | sei | cld | sed | clv | nop =>
    exact .next (.of_imp rfl rfl rfl)
  | pha | php => exact .finish (.bind_ok (push_def _ s) (.ok (.of_imp rfl rfl rfl)))
  | pla | plp => exact .finish (.bind_ok (pull_def s) (.ok (.of_imp rfl rfl rfl)))
  | nopUndoc _ m =>
    refine .next ⟨rfl, ?_⟩
    rw [instrCost_read (m := m) hwf rfl rfl rfl]
    rfl
  | invalid => exact .raiseTrap s _ _
  | jmp | jmpInd | jsr | rts | rti | brk | jam | bcc | bcs | beq | bne | bmi | bpl | bvc | bvs =>
    exact absurd (List.contains_iff_mem.1 rfl) hctl

/-- Settles O47: what traps has its fault set, and what completes advances. -/
theorem pcAdvancesAndCostIsTheRows : Obligations.PcAdvancesAndCostIsTheRows := by
  intro i s t hwf _ ht hnone hctl
  obtain ⟨k, rfl⟩ | h := exec_advances i s hwf hctl t ht
  · cases hnone
  · exact h

end Sys2Proof.Machine

/-!
SUPPORT. The CPU bus by ranges, RAM through its mirrors, and the stack (O5, O6, O9).
-/

namespace Sys2Proof.Machine

/-! ## The ranges of the CPU bus above the PPU window -/

theorem wr_unmapped (a : Word) (v : Byte) (s : State) (hlow : 0x4000 ≤ a.toNat) (hhigh : a.toNat < 0x8000)
    (hdma : a.toNat ≠ 0x4014) (hjoy1 : a.toNat ≠ 0x4016) (hjoy2 : a.toNat ≠ 0x4017) : wr a v s = .ok () s := by
  have hram : ¬ a.toNat < 0x2000 := by omega
  have hppu : ¬ a.toNat < 0x4000 := by omega
  simp only [wr, hram, hppu, hdma, hjoy1, hjoy2, hhigh, if_false, if_true]

theorem wr_prg (a : Word) (v : Byte) (s : State) (h : 0x8000 ≤ a.toNat) :
    wr a v s = .ok () { s with cart := s.cart.writePrg v } := by
  have hram : ¬ a.toNat < 0x2000 := by omega
  have hppu : ¬ a.toNat < 0x4000 := by omega
  have hdma : a.toNat ≠ 0x4014 := by omega
  have hjoy1 : a.toNat ≠ 0x4016 := by omega
  have hjoy2 : a.toNat ≠ 0x4017 := by omega
  have hprg : ¬ a.toNat < 0x8000 := by omega
  simp only [wr, hram, hppu, hdma, hjoy1, hjoy2, hprg, if_false]

/-- Settles O5: the routers by ranges; at the three ports they compute. -/
theorem busRouters : Obligations.BusRouters := by
  intro a v s
  refine ⟨fun h => ⟨rd_ram a s h, wr_ram a v s h⟩, fun hlow hhigh => ⟨rd_ppu a s hlow hhigh, wr_ppu a v s hlow hhigh⟩,
    rfl, rfl, rfl, rfl, rfl, fun hlow hhigh h16 h17 => ?_, fun h => ⟨wr_prg a v s h, rd_prg a s h⟩⟩
  have hjoy1 : a.toNat ≠ 0x4016 := fun e => h16 (BitVec.eq_of_toNat_eq e)
  have hjoy2 : a.toNat ≠ 0x4017 := fun e => h17 (BitVec.eq_of_toNat_eq e)
  refine ⟨rd_unmapped a s hlow hhigh hjoy1 hjoy2, fun h14 => ?_⟩
  exact wr_unmapped a v s hlow hhigh (fun e => h14 (BitVec.eq_of_toNat_eq e)) hjoy1 hjoy2

/-! ## RAM and the stack -/

/-- Settles O6: both routers reach RAM by the address modulo 0x800, so the law of the memory decides what is read. -/
theorem ramAppearsFourTimes : Obligations.RamAppearsFourTimes := by
  intro a b v s ha hb
  refine ⟨_, wr_ram a v s ha, ?_, rfl⟩
  rw [rd_ram b _ hb, State.ramAt, Memory.read_write]

/-- A pull after a push gives the byte back and S as it was. -/
theorem pull_after_push (v : Byte) (s : State) : ∃ t, push v s = .ok () t ∧ pull t = .ok v { t with sp := s.sp } := by
  refine ⟨_, push_def v s, ?_⟩
  rw [pull_def, BitVec.sub_add_cancel, Memory.read_write_same]

/-- Settles O9: the stack operations with the steps of S as numbers modulo 256. -/
theorem pushAndPull : Obligations.PushAndPull := by
  intro v s
  have hinc : (s.sp + 1).toNat = (s.sp.toNat + 1) % 256 := BitVec.toNat_add s.sp 1
  refine ⟨?_, ?_, pull_after_push v s⟩
  · rw [push_def, dec_byte]
  · rw [pull_def, hinc, inc_byte]

end Sys2Proof.Machine

/-!
SUPPORT. The PPU bus (O16, O17): an access is an access to the cell its address reaches, so that what shares a cell is a
question about `ppuCell` alone.
-/

namespace Sys2Proof.Machine

/-! ## A read and a write of a cell -/

/-- What a cell of the PPU bus, named as `ppuCell` names it, holds. -/
def ppuCellByte (c : Cart) (p : Ppu) : Nat × Nat → Byte
  | (0, k) => c.readChr k
  | (1, k) => p.vram.read k
  | (2, k) => p.palette.read k
  | _ => 0x00

/-- A read of the PPU bus returns what the cell behind its address holds. -/
theorem ppuRd_eq_ppuCellByte (c : Cart) (p : Ppu) (a : Nat) : ppuRd c p a = ppuCellByte c p (ppuCell c.mirroring a) := by
  simp only [ppuRd, ppuCell]
  split
  · rfl
  · split <;> rfl

theorem Cart.chrIsRam_iff (c : Cart) : c.chrIsRam = true ↔ c.mapper = .uxrom ∧ c.chrBanks = 0 := by
  simp [Cart.chrIsRam]

theorem Cart.readChr_writeChr (c : Cart) (a b : Nat) (v : Byte) :
    (c.writeChr a v).readChr b = if a = b ∧ c.chrIsRam = true then v else c.readChr b := by
  by_cases hram : c.chrIsRam = true
  · have hram' : Cart.chrIsRam { c with chrRam := c.chrRam.write a v } = true := hram
    simp [Cart.writeChr, Cart.readChr, hram, hram', Memory.read_write]
  · simp [Cart.writeChr, hram]

/-- A write of the PPU bus changes the cell behind its address, unless that is a byte of CHR ROM, and no other cell. -/
theorem ppuCellByte_ppuWr (c : Cart) (p : Ppu) (a : Nat) (v : Byte) (cell : Nat × Nat) :
    ppuCellByte (ppuWr c p a v).1 (ppuWr c p a v).2 cell =
      if ppuCell c.mirroring a = cell ∧ (0x2000 ≤ a % 0x4000 ∨ c.chrIsRam = true) then v else ppuCellByte c p cell := by
  obtain ⟨memory, k⟩ := cell
  by_cases hchr : a % 0x4000 < 0x2000
  · have hrange : ¬ 0x2000 ≤ a % 0x4000 := by omega
    match memory with
    | 0 => simp [ppuWr, ppuCell, ppuCellByte, hchr, hrange, Cart.readChr_writeChr]
    | 1 | 2 | _ + 3 => simp [ppuWr, ppuCell, ppuCellByte, hchr]
  have hrange : 0x2000 ≤ a % 0x4000 := by omega
  by_cases hnt : a % 0x4000 < 0x3F00
  · match memory with
    | 1 => simp [ppuWr, ppuCell, ppuCellByte, hchr, hnt, hrange, Memory.read_write]
    | 0 | 2 | _ + 3 => simp [ppuWr, ppuCell, ppuCellByte, hchr, hnt]
  · match memory with
    | 2 => simp [ppuWr, ppuCell, ppuCellByte, hchr, hnt, hrange, Memory.read_write]
    | 0 | 1 | _ + 3 => simp [ppuWr, ppuCell, ppuCellByte, hchr, hnt]

theorem ppuWr_mirroring (c : Cart) (p : Ppu) (a : Nat) (v : Byte) : (ppuWr c p a v).1.mirroring = c.mirroring := by
  rw [(ppuWr_frame c p a v).1]

/-- Settles O16: reads and writes are of cells, and a write leaves the mirroring alone. -/
theorem ppuBusReadAfterWrite : Obligations.PpuBusReadAfterWrite := by
  intro c p a b v
  rw [ppuRd_eq_ppuCellByte, ppuRd_eq_ppuCellByte, ppuWr_mirroring, ppuCellByte_ppuWr]
  simp only [Cart.chrIsRam_iff]

/-! ## The cell behind an address -/

theorem ppuCell_chr (mir : Mirroring) {k : Nat} (hk : k < 0x2000) : ppuCell mir k = (0, k) := by
  have hmod : k % 0x4000 = k := Nat.mod_eq_of_lt (by omega)
  simp only [ppuCell, hmod, hk, if_true]

theorem ppuCell_nametable (mir : Mirroring) {a : Nat} (hlow : 0x2000 ≤ a) (hhigh : a < 0x3F00) :
    ppuCell mir a = (1, ntIndex mir a) := by
  have hmod : a % 0x4000 = a := Nat.mod_eq_of_lt (by omega)
  have hchr : ¬ a < 0x2000 := by omega
  simp only [ppuCell, hmod, hchr, hhigh, if_false, if_true]

/-- Byte `k` of a nametable lies in the half of VRAM that the mirroring gives the table (R103). -/
theorem ppuCell_table (mir : Mirroring) {table k : Nat} (htable : table < 4) (hk : k < 0x400) :
    ppuCell mir (0x2000 + table * 0x400 + k) =
      (1, (if mir = .horizontal then table / 2 else table % 2) * 0x400 + k) := by
  have hoffset : (0x2000 + table * 0x400 + k - 0x2000) % 0x1000 = table * 0x400 + k := by omega
  have hnumber : (table * 0x400 + k) / 0x400 = table := by omega
  have hbyte : (table * 0x400 + k) % 0x400 = k := by omega
  rw [ppuCell_nametable mir (by omega) (by omega)]
  cases mir <;> simp [ntIndex, hoffset, hnumber, hbyte]

/-- The same byte of the four tables, by the addresses of the tables. -/
theorem ppuCell_fourTables (mir : Mirroring) {k : Nat} (hk : k < 0x400) :
    ppuCell mir (0x2000 + k) = (1, k) ∧
    ppuCell mir (0x2400 + k) = (1, (if mir = .horizontal then 0 else 0x400) + k) ∧
    ppuCell mir (0x2800 + k) = (1, (if mir = .horizontal then 0x400 else 0) + k) ∧
    ppuCell mir (0x2C00 + k) = (1, 0x400 + k) := by
  have cell (table : Nat) (htable : table < 4) := ppuCell_table mir htable hk
  cases mir <;> exact ⟨by simpa using cell 0 (by decide), by simpa using cell 1 (by decide),
    by simpa using cell 2 (by decide), by simpa using cell 3 (by decide)⟩

/-- The region from 0x3000 repeats the tables (R102). -/
theorem ppuCell_tables_repeat (mir : Mirroring) {k : Nat} (hk : k < 0xF00) :
    ppuCell mir (0x3000 + k) = ppuCell mir (0x2000 + k) := by
  have hoffset : (0x3000 + k - 0x2000) % 0x1000 = (0x2000 + k - 0x2000) % 0x1000 := by omega
  rw [ppuCell_nametable mir (by omega) (by omega), ppuCell_nametable mir (by omega) (by omega)]
  simp only [ntIndex, hoffset]

theorem ppuCell_palette (mir : Mirroring) {k : Nat} (hk : k < 0x100) : ppuCell mir (0x3F00 + k) = (2, palIndex k) := by
  have hmod : (0x3F00 + k) % 0x4000 = 0x3F00 + k := Nat.mod_eq_of_lt (by omega)
  have hchr : ¬ 0x3F00 + k < 0x2000 := by omega
  have hnt : ¬ 0x3F00 + k < 0x3F00 := by omega
  have hentry : (0x3F00 + k) % 0x20 = k % 0x20 := by omega
  simp only [ppuCell, hmod, hchr, hnt, if_false, palIndex, hentry]

/-- Settles O17: each range by the cell behind its addresses. -/
theorem ppuBusReads : Obligations.PpuBusReads := by
  intro c p k
  refine ⟨?_, fun hk => ⟨fun hrom => ?_, fun hmapper hbanks => ?_⟩, fun table htable hk => ?_, fun hk hmir => ?_,
    fun hk hmir => ?_, fun hk => ?_, fun hk => ?_⟩
  · simp only [ppuRd, Nat.mod_mod]
  · have hram : ¬ c.chrIsRam = true := by
      rw [Cart.chrIsRam_iff]
      rintro ⟨hmapper, hbanks⟩
      simp [hmapper, hbanks] at hrom
    rw [ppuRd_eq_ppuCellByte, ppuCell_chr _ hk, ppuCellByte, Cart.readChr, if_neg hram]
  · rw [ppuRd_eq_ppuCellByte, ppuCell_chr _ hk, ppuCellByte, Cart.readChr, if_pos (c.chrIsRam_iff.2 ⟨hmapper, hbanks⟩)]
  · rw [ppuRd_eq_ppuCellByte, ppuCell_table _ htable hk, ppuCellByte]
  · obtain ⟨h0, h1, h2, h3⟩ := ppuCell_fourTables .horizontal hk
    simp [hmir, h0, h1, h2, h3]
  · obtain ⟨h0, h1, h2, h3⟩ := ppuCell_fourTables .vertical hk
    simp [hmir, h0, h1, h2, h3]
  · rw [ppuRd_eq_ppuCellByte, ppuRd_eq_ppuCellByte, ppuCell_tables_repeat _ hk]
  · rw [ppuRd_eq_ppuCellByte, ppuCell_palette _ hk, ppuCellByte, palIndex]

end Sys2Proof.Machine

/-!
SUPPORT. The PRG window of the two mappers (O18).
-/

namespace Sys2Proof.Machine

theorem Cart.readPrg_of_prgIndex {c : Cart} {a k : Nat} (h : c.prgIndex a = .ok k) : c.readPrg a = .ok (c.prg.read k) := by
  rw [Cart.readPrg, h]; rfl

theorem Cart.prgIndex_nrom {c : Cart} (h : c.mapper = .nrom) (a : Nat) :
    c.prgIndex a = .ok (if c.prgBanks = 1 then (a - 0x8000) % 0x4000 else a - 0x8000) := by
  simp only [Cart.prgIndex, h]
  split <;> rfl

/-- The low window of UxROM shows the selected bank, if the ROM has it. -/
theorem Cart.prgIndex_uxrom_low {c : Cart} (h : c.mapper = .uxrom) {a : Nat} (ha : a < 0xC000)
    (hbank : c.bankSelect.toNat < c.prgBanks) : c.prgIndex a = .ok (c.bankSelect.toNat * 0x4000 + (a - 0x8000)) := by
  simp only [Cart.prgIndex, h, ha, Nat.not_le.2 hbank, if_true, if_false]

theorem Cart.writePrg_nrom {c : Cart} (h : c.mapper = .nrom) (v : Byte) : c.writePrg v = c := by
  simp only [Cart.writePrg, h]

theorem Cart.writePrg_uxrom {c : Cart} (h : c.mapper = .uxrom) (v : Byte) :
    c.writePrg v = { c with bankSelect := BitVec.ofNat 4 v.toNat } := by
  simp only [Cart.writePrg, h]; rfl

/-- Settles O18: both mappers by the index of the PRG byte; the high window is the last bank on every legal cartridge. -/
theorem prgMapping : Obligations.PrgMapping := by
  intro c a v hwf _ ha
  refine ⟨fun hm => ⟨c.writePrg_nrom hm v, fun hbanks => ?_, fun hbanks => ?_⟩, fun hm => ⟨c.writePrg_uxrom hm v,
    fun hlow hbank => Cart.readPrg_of_prgIndex (Cart.prgIndex_uxrom_low hm hlow hbank),
    fun hlow hbank => (Cart.readPrg_error c a _).2 ⟨hm, hlow, hbank, rfl⟩, fun hhigh => readPrg_lastBank c a hwf hhigh ha⟩⟩
  · rw [Cart.readPrg_of_prgIndex (Cart.prgIndex_nrom hm a), if_pos hbanks]
  · rw [Cart.readPrg_of_prgIndex (Cart.prgIndex_nrom hm a), if_neg (by omega)]

end Sys2Proof.Machine

/-!
SUPPORT. The round trips of the encoding (O1, O2; R130, R131, R133, R134) and the opcode matrix in numbers (O3; R140, R142).
-/

namespace Sys2Proof

/-! ## From an instruction to its bytes and back -/

/-- A byte string that holds the opcode's operand bytes decodes to what they assemble to; a missing byte counts as 0. -/
theorem decode_append {op : Byte} {bs : List Byte} (h : bs.length + 1 = lengthOf op) (rest : List Byte) :
    decode (op :: bs ++ rest) = .ok (assemble op (bs.getD 0 0) (bs.getD 1 0), rest) := by
  have hlen : lengthOf op ≤ 3 := by
    unfold lengthOf
    cases (rowOf op).mode <;> decide
  match bs with
  | [] => simp [decode, ← h]
  | [l] => simp [decode, ← h]
  | [l, k] => simp [decode, ← h]
  | _ :: _ :: _ :: _ => simp at h; omega

/-- Of the two instructions that share the mnemonic NOP, every byte but 0xEA is the undocumented one (R272, R293). -/
theorem Mnemonic.build_nop {op : Byte} (h : op ≠ 0xEA) (mode : Mode) (l k : Byte) :
    Mnemonic.nop.build op mode l k = .nopUndoc op (operandOf mode l k) := if_neg h

/-- A mnemonic in its own mode builds the instruction back from its opcode byte and its operand bytes. -/
theorem Instr.build_parts {i : Instr} (h : i.wf = true) :
    i.mnemonic.build i.opcode i.mode (i.operandBytes.getD 0 0) (i.operandBytes.getD 1 0) = i := by
  have hoperand (m : Operand) : operandOf m.mode (m.bytes[0]?.getD 0#8) (m.bytes[1]?.getD 0#8) = m := by
    simpa using Machine.operandOf_bytes m
  cases i with
  | nopUndoc op m =>
    have hop : op ≠ 0xEA := by
      rintro rfl
      cases m <;> cases h
    exact (Mnemonic.build_nop hop _ _ _).trans (congrArg (Instr.nopUndoc op) (Machine.operandOf_bytes m))
  | _ => simp [Mnemonic.build, Instr.mnemonic, Instr.opcode, Instr.mode, Instr.operandBytes, Instr.parts, hoperand]

/-- Settles O1: the row under the opcode byte is the instruction's own, so its length takes the operand bytes and its mnemonic
builds the instruction from them. -/
theorem decodeOfEncodeIsIdentity : Obligations.DecodeOfEncodeIsIdentity := by
  intro i rest hwf
  obtain ⟨-, hmn, hmode, hlen⟩ := Laws.Row.statement i hwf
  have hbytes : i.operandBytes.length + 1 = lengthOf i.opcode := by rw [lengthOf, hmode]; exact hlen
  rw [encode, decode_append hbytes, assemble, hmn, hmode, Instr.build_parts hwf]

/-! ## From bytes to an instruction and back -/

theorem operandOf_mode (mode : Mode) (l h : Byte) : (operandOf mode l h).mode = (operandOf mode 0 0).mode := by
  cases mode <;> rfl

theorem bytes_operandOf (mode : Mode) (l h : Byte) :
    (operandOf mode l h).bytes = [l, h].take ((operandOf mode l h).mode.len - 1) := by
  cases mode <;> simp [operandOf, Operand.mode, Operand.bytes, Mode.len]

/-- The operand bytes decide neither whether an instruction is well formed nor its opcode byte. -/
theorem Mnemonic.build_form (mn : Mnemonic) (op : Byte) (mode : Mode) (l h : Byte) :
    (mn.build op mode l h).wf = (mn.build op mode 0 0).wf ∧ (mn.build op mode l h).opcode = (mn.build op mode 0 0).opcode := by
  cases mn with
  | jmp => by_cases hm : mode = .ind <;> simp only [build, hm, if_true, if_false] <;> exact ⟨rfl, rfl⟩
  | nop =>
    by_cases hop : op = 0xEA
    · subst hop; exact ⟨rfl, rfl⟩
    · rw [build_nop hop, build_nop hop, Instr.wf, Instr.wf, operandOf_mode mode l h]; exact ⟨rfl, rfl⟩
  | _ => simp [build, Instr.wf, Instr.opcode, Instr.mnemonic, Instr.mode, Instr.parts, operandOf_mode mode l h]

/-- The operand bytes of a built instruction are those it was built from, as many as its mode has. -/
theorem Mnemonic.build_operandBytes (mn : Mnemonic) (op : Byte) (mode : Mode) (l h : Byte) :
    (mn.build op mode l h).operandBytes = [l, h].take ((mn.build op mode l h).len - 1) := by
  cases mn with
  | jmp =>
    by_cases hm : mode = .ind <;>
      simp [build, hm, Instr.operandBytes, Instr.len, Instr.mode, Instr.parts, Mode.len]
  | nop =>
    by_cases hop : op = 0xEA
    · subst hop; rfl
    · rw [build_nop hop]; exact bytes_operandOf mode l h
  | _ => simp [build, Instr.operandBytes, Instr.len, Instr.mode, Instr.parts, Mode.len, bytes_operandOf]

/-- Each row of the matrix builds a well-formed instruction (R141, R145) with the row's opcode byte. -/
theorem matrix_builds : ∀ r ∈ opcodeMatrix,
    (r.mn.build r.op r.mode 0 0).wf = true ∧ (r.mn.build r.op r.mode 0 0).opcode = r.op := by
  have h : opcodeMatrix.all (fun r =>
      (r.mn.build r.op r.mode 0 0).wf && decide ((r.mn.build r.op r.mode 0 0).opcode = r.op)) = true := by decide +kernel
  simpa [List.all_eq_true] using h

theorem assemble_wf_opcode (op l h : Byte) : (assemble op l h).wf = true ∧ (assemble op l h).opcode = op := by
  obtain ⟨hrow, hop⟩ := rowOf_mem op
  obtain ⟨hwf, hopcode⟩ := matrix_builds _ hrow
  rw [hop] at hwf hopcode
  obtain ⟨hwf', hopcode'⟩ := (rowOf op).mn.build_form op (rowOf op).mode l h
  exact ⟨hwf'.trans hwf, hopcode'.trans hopcode⟩

/-- The encoding of an assembled instruction is the beginning of the bytes it was assembled from. -/
theorem encode_assemble (op l h : Byte) (rest : List Byte) :
    encode (assemble op l h) = (op :: l :: h :: rest).take (assemble op l h).len := by
  rw [encode, (assemble_wf_opcode op l h).2, assemble, Mnemonic.build_operandBytes, Instr.len]
  cases (Mnemonic.build _ _ _ _ _).mode <;> rfl

/-- Settles O2: the instruction is the assembled one, and by O1 its encoding, the first `len` bytes, decodes to it. -/
theorem everyOpcodeDecodesToItsBytes : Obligations.EveryOpcodeDecodesToItsBytes := by
  intro op l h rest
  have hwf := (assemble_wf_opcode op l h).1
  have henc := encode_assemble op l h rest
  have hdec := decodeOfEncodeIsIdentity _ ((op :: l :: h :: rest).drop (assemble op l h).len) hwf
  rw [henc, List.take_append_drop] at hdec
  exact ⟨assemble op l h, hdec, hwf, henc⟩

/-! ## The opcode matrix in numbers -/

/-- The rows of the matrix in a class (R135). -/
def rowsOfClass (c : OpClass) : List OpRow := opcodeMatrix.filter fun r => decide (r.cls = c)

/-- How many undocumented rows a mnemonic has. -/
def illegalCount (mn : Mnemonic) : Nat := ((rowsOfClass .illegal).filter fun r => decide (r.mn = mn)).length

theorem matrix_class_counts :
    (rowsOfClass .official).length = 151 ∧ ((rowsOfClass .official).map (·.mn)).dedup.length = 56 ∧
      (rowsOfClass .illegal).length = 95 ∧ ((rowsOfClass .illegal).map (·.mn)).dedup.length = 13 ∧
      (rowsOfClass .invalid).length = 10 ∧ opcodeMatrix.length = 256 := by
  decide +kernel

theorem matrix_illegal_counts :
    illegalCount .nop = 27 ∧ illegalCount .lax = 6 ∧ illegalCount .sax = 4 ∧ illegalCount .usbc = 1 ∧
      illegalCount .dcp = 7 ∧ illegalCount .isb = 7 ∧ illegalCount .slo = 7 ∧ illegalCount .rla = 7 ∧
      illegalCount .sre = 7 ∧ illegalCount .rra = 7 ∧ illegalCount .anc = 2 ∧ illegalCount .alr = 1 ∧
      illegalCount .jam = 12 := by
  decide +kernel

/-- Settles O3: the counts and the columns by the kernel, row by row, and each word by the decoder. -/
theorem matrixCountsAndSampleWords : Obligations.MatrixCountsAndSampleWords := by
  obtain ⟨hofficial, hmnemonics, hillegal, hclasses, hinvalid, hall⟩ := matrix_class_counts
  obtain ⟨h1, h2, h3, h4, h5, h6, h7, h8, h9, h10, h11, h12, h13⟩ := matrix_illegal_counts
  have hcycles : opcodeMatrix.map (·.cyc) = Machine.cycleTable := by decide +kernel
  -- JAM carries its byte, whichever it is, so its cost is that of the byte's row.
  have hcost (op : Byte) : (rowOf op).cyc = Machine.cycleTable.getD op.toNat 0 := Machine.baseCycles_eq_rowCost (.jam op)
  have hbranch : ∀ op : Byte, (rowOf op).pen = .b ↔ op ∈ Machine.branchPenalty := by decide +kernel
  refine ⟨hofficial, hmnemonics, hillegal, hclasses, hinvalid, hall, h1, h2, h3, h4, h5, h6, h7, h8, h9, h10, h11, h12, h13,
    hcycles, fun op => ⟨(rowOf_mem op).2, hcost op, Machine.pen_iff_crossPenalty op, hbranch op⟩, ?_⟩
  and_intros <;> rfl

end Sys2Proof

/-!
SUPPORT. The addressing modes and the jumps in numbers (O4, O36; R161 to R172, R241): bytes and words as their values, and an
indirect jump as its two reads.
-/

namespace Sys2Proof

/-! ## Bytes and words in numbers -/

theorem loByte_eq_ofNat (w : Word) : loByte w = BitVec.ofNat 8 w.toNat := by
  apply BitVec.eq_of_toNat_eq
  simp [loByte]

theorem hiByte_toNat (w : Word) : (hiByte w).toNat = w.toNat / 256 := by
  have hw := w.isLt
  simp only [hiByte, BitVec.extractLsb'_toNat, Nat.shiftRight_eq_div_pow]
  omega

theorem hiByte_eq_ofNat (w : Word) : hiByte w = BitVec.ofNat 8 (w.toNat / 256) := by
  rw [← hiByte_toNat, BitVec.ofNat_toNat, BitVec.setWidth_eq]

theorem wordOf_eq_ofNat (lo hi : Byte) : wordOf lo hi = BitVec.ofNat 16 (lo.toNat + 256 * hi.toNat) := by
  rw [← wordOf_toNat, BitVec.ofNat_toNat, BitVec.setWidth_eq]

/-- Two addresses lie in different pages exactly when their quotients by 256 differ (R168). -/
theorem crosses_eq_decide (u v : Word) : crosses u v = decide (u.toNat / 256 ≠ v.toNat / 256) := by
  simp only [crosses, ne_eq, ← BitVec.toNat_inj, hiByte_toNat]

/-- An address in page 0 by a sum of bytes stays in page 0 (R165, R166). -/
theorem zext16_add (d i : Byte) : zext16 (d + i) = BitVec.ofNat 16 ((d.toNat + i.toNat) % 256) := by
  rw [zext16, ← BitVec.ofNat_toNat, BitVec.toNat_add]

/-- The second address of an indirect jump: the pointer's low byte incremented without a carry into its page (R170). -/
theorem wordOf_loByte_succ_hiByte (a : Word) :
    wordOf (loByte a + 1) (hiByte a) = BitVec.ofNat 16 (a.toNat / 256 * 256 + (a.toNat + 1) % 256) := by
  have hlo : (loByte a + 1).toNat = (a.toNat + 1) % 256 := by simp [loByte_eq_ofNat]
  rw [wordOf_eq_ofNat, hlo, hiByte_toNat]
  congr 1
  omega

end Sys2Proof

namespace Sys2Proof.Machine

/-! ## The addressing modes -/

/-- An indexed address in numbers: the sum modulo 65536, crossed exactly when the page differs (R168, R169, R172). -/
theorem indexed_mem (base : Word) (i : Byte) :
    Resolved.mem (base + zext16 i) (crosses base (base + zext16 i)) =
      .mem (BitVec.ofNat 16 ((base.toNat + i.toNat) % 65536))
        (decide (base.toNat / 256 ≠ (base.toNat + i.toNat) % 65536 / 256)) := by
  have hsum : (base + zext16 i).toNat = (base.toNat + i.toNat) % 65536 := by simp [zext16]
  rw [crosses_eq_decide, hsum, ← hsum, BitVec.ofNat_toNat, BitVec.setWidth_eq]

theorem State.rdZp16_toNat (s : State) (d : Byte) :
    (s.rdZp16 d).toNat = (s.ram.read d.toNat).toNat + 256 * (s.ram.read ((d.toNat + 1) % 256)).toNat := by
  have hnext : (d + 1).toNat = (d.toNat + 1) % 256 := BitVec.toNat_add d 1
  rw [State.rdZp16, wordOf_toNat, hnext, State.ramAt, State.ramAt]

/-- The pointer of mode `izx`: both its bytes lie in page 0 (R171, R93). -/
theorem State.rdZp16_add (s : State) (d i : Byte) :
    s.rdZp16 (d + i) = wordOf (s.ram.read ((d.toNat + i.toNat) % 256))
      (s.ram.read (((d.toNat + i.toNat) % 256 + 1) % 256)) := by
  have hp : (d + i).toNat = (d.toNat + i.toNat) % 256 := BitVec.toNat_add d i
  have hnext : (d + i + 1).toNat = ((d.toNat + i.toNat) % 256 + 1) % 256 := by rw [← hp]; exact BitVec.toNat_add _ 1
  rw [State.rdZp16, hnext, hp, State.ramAt, State.ramAt]

/-- Settles O4: each mode by its sum in numbers; what a mode without a sum resolves to, and Load and Store, compute. -/
theorem operandsResolveByTheirMode : Obligations.OperandsResolveByTheirMode := by
  intro s v d a
  refine ⟨rfl, rfl, rfl, ?zp, ?zpx, ?zpy, rfl, ?abx, ?aby, ?izx, ?izy, rfl, rfl, rfl, fun _ => ⟨rfl, rfl⟩⟩
  case zp => rw [resolve, zext16, BitVec.ofNat_toNat]
  case zpx => rw [resolve, zext16_add]
  case zpy => rw [resolve, zext16_add]
  case abx => exact indexed_mem a s.x
  case aby => exact indexed_mem a s.y
  case izx => rw [resolve, State.rdZp16_add]
  case izy => rw [resolve, indexed_mem, State.rdZp16_toNat]

/-! ## The jumps -/

theorem encode_jmp (a : Word) : encode (.jmp a) = [0x4C, loByte a, hiByte a] := by
  have hopcode : opcodeFor .jmp .abs = 0x4C := by decide +kernel
  exact congrArg (· :: [loByte a, hiByte a]) hopcode

theorem encode_jmpInd (a : Word) : encode (.jmpInd a) = [0x6C, loByte a, hiByte a] := by
  have hopcode : opcodeFor .jmp .ind = 0x6C := by decide +kernel
  exact congrArg (· :: [loByte a, hiByte a]) hopcode

theorem execJmpInd_trap {ptr : Word} {s : State} {k : TrapKind} (h : rdInd ptr s = .trap k) :
    execJmpInd ptr s = .next { s with fault := some k } := by
  rw [execJmpInd, h]; rfl

theorem execJmpInd_ok {ptr target : Word} {s t : State} (h : rdInd ptr s = .ok target t) :
    execJmpInd ptr s = .next ({ t with pc := target }.bill 5) := by
  rw [execJmpInd, h]; rfl

/-- What an indirect jump reads, in numbers: two bytes of one page (R170). -/
theorem rdInd_eq (a : Word) (s : State) : rdInd a s = (rd a s).bind fun lo t =>
    (rd (BitVec.ofNat 16 (a.toNat / 256 * 256 + (a.toNat + 1) % 256)) t).bind fun hi u =>
      .ok (BitVec.ofNat 16 (lo.toNat + 256 * hi.toNat)) u := by
  rw [rdInd, wordOf_loByte_succ_hiByte]
  simp only [wordOf_eq_ofNat]

/-- A read that does not trap yields, and changes no more than R98 lists: it is the load of mode `abs`. -/
theorem rd_of_readTrap_none {a : Word} {s : State} (h : readTrap a s = none) :
    ∃ v t, rd a s = .ok v t ∧ ReadFrame s t := load_ok (m := .abs a) h

/-- Settles O36: the first read leaves the cartridge alone, so whether the second traps is decided in the state before it. -/
theorem jumpsFollowTheirRules : Obligations.JumpsFollowTheirRules := by
  intro a s
  rw [encode_jmp, encode_jmpInd, loByte_eq_ofNat, hiByte_eq_ofNat]
  refine ⟨rfl, rfl, rfl, fun k hfirst => ?_, fun k hfirst hsecond => ?_, fun hfirst hsecond => ?_⟩
  · have hrd : rdInd a s = .trap k := by rw [rdInd_eq, (rd_trap_iff a s k).2 hfirst, Res.bind_trap]
    exact execJmpInd_trap hrd
  · obtain ⟨lo, t, hlo, hframe⟩ := rd_of_readTrap_none hfirst
    rw [← readTrap_congr _ s t (by rw [hframe])] at hsecond
    have hrd : rdInd a s = .trap k := by
      rw [rdInd_eq, hlo, Res.bind_ok, (rd_trap_iff _ t k).2 hsecond, Res.bind_trap]
    exact execJmpInd_trap hrd
  · obtain ⟨lo, t, hlo, hframe⟩ := rd_of_readTrap_none hfirst
    rw [← readTrap_congr _ s t (by rw [hframe])] at hsecond
    obtain ⟨hi, u, hhi, hframe'⟩ := rd_of_readTrap_none hsecond
    have hu := hframe.trans hframe'
    have hwait : u.remainingCycles = s.remainingCycles := by rw [hu]
    have hrd : rdInd a s = .ok (BitVec.ofNat 16 (lo.toNat + 256 * hi.toNat)) u := by
      rw [rdInd_eq, hlo, Res.bind_ok, hhi, Res.bind_ok]
    refine ⟨lo, hi, t, u, hlo, hhi, hu, ?_⟩
    rw [← hwait]
    exact execJmpInd_ok hrd

end Sys2Proof.Machine

/-!
SUPPORT. The loads, the stores and the register instructions (O21, O27, O32; R180 to R192, R216 to R219, R281, R282): for each
shape of instruction, once, that it follows the rule of its kind, and that its opcode bytes are the matrix's.
-/

namespace Sys2Proof.Machine

/-! ## The opcode bytes -/

/-- An instruction with an operand has the modes that its well-formedness lists, and the matrix's opcode byte in each. -/
theorem Spells.of_matrix {f : Operand → Instr} {mn : Mnemonic} {l : List (Mode × Byte)}
    (hparts : ∀ m, (f m).parts = (mn, none, m.mode, m.bytes))
    (hwf : ∀ m, (f m).wf = (l.map Prod.fst).contains m.mode) (hop : ∀ e ∈ l, opcodeFor mn e.1 = e.2) : Spells f l := by
  intro m
  refine ⟨by rw [hwf, List.contains_iff_mem], fun b hb => ?_⟩
  have hopcode : (f m).opcode = opcodeFor mn m.mode := by rw [Instr.opcode, Instr.mnemonic, Instr.mode, hparts]; rfl
  rw [hopcode]
  exact hop _ hb

/-- An instruction without an operand is the matrix's opcode byte. -/
theorem SpellsImplied.of_matrix {i : Instr} {mn : Mnemonic} {op : Byte} (hwf : i.wf = true)
    (hparts : i.parts = (mn, none, .imp, [])) (hop : opcodeFor mn .imp = op) : SpellsImplied i op := by
  refine ⟨hwf, ?_⟩
  rw [encode, Instr.opcode, Instr.mnemonic, Instr.mode, Instr.operandBytes, hparts, ← hop]
  rfl

/-! ## The cost of a row by its operand -/

section
variable {i : Instr} {mn : Mnemonic} {op : Option Byte} {m : Operand}

theorem rowCost_read (hwf : i.wf = true) (hparts : i.parts = (mn, op, m.mode, m.bytes)) (hmn : mn ∈ readMnemonics) :
    rowCost i = readCycles m := by
  rw [← mnemonic_of_parts hparts] at hmn
  rw [← baseCycles_eq_rowCost, baseCycles_read (Laws.Row.statement i) hwf hmn (mode_of_parts hparts)]

theorem rowCost_write (hwf : i.wf = true) (hparts : i.parts = (mn, op, m.mode, m.bytes)) (hmn : mn ∈ writeMnemonics) :
    rowCost i = writeCycles m := by
  rw [← mnemonic_of_parts hparts] at hmn
  rw [← baseCycles_eq_rowCost, baseCycles_write (Laws.Row.statement i) hwf hmn (mode_of_parts hparts)]

end

/-! ## The shapes follow their rules -/

/-- An effect on the registers: PC and the wait are not its business. -/
def KeepsPcAndWait (s t : State) : Prop := t.pc = s.pc ∧ t.remainingCycles = s.remainingCycles

/-- The shape of a read instruction follows the rule of a read instruction, whatever its effect does to the registers. -/
theorem ReadRule.of_readInstr {f : Operand → Instr} {mn : Mnemonic} {effect : Byte → State → State}
    (hparts : ∀ m, (f m).parts = (mn, none, m.mode, m.bytes)) (hmn : mn ∈ readMnemonics)
    (hkeeps : ∀ v t, KeepsPcAndWait t (effect v t)) (hexec : ∀ m s, exec (f m) s = readInstr m effect s) :
    ReadRule f effect := by
  intro m s hwf
  rw [hexec]
  refine ⟨fun k htrap => readInstr_trap effect htrap, fun hnone => ?_⟩
  obtain ⟨v, t, hload, hframe⟩ := load_ok hnone
  refine ⟨v, t, hload, hframe, ?_⟩
  obtain ⟨hpc, hwait⟩ := hkeeps v t
  obtain ⟨-, -, -, -, hpc', -⟩ := hframe.registers
  obtain ⟨hwait', -⟩ := load_wait hload
  rw [readInstr_ok effect hload, State.retire, State.bill, hpc, hwait, hpc', hwait', len_of_parts (hparts m),
    rowCost_read hwf (hparts m) hmn]
  rfl

/-- The stores of the matrix have an operand in memory. -/
theorem matrix_stores_to_memory : ∀ r ∈ opcodeMatrix, r.mn ∈ writeMnemonics → r.mode ∉ [Mode.imp, .acc, .imm] := by
  decide +kernel

theorem resolve_eq_mem {m : Operand} (h : m.mode ∉ [Mode.imp, .acc, .imm]) (s : State) :
    ∃ ea crossed, resolve m s = .mem ea crossed := by
  cases m with
  | imp | acc | imm => exact absurd (by simp [Operand.mode]) h
  | zp | zpx | zpy | abs | abx | aby | izx | izy => exact ⟨_, _, rfl⟩

/-- The operand of a store resolves to an effective address. -/
theorem resolve_store_eq_mem {i : Instr} {mn : Mnemonic} {op : Option Byte} {m : Operand} (hwf : i.wf = true)
    (hparts : i.parts = (mn, op, m.mode, m.bytes)) (hmn : mn ∈ writeMnemonics) (s : State) :
    ∃ ea crossed, resolve m s = .mem ea crossed := by
  obtain ⟨-, hrow, hmode, -⟩ := Laws.Row.statement i hwf
  have hmem := matrix_stores_to_memory _ (rowOf_mem i.opcode).1
  rw [hrow, hmode, mnemonic_of_parts hparts, mode_of_parts hparts] at hmem
  exact resolve_eq_mem (hmem hmn) s

theorem storeTrap_of_mem {m : Operand} {s : State} {ea : Word} {crossed : Bool} (h : resolve m s = .mem ea crossed)
    (v : Byte) : storeTrap m v s = writeTrap ea v s := by
  rw [storeTrap, h]; rfl

/-- A write that does not trap yields, and leaves alone what is not addressed. -/
theorem wr_of_writeTrap_none {ea : Word} {v : Byte} {s : State} (h : writeTrap ea v s = none) :
    ∃ t, wr ea v s = .ok () t ∧ WriteFrame ea s t := by
  obtain ⟨t, hwr, -⟩ | ⟨k, -, htrap⟩ := wr_total ea v s
  · exact ⟨t, hwr, wr_frame hwr⟩
  · rw [h] at htrap; cases htrap

/-- The shape of a store follows the rule of a store, whatever value it stores. -/
theorem StoreRule.of_writeInstr {f : Operand → Instr} {mn : Mnemonic} {val : State → Byte}
    (hparts : ∀ m, (f m).parts = (mn, none, m.mode, m.bytes)) (hmn : mn ∈ writeMnemonics)
    (hexec : ∀ m s, exec (f m) s = writeInstr m (val s) s) : StoreRule f val := by
  intro m s hwf
  obtain ⟨ea, crossed, hres⟩ := resolve_store_eq_mem hwf (hparts m) hmn s
  rw [hexec]
  refine ⟨ea, by rw [hres]; rfl, fun k htrap => ?_, fun hnone => ?_⟩
  · exact writeInstr_trap (by rw [storeTrap_of_mem hres, htrap])
  · obtain ⟨t, hwr, hframe⟩ := wr_of_writeTrap_none hnone
    refine ⟨t, hwr, hframe, ?_⟩
    have hstore : store (resolve m s) (val s) s = .ok () t := by rw [hres]; exact hwr
    obtain ⟨-, -, -, -, hpc, -⟩ := hframe.registers
    rw [writeInstr_ok hstore, State.retire, State.bill, hpc, len_of_parts (hparts m), rowCost_write hwf (hparts m) hmn]

/-- The shape of an instruction that touches no memory follows its rule. -/
theorem ImpliedRule.of_retire {i : Instr} {effect : State → State} (hkeeps : ∀ s, KeepsPcAndWait s (effect s))
    (hexec : ∀ s, exec i s = .next ((effect s).retire 1 2)) : ImpliedRule i effect := by
  intro s
  obtain ⟨hpc, hwait⟩ := hkeeps s
  rw [hexec, State.retire, State.bill, hpc, hwait]
  rfl

/-! ## The loads and the stores -/

/-- Settles O21: each load is the read instruction whose effect is the register and `SetNZ`, in numbers by `withNZ_eq`. -/
theorem loadsFollowTheirRules : Obligations.LoadsFollowTheirRules := by
  refine ⟨?lda, ?ldaRule, ?ldx, ?ldxRule, ?ldy, ?ldyRule, ?lax, ?laxRule⟩
  case lda | ldx | ldy | lax => exact .of_matrix (fun _ => rfl) (fun _ => rfl) (by decide +kernel)
  case ldaRule | ldxRule | ldyRule | laxRule =>
    refine .of_readInstr (fun _ => rfl) (by decide) (fun _ _ => ⟨rfl, rfl⟩) fun m s => ?_
    simp only [withNZ_eq]
    rfl

/-- Settles O27: each store is the store instruction of its register, for SAX of A & X. -/
theorem storesFollowTheirRules : Obligations.StoresFollowTheirRules := by
  refine ⟨?sta, ?staRule, ?stx, ?stxRule, ?sty, ?styRule, ?sax, ?saxRule⟩
  case sta | stx | sty | sax => exact .of_matrix (fun _ => rfl) (fun _ => rfl) (by decide +kernel)
  case staRule | stxRule | styRule | saxRule => exact .of_writeInstr (fun _ => rfl) (by decide) fun _ _ => rfl

/-! ## The register instructions -/

section
variable {i : Instr} {val : State → Byte}

/-- An instruction without an operand that gives A a value, and N and Z from it. -/
theorem ImpliedRule.of_loadA (h : ∀ s, exec i s = .next ((s.loadA (val s)).retire 1 2)) :
    ImpliedRule i fun s => { s with a := val s, p := withNZ s.p (val s) } :=
  .of_retire (fun _ => ⟨rfl, rfl⟩) fun s => by rw [withNZ_eq]; exact h s

theorem ImpliedRule.of_loadX (h : ∀ s, exec i s = .next ((s.loadX (val s)).retire 1 2)) :
    ImpliedRule i fun s => { s with x := val s, p := withNZ s.p (val s) } :=
  .of_retire (fun _ => ⟨rfl, rfl⟩) fun s => by rw [withNZ_eq]; exact h s

theorem ImpliedRule.of_loadY (h : ∀ s, exec i s = .next ((s.loadY (val s)).retire 1 2)) :
    ImpliedRule i fun s => { s with y := val s, p := withNZ s.p (val s) } :=
  .of_retire (fun _ => ⟨rfl, rfl⟩) fun s => by rw [withNZ_eq]; exact h s

end

/-- Settles O32: each gives one register a value; all but TXS then set N and Z from it, and the sums are those of a byte. -/
theorem registerInstructionsFollowTheirRules : Obligations.RegisterInstructionsFollowTheirRules := by
  refine ⟨?tax, .of_loadX fun _ => rfl, ?tay, .of_loadY fun _ => rfl, ?txa, .of_loadA fun _ => rfl,
    ?tya, .of_loadA fun _ => rfl, ?tsx, .of_loadX fun _ => rfl, ?txs, .of_retire (fun _ => ⟨rfl, rfl⟩) fun _ => rfl,
    ?inx, .of_loadX fun s => ?inxValue, ?iny, .of_loadY fun s => ?inyValue,
    ?dex, .of_loadX fun s => ?dexValue, ?dey, .of_loadY fun s => ?deyValue⟩
  case tax | tay | txa | tya | tsx | txs | inx | iny | dex | dey => exact .of_matrix rfl rfl (by decide +kernel)
  case inxValue | inyValue => rw [inc_byte]; rfl
  case dexValue | deyValue => rw [dec_byte]; rfl

end Sys2Proof.Machine

/-!
SUPPORT. Arithmetic, logic, compares, increments and decrements (O22, O23, O24, O26, O28; R200 to R215, R283): the read
instructions and the read-modify-write instructions by the rule of their shape, the flags in numbers.
-/

namespace Sys2Proof.Machine

/-! ## The read instructions -/

/-- Settles O22: each is the read instruction whose effect is the bitwise operation on A and `SetNZ`. -/
theorem logicFollowsItsRules : Obligations.LogicFollowsItsRules := by
  refine ⟨?and, ?andRule, ?ora, ?oraRule, ?eor, ?eorRule⟩
  case and | ora | eor => exact .of_matrix (fun _ => rfl) (fun _ => rfl) (by decide +kernel)
  case andRule | oraRule | eorRule =>
    refine .of_readInstr (fun _ => rfl) (by decide) (fun _ _ => ⟨rfl, rfl⟩) fun m s => ?_
    simp only [withNZ_eq]
    rfl

theorem encode_usbc (v : Byte) : encode (.usbc v) = [0xEB, v] := by
  have hopcode : opcodeFor .usbc .imm = 0xEB := by decide +kernel
  exact congrArg (· :: [v]) hopcode

/-- Settles O23: ADC and SBC are the read instructions of the adder, which `adcCore_eq` and `sbcCore_eq` give in numbers; the
load of USBC yields its immediate operand. -/
theorem arithmeticFollowsItsRules : Obligations.ArithmeticFollowsItsRules := by
  refine ⟨?adc, ?adcRule, ?sbc, ?sbcRule, fun m s => ⟨encode_usbc m, ?usbcRule⟩⟩
  case adc | sbc => exact .of_matrix (fun _ => rfl) (fun _ => rfl) (by decide +kernel)
  case adcRule | sbcRule =>
    refine .of_readInstr (fun _ => rfl) (by decide) (fun _ _ => ⟨rfl, rfl⟩) fun m s => ?_
    simp only [← adcCore_eq, complement_byte]
    rfl
  case usbcRule =>
    rw [← sbcCore_eq]
    exact readInstr_ok (m := .imm m) State.subA rfl

/-- Settles O24: SBC of the complement adds the complement of the complement, and neither load changes A or the flags. -/
theorem adcIsSbcOfTheComplement : Obligations.AdcIsSbcOfTheComplement := by
  intro o o' s t t' m hload hload'
  obtain ⟨ha, -, -, -, -, hp⟩ := (load_frame hload).registers
  obtain ⟨ha', -, -, -, -, hp'⟩ := (load_frame hload').registers
  have hsum : sbcCore t'.a (~~~m) t'.p = adcCore t.a m t.p := by rw [sbcCore, BitVec.not_not, ha, ha', hp, hp']
  refine ⟨_, _, readInstr_ok State.addA hload, readInstr_ok State.subA hload', ?_, ?_⟩
  · rw [State.retire_a, State.retire_a, State.addA_a, State.subA_a, hsum]
  · rw [State.retire_p, State.retire_p, State.addA_p, State.subA_p, hsum]

/-- Settles O26: each compare is the read instruction of `Compare` with its register, BIT that of the bit test. -/
theorem comparesFollowTheirRules : Obligations.ComparesFollowTheirRules := by
  refine ⟨?cmp, ?cmpRule, ?cpx, ?cpxRule, ?cpy, ?cpyRule, ?bit, ?bitRule⟩
  case cmp | cpx | cpy | bit => exact .of_matrix (fun _ => rfl) (fun _ => rfl) (by decide +kernel)
  case cmpRule | cpxRule | cpyRule | bitRule =>
    refine .of_readInstr (fun _ => rfl) (by decide) (fun _ _ => ⟨rfl, rfl⟩) fun m s => ?_
    simp only [← compare_eq, ← bitTest_eq]
    rfl

/-! ## The read-modify-write instructions -/

theorem rowCost_rmw {i : Instr} {mn : Mnemonic} {op : Option Byte} {m : Operand} (hwf : i.wf = true)
    (hparts : i.parts = (mn, op, m.mode, m.bytes)) (hmn : mn ∈ rmwMnemonics) : rowCost i = rmwCycles m := by
  rw [← mnemonic_of_parts hparts] at hmn
  rw [← baseCycles_eq_rowCost, baseCycles_rmw (Laws.Row.statement i) hwf hmn (mode_of_parts hparts)]

/-- The shape of a read-modify-write instruction follows the rule of one, whatever it stores and whatever its second
component does to the registers. -/
theorem RmwRule.of_rmwInstr {f : Operand → Instr} {mn : Mnemonic} {modify : Byte → Flags → Byte × Flags}
    {effect : Byte → State → State} (hparts : ∀ m, (f m).parts = (mn, none, m.mode, m.bytes)) (hmn : mn ∈ rmwMnemonics)
    (hkeeps : ∀ v t, KeepsPcAndWait t (effect v t)) (hexec : ∀ m s, exec (f m) s = rmwInstr m modify effect s) :
    RmwRule f modify effect := by
  intro m s hwf
  rw [hexec]
  refine ⟨fun k htrap => rmwInstr_loadTrap modify effect htrap, fun hnone => ?_⟩
  obtain ⟨v, t, hload, hframe⟩ := load_ok hnone
  refine ⟨v, t, hload, hframe, ?_⟩
  obtain ⟨-, -, -, -, hpc, hp⟩ := hframe.registers
  have hcart : t.cart = s.cart := by rw [hframe]
  have hmodify : modify v s.p = modify v t.p := by rw [hp]
  rw [hmodify]
  refine ⟨fun k htrap => rmwInstr_storeTrap modify effect hload htrap, fun hnone' => ?_⟩
  obtain ⟨u, hstore, hwrite⟩ := store_ok (t := { t with p := (modify v t.p).2 }) hnone' hcart
  refine ⟨u, hstore, hwrite, ?_⟩
  obtain ⟨-, -, -, -, hpc', -⟩ := store_registers hstore
  obtain ⟨hpcKept, hwaitKept⟩ := hkeeps (modify v t.p).1 u
  rw [rmwInstr_ok modify effect hload hstore, State.retire, State.bill, hpcKept, hwaitKept, hpc', hpc,
    len_of_parts (hparts m), rowCost_rmw hwf (hparts m) hmn]

/-- Settles O28: both store the neighbour of the datum modulo 256 and then set N and Z from it. -/
theorem incrementsFollowTheirRules : Obligations.IncrementsFollowTheirRules := by
  refine ⟨?inc, ?incRule, ?dec, ?decRule⟩
  case inc | dec => exact .of_matrix (fun _ => rfl) (fun _ => rfl) (by decide +kernel)
  case incRule | decRule =>
    refine .of_rmwInstr (fun _ => rfl) (by decide) (fun _ _ => ⟨rfl, rfl⟩) fun m s => ?_
    simp only [withNZ_eq, inc_byte, dec_byte]
    rfl

end Sys2Proof.Machine

/-!
SUPPORT. The flag D is inert (O25; R201): no access of the CPU bus and no effect of the five instructions looks at it, so a
state with D replaced runs alongside the state itself.
-/

namespace Sys2Proof.Machine

/-! ## Operations on a state with D replaced -/

/-- What an operation yields, with D replaced in its state. -/
def Res.withD {α : Type} (b : Bool) : Res α → Res α
  | .ok v s => .ok v (Machine.withD b s)
  | .trap k => .trap k

/-- The operation does not look at D: begun with D replaced, it yields the same, with D replaced. -/
def IgnoresD {α : Type} (f : State → Res α) : Prop := ∀ b s, f (withD b s) = (f s).withD b

/-- The change of the state neither looks at D nor writes it. -/
def CommutesWithD (u : State → State) : Prop := ∀ b s, u (withD b s) = withD b (u s)

theorem IgnoresD.ok {α : Type} {u : State → State} (v : α) (hu : CommutesWithD u) : IgnoresD fun s => .ok v (u s) :=
  fun b s => congrArg (Res.ok v) (hu b s)

theorem IgnoresD.after {α : Type} {f : State → Res α} {u : State → State} (hf : IgnoresD f) (hu : CommutesWithD u) :
    IgnoresD fun s => f (u s) :=
  fun b s => (congrArg f (hu b s)).trans (hf b (u s))

theorem IgnoresD.bind {α β : Type} {f : State → Res α} {g : α → State → Res β} (hf : IgnoresD f)
    (hg : ∀ v, IgnoresD (g v)) : IgnoresD fun s => (f s).bind g := by
  intro b s
  show (f (withD b s)).bind g = ((f s).bind g).withD b
  rw [hf b s]
  cases f s with
  | ok v t => exact hg v b t
  | trap k => rfl

/-! ## The CPU bus -/

theorem rd_ignoresD (a : Word) : IgnoresD (rd a) := by
  intro b s
  have hcart : (withD b s).cart = s.cart := rfl
  simp only [rd, hcart]
  split
  · rfl
  split
  · cases PpuReg.select a.toNat <;> rfl
  split
  · rfl
  split
  · rfl
  split
  · rfl
  · cases s.cart.readPrg a.toNat <;> rfl

theorem dmaBytes_ignoresD (v : Byte) (n : Nat) : ∀ i, IgnoresD (dmaBytes v n i) := by
  induction n with
  | zero => exact fun _ _ _ => rfl
  | succ n ih => exact fun i => (rd_ignoresD _).bind fun _ => (ih (i + 1)).after fun _ _ => rfl

theorem oamDma_ignoresD (v : Byte) : IgnoresD (oamDma v) :=
  (dmaBytes_ignoresD v 256 0).bind fun _ => .ok () fun _ _ => rfl

theorem wr_ignoresD (a : Word) (v : Byte) : IgnoresD (wr a v) := by
  intro b s
  simp only [wr]
  split
  · rfl
  split
  · cases PpuReg.select a.toNat <;> rfl
  split
  · exact oamDma_ignoresD v b s
  split
  · rfl
  split
  · rfl
  split <;> rfl

theorem load_ignoresD (r : Resolved) : IgnoresD (load r) := by
  cases r with
  | mem ea c => exact rd_ignoresD ea
  | none | acc | imm => exact fun _ _ => rfl

theorem store_ignoresD (r : Resolved) (v : Byte) : IgnoresD (store r v) := by
  cases r with
  | mem ea c => exact wr_ignoresD ea v
  | none | acc | imm => exact fun _ _ => rfl

theorem resolve_withD (m : Operand) (b : Bool) (s : State) : resolve m (withD b s) = resolve m s := by
  cases m <;> rfl

/-! ## The shapes of instruction -/

/-- The instruction goes on to a state, and with D replaced before it, to the same state with D replaced. -/
def ExecIgnoresD (f : State → Result) : Prop :=
  ∀ b s, ∃ t, f s = .next t ∧ f (withD b s) = .next (withD b t)

theorem IgnoresD.finish {f : State → Res Unit} (h : IgnoresD f) : ExecIgnoresD fun s => finish s (f s) := by
  intro b s
  show ∃ t, Machine.finish s (f s) = .next t ∧ Machine.finish (withD b s) (f (withD b s)) = .next (withD b t)
  rw [h b s]
  cases f s with
  | ok u t => exact ⟨t, rfl, rfl⟩
  | trap k => exact ⟨{ s with fault := some k }, rfl, rfl⟩

theorem CommutesWithD.retire {u : State → State} (hu : CommutesWithD u) (len cost : Nat) :
    CommutesWithD fun s => (u s).retire len cost :=
  fun b s => congrArg (State.retire · len cost) (hu b s)

theorem readInstr_ignoresD (m : Operand) {f : Byte → State → State} (hf : ∀ v, CommutesWithD (f v)) :
    ExecIgnoresD (readInstr m f) := by
  intro b s
  simp only [readInstr, resolve_withD]
  exact IgnoresD.finish ((load_ignoresD (resolve m s)).bind fun v => .ok () ((hf v).retire _ _)) b s

theorem rmwInstr_ignoresD (m : Operand) {g : Byte → Flags → Byte × Flags} {f : Byte → State → State}
    (hg : ∀ v p d, g v { p with d := d } = ((g v p).1, { (g v p).2 with d := d })) (hf : ∀ v, CommutesWithD (f v)) :
    ExecIgnoresD (rmwInstr m g f) := by
  intro b s
  simp only [rmwInstr, resolve_withD]
  refine IgnoresD.finish ((load_ignoresD (resolve m s)).bind fun v b t => ?_) b s
  have hstored : g v (withD b t).p = ((g v t.p).1, { (g v t.p).2 with d := b }) := hg v t.p b
  rw [hstored]
  exact ((store_ignoresD (resolve m s) (g v t.p).1).bind fun _ => .ok () ((hf _).retire _ _)) b
    { t with p := (g v t.p).2 }

/-! ## The adder -/

theorem addA_commutesWithD (m : Byte) : CommutesWithD (State.addA m) := fun _ _ => rfl

theorem subA_commutesWithD (m : Byte) : CommutesWithD (State.subA m) := fun _ _ => rfl

/-- Settles O25: the five are a read and a read-modify-write shape around the adder, which keeps D and does not look at it. -/
theorem decimalFlagIsInert : Obligations.DecimalFlagIsInert := by
  intro o v b s i hi
  simp only [List.mem_cons, List.not_mem_nil, or_false] at hi
  rcases hi with rfl | rfl | rfl | rfl | rfl
  · exact readInstr_ignoresD o addA_commutesWithD b s
  · exact readInstr_ignoresD o subA_commutesWithD b s
  · exact readInstr_ignoresD (.imm v) subA_commutesWithD b s
  · exact rmwInstr_ignoresD o (fun _ _ _ => rfl) subA_commutesWithD b s
  · exact rmwInstr_ignoresD o (fun _ _ _ => rfl) addA_commutesWithD b s

end Sys2Proof.Machine

/-!
SUPPORT. The shifts and rotates (O29; R231 to R234): the read-modify-write instructions that store a core's result and then
set N and Z from it, the core in numbers.
-/

namespace Sys2Proof.Machine

/-- A read-modify-write instruction whose second component is `SetNZ` of the byte stored follows its rule, its modification
read in any form that agrees with the core it runs. -/
theorem RmwRule.of_testNZ {f : Operand → Instr} {mn : Mnemonic} {core modify : Byte → Flags → Byte × Flags}
    (hparts : ∀ m, (f m).parts = (mn, none, m.mode, m.bytes)) (hmn : mn ∈ rmwMnemonics)
    (hcore : ∀ v p, core v p = modify v p) (hexec : ∀ m s, exec (f m) s = rmwInstr m core State.testNZ s) :
    RmwRule f modify fun r u => { u with p := withNZ u.p r } := by
  obtain rfl : core = modify := funext₂ hcore
  refine .of_rmwInstr hparts hmn (fun _ _ => ⟨rfl, rfl⟩) fun m s => ?_
  simp only [withNZ_eq]
  exact hexec m s

/-- Settles O29: each runs its core on A or on memory alike, and `aslCore_eq` to `rorCore_eq` give the cores in numbers. -/
theorem shiftsFollowTheirRules : Obligations.ShiftsFollowTheirRules := by
  refine ⟨?asl, .of_testNZ (fun _ => rfl) (by decide) aslCore_eq fun _ _ => rfl,
    ?lsr, .of_testNZ (fun _ => rfl) (by decide) lsrCore_eq fun _ _ => rfl,
    ?rol, .of_testNZ (fun _ => rfl) (by decide) rolCore_eq fun _ _ => rfl,
    ?ror, .of_testNZ (fun _ => rfl) (by decide) rorCore_eq fun _ _ => rfl⟩
  case asl | lsr | rol | ror => exact .of_matrix (fun _ => rfl) (fun _ => rfl) (by decide +kernel)

end Sys2Proof.Machine

/-!
SUPPORT. The branches (O35; R173, R245 to R254): the shape of a branch in numbers, its target and its page crossing, follows
the rule of a branch, whatever flag it tests.
-/

namespace Sys2Proof

/-- An instruction that carries no opcode byte is the matrix's byte for its mnemonic and mode, then its operand bytes. -/
theorem encode_of_parts {i : Instr} {mn : Mnemonic} {mode : Mode} {bs : List Byte} (h : i.parts = (mn, none, mode, bs)) :
    encode i = opcodeFor mn mode :: bs := by
  rw [encode, Instr.opcode, Instr.mnemonic, Instr.mode, Instr.operandBytes, h]
  rfl

/-- The address two bytes on, in numbers (R24). -/
theorem add_two_toNat (pc : Word) : (pc + 2).toNat = (pc.toNat + 2) % 65536 := BitVec.toNat_add pc 2

end Sys2Proof

namespace Sys2Proof.Machine

/-- The target of a branch in numbers: its sign-extended offset added to the address of the next instruction (R173). -/
theorem branchTarget_toNat (pc : Word) (d : Byte) :
    (branchTarget pc d).toNat = ((pc.toNat + 2 + d.toInt) % 65536).toNat := by
  have hsum : branchTarget pc d = BitVec.ofInt 16 (pc.toNat + 2 + d.toInt) := by
    rw [BitVec.ofInt_add, BitVec.ofInt_add, BitVec.ofInt_natCast, BitVec.ofNat_toNat, BitVec.setWidth_eq]
    rfl
  rw [hsum, BitVec.toNat_ofInt]
  rfl

/-- A taken branch costs three cycles inside a page and four out of it (R173, R245). -/
theorem takenCost_eq (u v : Word) :
    ((3 + penalty (crosses u v) : Nat) : Int) = if u.toNat / 256 = v.toNat / 256 then 3 else 4 := by
  rw [crosses_eq_decide, penalty]
  by_cases hpage : u.toNat / 256 = v.toNat / 256 <;> simp [hpage]

/-- A branch that is taken: PC at its target, the third cycle, and a fourth if the page is left (R245). -/
theorem branch_taken (d : Byte) (s : State) : branch d true s = .next { s with
    pc := branchTarget s.pc d
    remainingCycles := s.remainingCycles +
      (if (s.pc + 2).toNat / 256 = (branchTarget s.pc d).toNat / 256 then 3 else 4) } := by
  rw [branch, if_pos rfl, State.bill, takenCost_eq]

/-- A branch that is not taken: PC past its two bytes, two cycles (R245). -/
theorem branch_not_taken (d : Byte) (s : State) :
    branch d false s = .next { s with pc := s.pc + 2, remainingCycles := s.remainingCycles + 2 } := rfl

/-- The shape of a branch follows the rule of a branch, whatever it tests. -/
theorem BranchRule.of_branch {f : Byte → Instr} {mn : Mnemonic} {op : Byte} {taken : Flags → Bool}
    (hwf : ∀ d, (f d).wf = true) (hparts : ∀ d, (f d).parts = (mn, none, .rel, [d])) (hop : opcodeFor mn .rel = op)
    (hexec : ∀ d s, exec (f d) s = branch d (taken s.p) s) : BranchRule f op taken := by
  intro d s
  refine ⟨hwf d, by rw [encode_of_parts (hparts d), hop], ?_⟩
  rw [hexec, ← branchTarget_toNat, ← add_two_toNat]
  cases taken s.p with
  | true => rw [branch_taken, if_pos rfl, if_pos rfl, BitVec.ofNat_toNat, BitVec.setWidth_eq]
  | false => rw [branch_not_taken, if_neg (by decide), if_neg (by decide), BitVec.ofNat_toNat, BitVec.setWidth_eq]

/-- Settles O35: each is the branch on its flag, under the opcode byte that the matrix has for it. -/
theorem branchesFollowTheirRules : Obligations.BranchesFollowTheirRules := by
  refine ⟨?bcc, ?bcs, ?beq, ?bne, ?bmi, ?bpl, ?bvc, ?bvs⟩
  case bcc | bcs | beq | bne | bmi | bpl | bvc | bvs =>
    exact .of_branch (fun _ => rfl) (fun _ => rfl) (by decide +kernel) fun _ _ => rfl

end Sys2Proof.Machine

/-!
SUPPORT. Subroutines, interrupt returns, BRK and the invalid opcodes (O37, O39, O41; R242 to R246, R145, R384, R386, R392):
each as the state it answers, and a return after its call by what the pulls find where the pushes wrote.
-/

namespace Sys2Proof.Machine

/-! ## The calls and the returns as states -/

/-- Memory after the push of a word at S, high byte first (R242, R386). -/
def wordPushed (m : Memory) (sp : Byte) (w : Word) : Memory :=
  (m.write (stackCell sp) (hiByte w)).write (stackCell (sp - 1)) (loByte w)

/-- RAM after an interrupt entry is RAM after a pushed word, with the image of P below it. -/
theorem framePushed_eq (s : State) (ret : Word) (image : Byte) :
    framePushed s ret image = (wordPushed s.ram s.sp ret).write (stackCell (s.sp - 2)) image := rfl

theorem exec_jsr (a : Word) (s : State) : exec (.jsr a) s = .next { s with
    ram := wordPushed s.ram s.sp (s.pc + 2)
    sp := s.sp - 2
    pc := a
    remainingCycles := s.remainingCycles + 6 } := by
  show execJsr a s = _
  rw [execJsr, pushWord_def]
  rfl

theorem exec_rts (s : State) : exec .rts s = .next { s with
    sp := s.sp + 2
    pc := wordOf (s.ram.read (stackCell (s.sp + 1))) (s.ram.read (stackCell (s.sp + 2))) + 1
    remainingCycles := s.remainingCycles + 6 } := by
  show execRts s = _
  rw [execRts, pullWord_def]
  rfl

theorem exec_rti (s : State) : exec .rti s = .next { s with
    p := .ofByte (s.ram.read (stackCell (s.sp + 1)))
    sp := s.sp + 3
    pc := wordOf (s.ram.read (stackCell (s.sp + 2))) (s.ram.read (stackCell (s.sp + 3)))
    remainingCycles := s.remainingCycles + 6 } := by
  show execRti s = _
  rw [execRti, interruptReturn_def]
  rfl

/-- Settles O37: the three as states, the pushed bytes of JSR and the pulled flags of RTI in numbers. -/
theorem subroutinesFollowTheirRules : Obligations.SubroutinesFollowTheirRules := by
  intro a s
  refine ⟨?jsr, ?jsrRule, ?rts, exec_rts s, ?rti, exec_rti s⟩
  case jsr =>
    have hopcode : opcodeFor .jsr .abs = 0x20 := by decide +kernel
    rw [encode_of_parts rfl, hopcode, loByte_eq_ofNat, hiByte_eq_ofNat]
  case jsrRule => rw [exec_jsr, wordPushed, loByte_eq_ofNat, hiByte_eq_ofNat, add_two_toNat]
  case rts | rti => exact .of_matrix rfl rfl (by decide +kernel)

/-! ## BRK and the invalid opcodes -/

theorem exec_brk_trap {s : State} (h : s.config.brkMode = .trap) : exec .brk s = .next { s with fault := some .brk } := by
  show execBrk s = _
  rw [execBrk, h]
  rfl

theorem exec_brk_vector {s : State} (h : s.config.brkMode = .vector) :
    exec .brk s = finish s (interruptEntry irqVector (s.pc + 2) true s) := by
  show execBrk s = _
  rw [execBrk, h]

theorem SpellsImplied.of_invalid {op : Byte} (h : op ∈ Instr.invalidOps) : SpellsImplied (.invalid op) op :=
  ⟨List.contains_iff_mem.2 h, rfl⟩

/-- The fetch of an instruction of one byte is the read of that byte (R130). -/
theorem fetch_implied {i : Instr} {op : Byte} {s t : State} (h : SpellsImplied i op) (hread : rd s.pc s = .ok op t) :
    fetch s = .ok i t := by
  obtain ⟨hwf, henc⟩ := h
  obtain ⟨rfl, hbytes⟩ : i.opcode = op ∧ i.operandBytes = [] := List.cons.inj henc
  obtain ⟨-, hmn, hmode, hlen⟩ := Laws.Row.statement i hwf
  have hone : lengthOf i.opcode = 1 := by rw [lengthOf, hmode, ← Instr.len, ← hlen, hbytes]; rfl
  have hbuilt : assemble i.opcode 0 0 = i := by
    have hparts := Instr.build_parts hwf
    rw [hbytes] at hparts
    rw [assemble, hmn, hmode]
    exact hparts
  rw [fetch, hread, Res.bind_ok, hone]
  exact congrArg (Res.ok · t) hbuilt

/-- A dispatch that meets an invalid opcode reads nothing but that byte, and rolls back to its boundary (R145, R382). -/
theorem dispatch_invalid {op : Byte} {s t : State} (hop : op ∈ Instr.invalidOps) (h : Undisturbed s)
    (hread : rd s.pc { s with remainingCycles := 0 } = .ok op t) :
    dispatch s = .next { s with fault := some (.invalidOpcode op) } := by
  rw [dispatch_undisturbed h, fetch_implied (.of_invalid hop) hread]
  rfl

/-- Settles O39: the trap of BRK and of an invalid byte is the state with `fault` set, and BRK through the vector is an
interrupt entry with B = 1. -/
theorem brkAndInvalidOpcodes : Obligations.BrkAndInvalidOpcodes := by
  refine ⟨fun s => ⟨.of_matrix rfl rfl (by decide +kernel), exec_brk_trap, fun hmode hcart => ?_⟩,
    fun op s hop => ⟨.of_invalid hop, rfl, fun t h hread => dispatch_invalid hop h hread⟩⟩
  rw [exec_brk_vector hmode, interruptEntry_def _ _ _ _ hcart (by decide) (by decide), pbyte_eq_pImage]
  rfl

/-! ## A return after its call -/

theorem stackCell_inj {sp sp' : Byte} : stackCell sp = stackCell sp' ↔ sp = sp' := by
  rw [stackCell, stackCell, Nat.add_left_cancel_iff, BitVec.toNat_inj]

/-- Steps of S below a byte lead to different cells of the stack page, as they are fewer than 256 (R21). -/
theorem stackCell_sub_ne (sp : Byte) : stackCell sp ≠ stackCell (sp - 1) ∧ stackCell sp ≠ stackCell (sp - 2) ∧
    stackCell (sp - 1) ≠ stackCell (sp - 2) := by
  simp only [ne_eq, stackCell_inj]
  bv_omega

theorem Memory.read_write_of_ne (m : Memory) {k k' : Nat} (v : Byte) (h : k' ≠ k) : (m.write k v).read k' = m.read k' := by
  rw [Memory.read_write, if_neg h.symm]

/-- What a pushed word leaves in memory: its high byte, its low byte below, and elsewhere what was there. -/
theorem read_wordPushed (m : Memory) (sp : Byte) (w : Word) :
    (wordPushed m sp w).read (stackCell sp) = hiByte w ∧ (wordPushed m sp w).read (stackCell (sp - 1)) = loByte w ∧
    ∀ k, k ≠ stackCell sp → k ≠ stackCell (sp - 1) → (wordPushed m sp w).read k = m.read k := by
  obtain ⟨hne, -, -⟩ := stackCell_sub_ne sp
  refine ⟨?_, Memory.read_write_same _ _ _, fun k hhigh hlow => ?_⟩
  · rw [wordPushed, Memory.read_write_of_ne _ _ hne, Memory.read_write_same]
  · rw [wordPushed, Memory.read_write_of_ne _ _ hlow, Memory.read_write_of_ne _ _ hhigh]

/-- What an interrupt entry leaves in RAM: the pushed word, the image of P below it, and elsewhere what was there. -/
theorem read_framePushed (s : State) (ret : Word) (image : Byte) :
    (framePushed s ret image).read (stackCell s.sp) = hiByte ret ∧
    (framePushed s ret image).read (stackCell (s.sp - 1)) = loByte ret ∧
    (framePushed s ret image).read (stackCell (s.sp - 2)) = image ∧
    ∀ k, k ≠ stackCell s.sp → k ≠ stackCell (s.sp - 1) → k ≠ stackCell (s.sp - 2) →
      (framePushed s ret image).read k = s.ram.read k := by
  obtain ⟨-, hne, hne'⟩ := stackCell_sub_ne s.sp
  obtain ⟨hhigh, hlow, hrest⟩ := read_wordPushed s.ram s.sp ret
  rw [framePushed_eq]
  refine ⟨?_, ?_, Memory.read_write_same _ _ _, fun k h h1 h2 => ?_⟩
  · rw [Memory.read_write_of_ne _ _ hne, hhigh]
  · rw [Memory.read_write_of_ne _ _ hne', hlow]
  · rw [Memory.read_write_of_ne _ _ h2, hrest k h h1]

/-- The image of P that an entry pushes gives back the six flags (R27, R28). -/
theorem Flags.ofByte_pbyte (p : Flags) (b : Bool) : Flags.ofByte (p.pbyte b) = p := by
  obtain ⟨c, z, i, d, v, n⟩ := p
  revert c z i d v n b
  decide

/-- RTS after JSR answers the state before the call, but for PC, the wait and the two cells of the pushed address. -/
theorem rts_after_jsr (a : Word) (s : State) : ∃ t u, exec (.jsr a) s = .next t ∧ exec .rts t = .next u ∧
    u = { s with ram := t.ram, pc := s.pc + 3, remainingCycles := s.remainingCycles + 12 } ∧
    ∀ k, k ≠ stackCell s.sp → k ≠ stackCell (s.sp - 1) → t.ramAt k = s.ramAt k := by
  obtain ⟨hhigh, hlow, hrest⟩ := read_wordPushed s.ram s.sp (s.pc + 2)
  have hsp1 : s.sp - 2 + 1 = s.sp - 1 := by bv_omega
  have hsp2 : s.sp - 2 + 2 = s.sp := BitVec.sub_add_cancel _ _
  have hpc : s.pc + 2 + 1 = s.pc + 3 := by rw [BitVec.add_assoc]; rfl
  refine ⟨_, _, exec_jsr a s, exec_rts _, ?_, hrest⟩
  simp only [hsp1, hsp2, hhigh, hlow, wordOf_loByte_hiByte, hpc, Int.add_assoc, Int.reduceAdd]

/-- RTI after an interrupt entry answers the state before it, but for PC, the wait and the three cells of the frame. -/
theorem rti_after_interruptEntry (v ret : Word) (s : State) (hcart : s.cart.wf = true) (hlow : 0xC000 ≤ v.toNat)
    (hhigh : v.toNat < 0xFFFF) : ∃ t u, interruptEntry v ret false s = .ok () t ∧ exec .rti t = .next u ∧
    u = { s with ram := t.ram, pc := ret, remainingCycles := s.remainingCycles + 13 } ∧
    ∀ k, k ≠ stackCell s.sp → k ≠ stackCell (s.sp - 1) → k ≠ stackCell (s.sp - 2) → t.ramAt k = s.ramAt k := by
  obtain ⟨hret, hret', himage, hrest⟩ := read_framePushed s ret (s.p.pbyte false)
  have hsp1 : s.sp - 3 + 1 = s.sp - 2 := by bv_omega
  have hsp2 : s.sp - 3 + 2 = s.sp - 1 := by bv_omega
  have hsp3 : s.sp - 3 + 3 = s.sp := BitVec.sub_add_cancel _ _
  refine ⟨_, _, interruptEntry_def v ret false s hcart hlow hhigh, exec_rti _, ?_, hrest⟩
  simp only [hsp1, hsp2, hsp3, hret, hret', himage, Flags.ofByte_pbyte, wordOf_loByte_hiByte, Int.add_assoc, Int.reduceAdd]

/-- Settles O41: the pulls find what the pushes wrote, so only PC, the wait and the pushed cells differ. -/
theorem returnsUndoCallsAndEntries : Obligations.ReturnsUndoCallsAndEntries := by
  refine ⟨fun a s => ?_, fun v ret s hv hcart => ?_⟩
  · obtain ⟨t, _, hcall, hreturn, rfl, hrest⟩ := rts_after_jsr a s
    exact ⟨t, _, hcall, hreturn, rfl, rfl, rfl, rfl, rfl, rfl, hrest⟩
  · obtain ⟨hlow, hhigh⟩ : 0xC000 ≤ v.toNat ∧ v.toNat < 0xFFFF := by rcases hv with rfl | rfl <;> decide
    obtain ⟨t, _, hentry, hreturn, rfl, hrest⟩ := rti_after_interruptEntry v ret s hcart hlow hhigh
    exact ⟨t, _, hentry, hreturn, rfl, rfl, rfl, rfl, rfl, rfl, hrest⟩

end Sys2Proof.Machine

/-!
SUPPORT. The flag instructions, the stack instructions, the NOPs and JAM (O33, O34, O38; R260 to R272, R292, R293): a stack
instruction as the state it answers, and the cost of an undocumented NOP as that of a read of its mode.
-/

namespace Sys2Proof.Machine

/-! ## The undocumented NOPs and JAM -/

theorem SpellsImplied.of_jam {op : Byte} (h : op ∈ Instr.jamOps) : SpellsImplied (.jam op) op :=
  ⟨List.contains_iff_mem.2 h, rfl⟩

/-- The modes of the undocumented NOPs, each with its bytes (R293). -/
def undocNopRows : List (Mode × Byte) :=
  [Mode.imp, .imm, .zp, .zpx, .abs, .abx].flatMap fun mode => (Instr.nopOps mode).map (Prod.mk mode)

theorem mem_undocNopRows {mode : Mode} {op : Byte} (h : op ∈ Instr.nopOps mode) : (mode, op) ∈ undocNopRows := by
  refine List.mem_flatMap.2 ⟨mode, ?_, List.mem_map_of_mem h⟩
  cases mode with
  | imp | imm | zp | zpx | abs | abx => decide
  | acc | zpy | rel | aby | ind | izx | izy | none => cases h

theorem rowCost_nopUndoc {op : Byte} {m : Operand} (hwf : (Instr.nopUndoc op m).wf = true) :
    rowCost (.nopUndoc op m) = readCycles m :=
  rowCost_read hwf rfl (by decide)

/-- An undocumented NOP moves PC past its bytes and bills its row and the page crossing; its operand is not read (R293). -/
theorem exec_nopUndoc {op : Byte} {m : Operand} (hwf : (Instr.nopUndoc op m).wf = true) (s : State) :
    exec (.nopUndoc op m) s = .next { s with
      pc := s.pc + BitVec.ofNat 16 m.mode.len
      remainingCycles := s.remainingCycles + (rowCost (.nopUndoc op m) + crossCost m s : Nat) } := by
  rw [rowCost_nopUndoc hwf]
  rfl

/-- Settles O34: NOP has no effect to retire, an undocumented NOP is the byte that it carries, one of R293's for its mode, and
JAM only bills. -/
theorem nopsAndJamFollowTheirRules : Obligations.NopsAndJamFollowTheirRules := by
  refine ⟨⟨rfl, rfl⟩, .of_retire (fun _ => ⟨rfl, rfl⟩) fun _ => rfl,
    fun op m s hwf => ⟨rfl, ?row, exec_nopUndoc hwf s⟩, fun op s hop => ⟨.of_jam hop, rfl⟩⟩
  case row => exact mem_undocNopRows (List.contains_iff_mem.1 hwf)

/-! ## The stack instructions -/

/-- An instruction that pushes a byte writes it at the stack cell and steps S down (R261, R262). -/
theorem finish_push (v : Byte) (s : State) :
    finish s ((push v s).bind fun _ t => .ok () (t.retire 1 3)) = .next { s with
      ram := s.ram.write (stackCell s.sp) v, sp := s.sp - 1, pc := s.pc + 1
      remainingCycles := s.remainingCycles + 3 } := by
  rw [push_def]
  rfl

/-- An instruction that pulls a byte steps S up and hands the byte read there to its effect (R263, R264). -/
theorem finish_pull (effect : Byte → State → State) (s : State) :
    finish s ((pull s).bind fun v t => .ok () ((effect v t).retire 1 4)) =
      .next ((effect (s.ram.read (stackCell (s.sp + 1))) { s with sp := s.sp + 1 }).retire 1 4) := by
  rw [pull_def]
  rfl

/-- Settles O38: the two pushes differ in the byte, P's image in numbers for PHP, and the two pulls in where it goes. -/
theorem stackInstructionsFollowTheirRules : Obligations.StackInstructionsFollowTheirRules := by
  intro s
  refine ⟨?pha, finish_push s.a s, ?php, ?phpRule, ?pla, ?plaRule, ?plp, finish_pull (fun v t => { t with p := .ofByte v }) s⟩
  case pha | php | pla | plp => exact .of_matrix rfl rfl (by decide +kernel)
  case phpRule =>
    have himage : s.p.pbyte true = pImage s.p 1 := pbyte_eq_pImage s.p true
    rw [← himage]
    exact finish_push (s.p.pbyte true) s
  case plaRule =>
    rw [withNZ_eq]
    exact finish_pull State.loadA s

/-! ## The flag instructions -/

/-- Settles O33: each gives one flag a constant and retires. -/
theorem flagInstructionsFollowTheirRules : Obligations.FlagInstructionsFollowTheirRules := by
  refine ⟨?clc, ?clcRule, ?sec, ?secRule, ?cli, ?cliRule, ?sei, ?seiRule, ?cld, ?cldRule, ?sed, ?sedRule, ?clv, ?clvRule⟩
  case clc | sec | cli | sei | cld | sed | clv => exact .of_matrix rfl rfl (by decide +kernel)
  case clcRule | secRule | cliRule | seiRule | cldRule | sedRule | clvRule =>
    exact .of_retire (fun _ => ⟨rfl, rfl⟩) fun _ => rfl

end Sys2Proof.Machine

/-!
SUPPORT. The undocumented combined instructions (O30, O31; R284 to R291): a pair as a core that the documented instruction
has in numbers, then a second component that has its effect in numbers.
-/

namespace Sys2Proof.Machine

/-! ## The second components in numbers -/

theorem State.loadA_eq (v : Byte) (s : State) : s.loadA v = { s with a := v, p := withNZ s.p v } := by
  rw [withNZ_eq]; rfl

theorem State.addA_eq (m : Byte) (s : State) :
    s.addA m = { s with a := (addResult s.a m s.p).1, p := (addResult s.a m s.p).2 } := by
  rw [← adcCore_eq]; rfl

theorem State.subA_eq (m : Byte) (s : State) : s.subA m = { s with
    a := (addResult s.a (BitVec.ofNat 8 (255 - m.toNat)) s.p).1
    p := (addResult s.a (BitVec.ofNat 8 (255 - m.toNat)) s.p).2 } := by
  rw [← sbcCore_eq]; rfl

theorem State.compareWith_eq (r m : Byte) (s : State) : s.compareWith r m = { s with p := compareResult r m s.p } := by
  rw [← compare_eq]; rfl

/-- A read-modify-write instruction follows its rule with its core and its second component each read in any form that
agrees with what it runs. -/
theorem RmwRule.of_components {f : Operand → Instr} {mn : Mnemonic} {core modify : Byte → Flags → Byte × Flags}
    {component effect : Byte → State → State} (hparts : ∀ m, (f m).parts = (mn, none, m.mode, m.bytes))
    (hmn : mn ∈ rmwMnemonics) (hkeeps : ∀ v t, KeepsPcAndWait t (effect v t)) (hcore : ∀ v p, core v p = modify v p)
    (hcomponent : ∀ v t, component v t = effect v t) (hexec : ∀ m s, exec (f m) s = rmwInstr m core component s) :
    RmwRule f modify effect := by
  obtain rfl : core = modify := funext₂ hcore
  obtain rfl : component = effect := funext₂ hcomponent
  exact .of_rmwInstr hparts hmn hkeeps hexec

/-- Settles O30: each runs the core of its first component, then the effect of its second, and has both in numbers; the flags
that the core leaves are those of the state in which the second component runs, which gives RRA its carry. -/
theorem undocumentedPairsFollowTheirRules : Obligations.UndocumentedPairsFollowTheirRules := by
  refine ⟨?dcp, .of_components (fun _ => rfl) (by decide) (fun _ _ => ⟨rfl, rfl⟩) (fun m _ => by rw [dec_byte])
      (fun r u => u.compareWith_eq u.a r) fun _ _ => rfl,
    ?isb, .of_components (fun _ => rfl) (by decide) (fun _ _ => ⟨rfl, rfl⟩) (fun m _ => by rw [inc_byte])
      State.subA_eq fun _ _ => rfl,
    ?slo, .of_components (fun _ => rfl) (by decide) (fun _ _ => ⟨rfl, rfl⟩) aslCore_eq
      (fun r u => u.loadA_eq (u.a ||| r)) fun _ _ => rfl,
    ?rla, .of_components (fun _ => rfl) (by decide) (fun _ _ => ⟨rfl, rfl⟩) rolCore_eq
      (fun r u => u.loadA_eq (u.a &&& r)) fun _ _ => rfl,
    ?sre, .of_components (fun _ => rfl) (by decide) (fun _ _ => ⟨rfl, rfl⟩) lsrCore_eq
      (fun r u => u.loadA_eq (u.a ^^^ r)) fun _ _ => rfl,
    ?rra, .of_components (fun _ => rfl) (by decide) (fun _ _ => ⟨rfl, rfl⟩) rorCore_eq State.addA_eq fun _ _ => rfl⟩
  case dcp | isb | slo | rla | sre | rra => exact .of_matrix (fun _ => rfl) (fun _ => rfl) (by decide +kernel)

/-! ## ANC and ALR -/

/-- A read instruction with an immediate operand completes in two bytes and two cycles (R290, R291). -/
theorem readInstr_imm (m : Byte) (effect : Byte → State → State) (s : State) :
    readInstr (.imm m) effect s = .next ((effect m s).retire 2 2) :=
  readInstr_ok (m := .imm m) effect rfl

theorem exec_anc (op m : Byte) (s : State) : exec (.anc op m) s = .next { s with
    a := s.a &&& m
    p := { withNZ s.p (s.a &&& m) with c := decide (128 ≤ (s.a &&& m).toNat) }
    pc := s.pc + 2
    remainingCycles := s.remainingCycles + 2 } := by
  have hexec : exec (.anc op m) s = execAnc m s := rfl
  rw [hexec, execAnc, readInstr_imm, withNZ_eq, ← bit7_eq_decide]
  rfl

theorem exec_alr (m : Byte) (s : State) : exec (.alr m) s = .next { s with
    a := BitVec.ofNat 8 ((s.a &&& m).toNat / 2)
    p := { withNZ s.p (BitVec.ofNat 8 ((s.a &&& m).toNat / 2)) with c := decide ((s.a &&& m).toNat % 2 = 1) }
    pc := s.pc + 2
    remainingCycles := s.remainingCycles + 2 } := by
  have hexec : exec (.alr m) s = execAlr m s := rfl
  rw [hexec, execAlr, readInstr_imm, lsrCore_eq, State.loadA_eq]
  rfl

theorem encode_alr (m : Byte) : encode (.alr m) = [0x4B, m] := by
  have hopcode : opcodeFor .alr .imm = 0x4B := by decide +kernel
  rw [encode_of_parts rfl, hopcode]

/-- Settles O31: ANC is the byte that it carries, one of its two, ALR the byte that the matrix has for it; both load their
immediate operand and retire. -/
theorem ancAndAlrFollowTheirRules : Obligations.AncAndAlrFollowTheirRules := by
  refine fun m s => ⟨fun op hop => ⟨rfl, ?wf, exec_anc op m s⟩, encode_alr m, exec_alr m s⟩
  case wf => exact List.contains_iff_mem.2 (by simpa [Instr.ancOps] using hop)

end Sys2Proof.Machine

/-!
SUPPORT. The traps of the CPU bus (O7, O8) and the PPU registers behind it (O10 to O15; R300 to R318): an access whose address
selects a register is an access of that register, so each statement is about one arm of the register's read or write.
-/

namespace Sys2Proof.Machine

/-! ## Where an access traps -/

/-- Settles O7: the router's law of traps, and the frame of a read that yields. -/
theorem readsTrapExactlyWhereSaid : Obligations.ReadsTrapExactlyWhereSaid :=
  fun a s => ⟨fun k => (rd_trap_iff a s k).2, rd_of_readTrap_none⟩

/-- Settles O8: the router's law of traps, and the frame of a write that yields. -/
theorem writesTrapExactlyWhereSaid : Obligations.WritesTrapExactlyWhereSaid :=
  fun a v s => ⟨fun k => (wr_trap_iff a v s k).2, wr_of_writeTrap_none⟩

/-! ## The registers at every mirror -/

section
variable {a : Word} {r : PpuReg}

theorem HitsPpu.rd_eq (h : HitsPpu a r) (s : State) : rd a s = ppuRegRead r s := by
  obtain ⟨hlow, hhigh, rfl⟩ := h
  exact rd_ppu a s hlow hhigh

theorem HitsPpu.wr_eq (h : HitsPpu a r) (v : Byte) (s : State) : wr a v s = ppuRegWrite r v s := by
  obtain ⟨hlow, hhigh, rfl⟩ := h
  exact wr_ppu a v s hlow hhigh

end

theorem hitsPpu_ppuaddr : HitsPpu 0x2006 .ppuaddr := ⟨by decide, by decide, rfl⟩

theorem hitsPpu_ppudata : HitsPpu 0x2007 .ppudata := ⟨by decide, by decide, rfl⟩

/-! ## PPUSTATUS, PPUCTRL and PPUMASK -/

/-- The status byte in numbers (R39). -/
theorem Ppu.statusByte_eq (p : Ppu) :
    p.statusByte = BitVec.ofNat 8 ((if p.vblank then 128 else 0) + (if p.spr0hit then 64 else 0)) := by
  rw [Ppu.statusByte]
  cases p.vblank <;> cases p.spr0hit <;> rfl

/-- Settles O10: the byte of R308 in numbers; the state is the one the read leaves. -/
theorem statusReadClearsVblankAndLatches : Obligations.StatusReadClearsVblankAndLatches := by
  intro a s h
  rw [h.rd_eq, ← Ppu.statusByte_eq]
  rfl

theorem Ppu.nmiEn_eq (p : Ppu) : p.nmiEn = decide (128 ≤ p.ctrl.toNat) := bit7_eq_decide p.ctrl

/-- When a PPUCTRL write requests an NMI, in numbers (R306). -/
theorem Ppu.ctrlWriteNmi_iff (mode : NmiOnCtrlWrite) (p : Ppu) (v : Byte) : p.ctrlWriteNmi mode v = true ↔
    128 ≤ v.toNat ∧ p.vblank = true ∧ (mode = .level ∨ p.ctrl.toNat < 128) := by
  simp [Ppu.ctrlWriteNmi, bit7_eq_decide, Ppu.nmiEn_eq, and_assoc]

/-- Settles O11: PPUCTRL by the condition of its request in numbers, PPUMASK as it is written. -/
theorem controlAndMaskWrites : Obligations.ControlAndMaskWrites := by
  refine fun a v s => ⟨fun h => ?ctrl, fun h => h.wr_eq v s⟩
  case ctrl =>
    rw [h.wr_eq, ppuRegWrite, ctrlWrite]
    simp only [← Ppu.ctrlWriteNmi_iff]
    cases s.ppu.ctrlWriteNmi s.config.nmiOnCtrlWrite v <;> simp

/-! ## OAMADDR and OAMDATA -/

/-- Settles O12: the OAMDATA write is a write of the memory at `oam_addr`, and a step of it. -/
theorem oamPorts : Obligations.OamPorts := by
  refine fun a v s => ⟨fun h => h.wr_eq v s, fun h => ⟨h.rd_eq s, _, h.wr_eq v s, rfl, ?address, fun k => ?byte⟩⟩
  case address => exact BitVec.toNat_add s.ppu.oamAddr 1
  case byte =>
    show (s.ppu.oam.write s.ppu.oamAddr.toNat v).read k = _
    rw [Memory.read_write]
    simp only [eq_comm]

/-! ## PPUSCROLL and PPUADDR -/

/-- The first PPUADDR write: the high byte (R314). -/
theorem Ppu.addrWrite_first {p : Ppu} (h : p.addrLatch = false) (v : Byte) : p.addrWrite v = { p with
    vramAddr := BitVec.ofNat 16 (v.toNat * 256 + p.vramAddr.toNat % 256), addrLatch := true } := by
  have hlow : (loByte p.vramAddr).toNat = p.vramAddr.toNat % 256 := by simp [loByte_eq_ofNat]
  simp only [Ppu.addrWrite, h, wordOf_eq_ofNat, hlow, Bool.false_eq_true, if_false]
  rw [Nat.add_comm, Nat.mul_comm]

/-- The second PPUADDR write: the low byte (R314). -/
theorem Ppu.addrWrite_second {p : Ppu} (h : p.addrLatch = true) (v : Byte) : p.addrWrite v = { p with
    vramAddr := BitVec.ofNat 16 (p.vramAddr.toNat / 256 * 256 + v.toNat), addrLatch := false } := by
  simp only [Ppu.addrWrite, h, wordOf_eq_ofNat, hiByte_toNat, if_true]
  rw [Nat.add_comm, Nat.mul_comm]

/-- Settles O13: each register at each value of its latch. -/
theorem scrollAndAddressLatches : Obligations.ScrollAndAddressLatches := by
  refine fun a v s => ⟨fun h => ⟨fun hlatch => ?_, fun hlatch => ?_⟩, fun h => ⟨fun hlatch => ?_, fun hlatch => ?_⟩⟩ <;>
    rw [h.wr_eq, ppuRegWrite]
  · simp only [Ppu.scrollWrite, hlatch, Bool.false_eq_true, if_false]
  · simp only [Ppu.scrollWrite, hlatch, if_true]
  · rw [Ppu.addrWrite_first hlatch]
  · rw [Ppu.addrWrite_second hlatch]

/-! ## PPUDATA -/

/-- The step of the VRAM address, as a number modulo 65536 (R316). -/
theorem Ppu.incVramAddr_eq (p : Ppu) : p.incVramAddr = { p with
    vramAddr := BitVec.ofNat 16 (p.vramAddr.toNat + if p.ctrl.getLsbD 2 then 32 else 1) } := by
  rw [Ppu.incVramAddr, Ppu.inc32]
  cases p.ctrl.getLsbD 2 <;> simp [BitVec.ofNat_add]

/-- A PPUDATA read below the palette: the byte read before, and the buffer refilled (R315). -/
theorem Ppu.dataRead_buffered (c : Cart) {p : Ppu} (h : p.vramAddr.toNat % 0x4000 < 0x3F00) : p.dataRead c =
    (p.readBuffer, { p with readBuffer := ppuRd c p (p.vramAddr.toNat % 0x4000) }.incVramAddr) := by
  rw [Ppu.dataRead, if_pos h]

/-- A PPUDATA read of the palette: the byte itself, and the buffer filled from the nametable under it (R315). -/
theorem Ppu.dataRead_palette (c : Cart) {p : Ppu} (h : 0x3F00 ≤ p.vramAddr.toNat % 0x4000) : p.dataRead c =
    (ppuRd c p (p.vramAddr.toNat % 0x4000),
      { p with readBuffer := ppuRd c p (p.vramAddr.toNat % 0x4000 - 0x1000) }.incVramAddr) := by
  rw [Ppu.dataRead, if_neg (Nat.not_lt.2 h)]

/-- Settles O14: the two ranges of a read and the write; a write of the PPU bus leaves the registers, so the step after it is
the step before it. -/
theorem dataPort : Obligations.DataPort := by
  intro a v s h va next
  refine ⟨fun hlow => ?_, fun hhigh => ?_, ?_⟩
  · rw [h.rd_eq, ppuRegRead, Ppu.dataRead_buffered _ hlow, Ppu.incVramAddr_eq]
  · rw [h.rd_eq, ppuRegRead, Ppu.dataRead_palette _ hhigh, Ppu.incVramAddr_eq]
  · obtain ⟨-, hframe⟩ := ppuWr_frame s.cart s.ppu va v
    rw [h.wr_eq, ppuRegWrite, Ppu.dataWrite, Ppu.incVramAddr_eq, hframe]

/-- A read of the PPU bus looks at the VRAM and the palette, and at no register. -/
theorem ppuRd_congr {c : Cart} {p q : Ppu} (hvram : q.vram = p.vram) (hpalette : q.palette = p.palette) (a : Nat) :
    ppuRd c q a = ppuRd c p a := by
  rw [ppuRd, ppuRd, hvram, hpalette]

/-- The PPU bus has 14 address lines (R100). -/
theorem ppuRd_mod (c : Cart) (p : Ppu) (a : Nat) : ppuRd c p (a % 0x4000) = ppuRd c p a := by
  simp only [ppuRd, Nat.mod_mod]

/-- Two PPUADDR writes with the latch clear set the address to the two bytes, whatever it was. -/
theorem wr_ppuaddr_twice {s : State} (h : s.ppu.addrLatch = false) (hi lo : Byte) : ∃ t, wr 0x2006 hi s = .ok () t ∧
    wr 0x2006 lo t = .ok () { s with
      ppu := { s.ppu with vramAddr := BitVec.ofNat 16 (hi.toNat * 256 + lo.toNat), addrLatch := false } } := by
  obtain ⟨-, hfirst⟩ := scrollAndAddressLatches 0x2006 hi s
  obtain ⟨hfirst, -⟩ := hfirst hitsPpu_ppuaddr
  refine ⟨_, hfirst h, ?_⟩
  obtain ⟨-, hsecond⟩ := scrollAndAddressLatches 0x2006 lo { s with ppu := { s.ppu with
    vramAddr := BitVec.ofNat 16 (hi.toNat * 256 + s.ppu.vramAddr.toNat % 256), addrLatch := true } }
  obtain ⟨-, hsecond⟩ := hsecond hitsPpu_ppuaddr
  have hword : (BitVec.ofNat 16 (hi.toNat * 256 + s.ppu.vramAddr.toNat % 256)).toNat / 256 = hi.toNat := by
    have := hi.isLt
    rw [BitVec.toNat_ofNat]
    omega
  rw [hsecond rfl, hword]

/-- What a PPUDATA read answers, and what is in the buffer after it where the address is below the palette. -/
theorem rd_ppudata (s : State) : ∃ t,
    rd 0x2007 s = .ok (if s.ppu.vramAddr.toNat % 0x4000 < 0x3F00 then s.ppu.readBuffer
      else ppuRd s.cart s.ppu s.ppu.vramAddr.toNat) t ∧
    (s.ppu.vramAddr.toNat % 0x4000 < 0x3F00 → t = { s with ppu := { s.ppu with
      readBuffer := ppuRd s.cart s.ppu s.ppu.vramAddr.toNat, vramAddr := t.ppu.vramAddr } }) := by
  obtain ⟨hbuffered, hpalette, -⟩ := dataPort 0x2007 0x00 s hitsPpu_ppudata
  by_cases h : s.ppu.vramAddr.toNat % 0x4000 < 0x3F00
  · refine ⟨_, by rw [if_pos h, hbuffered h], fun _ => ?_⟩
    rw [ppuRd_mod]
  · exact ⟨_, by rw [if_neg h, hpalette (Nat.not_lt.1 h), ppuRd_mod], fun h' => absurd h' h⟩

/-- Settles O15: the first read refills the buffer with the byte at the address, which the second answers, unless the address
has then moved into the palette. -/
theorem ppudataReadsAreDelayed : Obligations.PpudataReadsAreDelayed := by
  intro hi lo s hlatch hrange
  have haddr : (BitVec.ofNat 16 (hi.toNat * 256 + lo.toNat)).toNat = hi.toNat * 256 + lo.toNat := by
    have := hi.isLt
    have := lo.isLt
    rw [BitVec.toNat_ofNat]
    omega
  obtain ⟨s1, hfirst, hsecond⟩ := wr_ppuaddr_twice hlatch hi lo
  obtain ⟨s3, hread, hs3⟩ := rd_ppudata { s with ppu := { s.ppu with
    vramAddr := BitVec.ofNat 16 (hi.toNat * 256 + lo.toNat), addrLatch := false } }
  dsimp only at hread hs3
  rw [haddr] at hread hs3
  rw [if_pos hrange] at hread
  obtain ⟨s4, hread', -⟩ := rd_ppudata s3
  refine ⟨s1, _, s3, s4, hfirst, hsecond, hread, ?_⟩
  have hbus (k : Nat) : ppuRd s3.cart s3.ppu k = ppuRd s.cart s.ppu k := by
    rw [hs3 hrange]
    exact ppuRd_congr rfl rfl k
  have hbuffer : s3.ppu.readBuffer = ppuRd s.cart s.ppu (hi.toNat * 256 + lo.toNat) := by
    rw [hs3 hrange]
    exact ppuRd_congr rfl rfl _
  rw [hread', hbus, hbuffer]

end Sys2Proof.Machine

/-!
SUPPORT. Rendering a line in numbers (O48 to O51; R337 to R349): a column of the background, the first sprite at a column, the
pixels of sprite 0, and what the line leaves alone.
-/

namespace Sys2Proof.Machine

/-! ## The background -/

/-- A 2-bit colour from its two planes, in numbers (R339, R341). -/
theorem planePixel_eq_ofNat (lo hi : Byte) (b : Nat) :
    planePixel lo hi b = BitVec.ofNat 2 (2 * (hi.toNat / 2 ^ b % 2) + lo.toNat / 2 ^ b % 2) := by
  rw [← planePixel_toNat, BitVec.ofNat_toNat, BitVec.setWidth_eq]

theorem bitNat_getLsbD (v : Byte) (i : Nat) : bitNat (v.getLsbD i) = v.toNat / 2 ^ i % 2 := by
  obtain hbit | hbit := Nat.mod_two_eq_zero_or_one (v.toNat / 2 ^ i) <;> simp [bitNat, getLsbD_eq_div, hbit]

/-- A background pixel in numbers (R338, R339). -/
theorem bgPixel_eq (c : Cart) (p : Ppu) (x y : Nat) :
    let wx := x + p.scrollX.toNat
    let wy := y + p.scrollY.toNat
    let ntx := (p.ctrl.toNat % 2 + wx / 256) % 2
    let nty := (p.ctrl.toNat / 2 % 2 + wy / 240) % 2
    let base := 0x2000 + 0x400 * (2 * nty + ntx)
    let col := wx % 256 / 8
    let row := wy % 240 / 8
    let tile := ppuRd c p (base + row * 32 + col)
    let ab := ppuRd c p (base + 0x3C0 + row / 4 * 8 + col / 4)
    let pal := ab.toNat / 2 ^ (4 * (row / 2 % 2) + 2 * (col / 2 % 2)) % 4
    let pa := p.ctrl.toNat / 16 % 2 * 0x1000 + tile.toNat * 16 + wy % 240 % 8
    let bit := 7 - wx % 256 % 8
    bgPixel c p x y =
      (BitVec.ofNat 2 (2 * ((ppuRd c p (pa + 8)).toNat / 2 ^ bit % 2) + (ppuRd c p pa).toNat / 2 ^ bit % 2), pal) := by
  have hnt0 : bitNat p.nt0 = p.ctrl.toNat % 2 := (bitNat_getLsbD p.ctrl 0).trans (by rw [Nat.pow_zero, Nat.div_one])
  have hnt1 : bitNat p.nt1 = p.ctrl.toNat / 2 % 2 := bitNat_getLsbD p.ctrl 1
  have hbank : bitNat p.bgBank = p.ctrl.toNat / 16 % 2 := bitNat_getLsbD p.ctrl 4
  simp only [bgPixel, hnt0, hnt1, hbank, planePixel_eq_ofNat, Nat.add_mod_mod]

/-- Where the background is shown, by the bits of PPUMASK (R38, R337). -/
theorem bgShown_iff (p : Ppu) (x : Nat) : bgShown p x ↔ ¬ (p.bgEn = false ∨ (x < 8 ∧ p.bgLeft8 = false)) := by
  rw [bgShown, bgEn_eq, bgLeft8_eq]
  simp only [decide_eq_false_iff_not]
  omega

theorem bgColumn_hidden {p : Ppu} {x : Nat} (h : ¬ bgShown p x) (c : Cart) (y : Nat) :
    bgColumn c p y x = (0, p.palette.read 0) := by
  rw [bgShown_iff, not_not] at h
  rw [bgColumn, if_pos h]

theorem bgColumn_shown {p : Ppu} {x : Nat} (h : bgShown p x) (c : Cart) (y : Nat) : bgColumn c p y x =
    ((bgPixel c p x y).1, if (bgPixel c p x y).1 = 0 then p.palette.read 0
      else p.palette.read ((bgPixel c p x y).2 * 4 + (bgPixel c p x y).1.toNat)) := by
  rw [bgShown_iff] at h
  rw [bgColumn, if_neg h]

/-- With sprites off a column of the picture is the background's (R337). -/
theorem renderLine_get_background {p : Ppu} (h : p.sprEn = false) (c : Cart) {x : Nat} (hx : x < 256) (y : Nat) :
    ((renderLine c p y).row y)[x]? = some (pixelOf (bgColumn c p y x).2) := by
  rw [renderLine_get c p x y hx, h]
  rfl

/-- Settles O48: mask and picture are those of the background's column, which is hidden or the pixel in numbers. -/
theorem backgroundLine : Obligations.BackgroundLine := by
  intro c p x y hx _ wx wy ntx nty base col row tile ab pal pa bit ci t
  have hpixel : bgPixel c p x y = (BitVec.ofNat 2 ci, pal) := bgPixel_eq c p x y
  have hci : (BitVec.ofNat 2 ci).toNat = ci := by
    have hlt : ci < 4 := by omega
    rw [BitVec.toNat_ofNat, Nat.mod_eq_of_lt hlt]
  have hzero : BitVec.ofNat 2 ci = 0 ↔ ci = 0 := by rw [← BitVec.toNat_inj, hci]; rfl
  have hmask : (t.maskRow y)[x]? = some (bgColumn c p y x).1 := renderLine_maskRow_get c p y x hx
  have hrow (hoff : p.mask.toNat / 16 % 2 = 0) : (t.row y)[x]? = some (pixelOf (bgColumn c p y x).2) :=
    renderLine_get_background (by rw [sprEn_eq, hoff]; rfl) c hx y
  refine ⟨fun hshown => ?_, fun hhidden => ?_, fun hoff hshown hopaque => ?_, fun hoff huniversal => ?_⟩
  · rw [hmask, bgColumn_shown hshown, hpixel]
  · rw [hmask, bgColumn_hidden hhidden]
  · rw [hrow hoff, bgColumn_shown hshown, hpixel]
    simp only [if_neg (hzero.not.2 hopaque), hci, pixelOf]
  · rw [hrow hoff]
    by_cases hshown : bgShown p x
    · have hclear : ci = 0 := huniversal.resolve_left (fun hhidden => hhidden hshown)
      rw [bgColumn_shown hshown, hpixel]
      simp only [if_pos (hzero.2 hclear), pixelOf]
    · rw [bgColumn_hidden hshown, pixelOf]

/-! ## The sprites -/

/-- A search of the numbers below `n` ends at the first at which the function answers. -/
theorem findSome?_range_eq_some {α : Type} {f : Nat → Option α} {n i : Nat} {e : α} (hi : i < n) (he : f i = some e)
    (hbefore : ∀ j, j < i → f j = none) : (List.range n).findSome? f = some e := by
  obtain ⟨k, rfl⟩ := Nat.exists_eq_add_of_lt hi
  have hnone : (List.range i).findSome? f = none :=
    List.findSome?_eq_none_iff.2 fun j hj => hbefore j (List.mem_range.1 hj)
  rw [Nat.add_assoc, List.range_add, List.findSome?_append, hnone, List.range_succ_eq_map]
  simp [he]

/-- The bit that enables sprites plays no part in the background. -/
theorem bgColumn_spritesOff (c : Cart) (p : Ppu) (y x : Nat) :
    bgColumn c { p with mask := p.mask &&& 0xEF } y x = bgColumn c p y x := by
  have hen : Ppu.bgEn { p with mask := p.mask &&& 0xEF } = p.bgEn := by simp [Ppu.bgEn]
  have hleft : Ppu.bgLeft8 { p with mask := p.mask &&& 0xEF } = p.bgLeft8 := by simp [Ppu.bgLeft8]
  rw [bgColumn, bgColumn, hen, hleft]
  rfl

theorem sprEn_spritesOff (p : Ppu) : Ppu.sprEn { p with mask := p.mask &&& 0xEF } = false := by simp [Ppu.sprEn]

/-- Settles O49: a column with sprites enabled is the entry of the first sprite that has one, else the background's, which
does not depend on the bit that enables sprites. -/
theorem earlierSpriteWins : Obligations.EarlierSpriteWins := by
  intro c p x y hx _ hon
  have hentry : spritePixel c p y x = spriteEntry c p y x := funext fun i => (spriteEntry_eq c p y x i hx).symm
  have hen : p.sprEn = true := by rw [sprEn_eq, hon]; rfl
  rw [renderLine_get c p x y hx, hen, if_pos rfl, hentry]
  refine ⟨fun i e hi he hbefore => ?_, fun hnone => ?_⟩
  · rw [findSome?_range_eq_some hi he hbefore]
    rfl
  · rw [List.findSome?_eq_none_iff.2 fun j hj => hnone j (List.mem_range.1 hj),
      renderLine_get_background (sprEn_spritesOff p) c hx y, bgColumn_spritesOff]
    rfl

/-! ## Sprite 0 -/

/-- The row of a sprite on a line, in numbers (R340, R341). -/
theorem spriteRow_eq (p : Ppu) (s : Sprite) (y : Nat) : spriteRow p s y =
    if s.y.toNat < 0xEF ∧ s.y.toNat + 1 ≤ y ∧ y < s.y.toNat + 1 + (if p.ctrl.toNat / 32 % 2 = 1 then 16 else 8) then
      some (y - (s.y.toNat + 1)) else none := by
  have hheight : (if p.ctrl.toNat / 32 % 2 = 1 then 16 else 8) = p.spriteHeight := by
    rw [Ppu.spriteHeight, spr16_eq]
    simp only [decide_eq_true_eq]
  rw [hheight, spriteRow]
  split
  · rw [if_neg (by omega)]
  split
  · rw [if_neg (by omega)]
  split
  · rw [if_neg (by omega)]
  · rw [if_pos (by omega)]

/-- A pixel is opaque exactly if one of the two planes has its bit (R339). -/
theorem planePixel_ne_zero_iff (lo hi : Byte) (b : Nat) : planePixel lo hi b ≠ 0 ↔ (lo ||| hi).getLsbD b = true := by
  rw [planePixel, BitVec.getLsbD_or]
  cases lo.getLsbD b <;> cases hi.getLsbD b <;> decide

/-- A column of a sprite's row is opaque, by the bit of the planes that the flip selects (R341). -/
theorem spriteColumn_ne_zero_iff (s : Sprite) (lo hi : Byte) (k : Nat) : spriteColumn s (lo, hi) k ≠ 0 ↔
    (lo ||| hi).getLsbD (if s.attr.toNat / 64 % 2 = 1 then k else 7 - k) = true := by
  have hflip : s.attr.getLsbD 6 = decide (s.attr.toNat / 64 % 2 = 1) := getLsbD_eq_div _ 6
  rw [spriteColumn, hflip, planePixel_ne_zero_iff]
  simp only [decide_eq_true_eq]

theorem spr0OnLine_off_row {p : Ppu} {y : Nat} (h : spriteRow p (p.sprite 0) y = none) (c : Cart) :
    spr0OnLine c p y = false := by
  simp only [spr0OnLine, h, Bool.and_false]

/-- On a row of sprite 0 the detection asks for an opaque column of it on screen (R346). -/
theorem spr0OnLine_on_row {c : Cart} {p : Ppu} {y r : Nat} {lo hi : Byte} (hrow : spriteRow p (p.sprite 0) y = some r)
    (hplanes : spritePattern c p (p.sprite 0) r = (lo, hi)) : spr0OnLine c p y = true ↔
      p.mask.toNat / 16 % 2 = 1 ∧ ∃ k, k < 8 ∧ (p.sprite 0).x.toNat + k ≤ 255 ∧
        (lo ||| hi).getLsbD (if (p.sprite 0).attr.toNat / 64 % 2 = 1 then k else 7 - k) = true := by
  simp only [spr0OnLine, hrow, hplanes, sprEn_eq, Bool.and_eq_true, decide_eq_true_eq, List.any_eq_true, List.mem_range,
    spriteColumn_ne_zero_iff]

/-- Settles O50: the detection adds to the hit exactly where sprite 0 has a row on the line with an opaque column. -/
theorem spriteZeroHit : Obligations.SpriteZeroHit := by
  intro c p y sy tile attr sx tall h r fr pa
  have hhit : (renderLine c p y).spr0hit = true ↔ p.spr0hit = true ∨ spr0OnLine c p y = true := Bool.or_eq_true_iff
  have hrow : spriteRow p (p.sprite 0) y = if sy < 0xEF ∧ sy + 1 ≤ y ∧ y < sy + 1 + h then some r else none :=
    spriteRow_eq p _ y
  have hplanes : spritePattern c p (p.sprite 0) r = (ppuRd c p pa, ppuRd c p (pa + 8)) := spritePattern_eq c p _ r
  rw [hhit]
  by_cases hon : sy < 0xEF ∧ sy + 1 ≤ y ∧ y < sy + 1 + h
  · rw [spr0OnLine_on_row (hrow.trans (if_pos hon)) hplanes]
    obtain ⟨hskip, htop, hbottom⟩ := hon
    simp only [hskip, htop, hbottom, true_and]
    exact Iff.rfl
  · rw [spr0OnLine_off_row (hrow.trans (if_neg hon))]
    refine or_congr_right (iff_of_false Bool.false_ne_true ?_)
    rintro ⟨-, hskip, htop, hbottom, -⟩
    exact hon ⟨hskip, htop, hbottom⟩

/-! ## What a line leaves alone -/

/-- Settles O51: a line is written in its own row of the two pictures, whole. -/
theorem renderingFrame : Obligations.RenderingFrame := by
  refine fun c p y => ⟨rfl, fun z hz => renderLine_other c p y z hz, ?_, ?_⟩
  · rw [renderLine_row, spriteLine_length, List.length_map, bgLine_length]
  · rw [renderLine_maskRow, List.length_map, bgLine_length]

end Sys2Proof.Machine

/-!
SUPPORT. The schedule of scanlines (O52 to O54; R330 to R336): what entering a scanline does by its number, a tick as a number
of scanlines entered and dots left, and VBlank from the start of a frame.
-/

namespace Sys2Proof.Machine

/-! ## A scanline by its number -/

section
variable {s : State} {y : Nat}

theorem enterScanline_visible (h : y ≤ 239) : enterScanline s y = { s with ppu := renderLine s.cart s.ppu y } := by
  rw [enterScanline, if_pos h]

theorem enterScanline_vblankStart : enterScanline s 241 = { s with
    ppu := { s.ppu with vblank := true }, nmiPending := s.nmiPending || s.ppu.nmiEn } := rfl

theorem enterScanline_preRender :
    enterScanline s 261 = { s with ppu := { s.ppu with vblank := false, spr0hit := false } } := rfl

theorem enterScanline_idle (h : y = 240 ∨ (242 ≤ y ∧ y ≤ 260)) : enterScanline s y = s := by
  rw [enterScanline, if_neg (by omega), if_neg (by omega), if_neg (by omega)]

end

/-- Settles O52: the four kinds of scanline; the request of an NMI in numbers. -/
theorem scanlineSchedule : Obligations.ScanlineSchedule := by
  refine fun s y => ⟨enterScanline_visible, ?vblank, ?preRender, enterScanline_idle⟩
  case vblank =>
    rintro rfl
    rw [enterScanline_vblankStart, Ppu.nmiEn_eq]
    by_cases h : 128 ≤ s.ppu.ctrl.toNat <;> simp [h]
  case preRender => rintro rfl; exact enterScanline_preRender

/-! ## A tick -/

/-- A tick enters a scanline for every 341 dots from the start of the line, and counts the rest. -/
theorem ppuTick_eq {s : State} (h : s.fault = none) (n : Nat) : ppuTick n s =
    { enterScanlines ((s.ppu.dot + n) / 341) s with
      ppu := { (enterScanlines ((s.ppu.dot + n) / 341) s).ppu with dot := (s.ppu.dot + n) % 341 } } := by
  rw [ppuTick_run n s h, enterScanlines_withDot]

theorem ppuTick_dot {s : State} (h : s.fault = none) (n : Nat) : (ppuTick n s).ppu.dot = (s.ppu.dot + n) % 341 := by
  rw [ppuTick_eq h]

theorem ppuTick_scanline {s : State} (h : s.fault = none) (hline : s.ppu.scanline < 262) (n : Nat) :
    (ppuTick n s).ppu.scanline = (s.ppu.scanline + (s.ppu.dot + n) / 341) % 262 := by
  rw [ppuTick_eq h]
  exact enterScanlines_scanline _ s hline

theorem ppuTick_keeps_fault {s : State} (h : s.fault = none) (n : Nat) : (ppuTick n s).fault = none := by
  rw [ppuTick_eq h]
  exact (enterScanlines_fault _ s).trans h

/-- Dots within a line only count (R330). -/
theorem ppuTick_within_line {s : State} (h : s.fault = none) {n : Nat} (hn : s.ppu.dot + n < 341) :
    ppuTick n s = { s with ppu := { s.ppu with dot := s.ppu.dot + n } } := by
  rw [ppuTick_run n s h, Nat.div_eq_of_lt hn, Nat.mod_eq_of_lt hn]
  rfl

/-- A tick in two parts is one tick: the dots carried over from the first complete lines of the second. -/
theorem ppuTick_add {s : State} (h : s.fault = none) (m n : Nat) : ppuTick n (ppuTick m s) = ppuTick (m + n) s := by
  have hlines : (s.ppu.dot + (m + n)) / 341 = (s.ppu.dot + m) / 341 + ((s.ppu.dot + m) % 341 + n) / 341 := by omega
  have hdots : ((s.ppu.dot + m) % 341 + n) % 341 = (s.ppu.dot + (m + n)) % 341 := by omega
  rw [ppuTick_eq (ppuTick_keeps_fault h m), ppuTick_dot h, hdots, ppuTick_eq h (m + n), hlines, enterScanlines_add,
    ppuTick_eq h m, enterScanlines_withDot]

/-- Settles O53: both counters in numbers, and the three ways of reading a tick. -/
theorem ppuTickCountsDots : Obligations.PpuTickCountsDots := by
  intro s m n h hline hdot
  refine ⟨?clock, ?scanline, ?dot, ppuTick_add h m n, ppuTick_within_line h, fun hlast => ?enters⟩
  case clock =>
    rw [Ppu.clock, Ppu.clock, ppuTick_scanline h hline, ppuTick_dot h]
    omega
  case scanline => rw [ppuTick_scanline h hline]; exact Nat.mod_lt _ (by decide)
  case dot => rw [ppuTick_dot h]; exact Nat.mod_lt _ (by decide)
  case enters =>
    rw [ppuTick_run 1 s h, hlast]
    rfl

/-! ## VBlank from the start of a frame -/

/-- After `k` scanlines from the start of a frame with `vblank` clear, short of the second VBlank: VBlank is on from scanline
241 to 260, and its NMI has been requested from scanline 241 on (R334, R335). -/
theorem enterScanlines_vblank {s : State} (hline : s.ppu.scanline = 0) (hvblank : s.ppu.vblank = false) (k : Nat)
    (hk : k < 503) : (enterScanlines k s).ppu.vblank = decide (241 ≤ k ∧ k < 261) ∧
      (enterScanlines k s).nmiPending = (s.nmiPending || (decide (241 ≤ k) && s.ppu.nmiEn)) := by
  induction k with
  | zero => exact ⟨hvblank, (Bool.or_false _).symm⟩
  | succ k ih =>
    obtain ⟨ihvblank, ihnmi⟩ := ih (by omega)
    have hlast : enterScanlines (k + 1) s = nextScanline (enterScanlines k s) := enterScanlines_add k 1 s
    have hnumber : ((enterScanlines k s).ppu.scanline + 1) % 262 = (k + 1) % 262 := by
      rw [enterScanlines_scanline k s (by omega), hline]
      omega
    have hen : (enterScanlines k s).ppu.nmiEn = s.ppu.nmiEn := by rw [Ppu.nmiEn, enterScanlines_ctrl, Ppu.nmiEn]
    obtain ⟨hv, hn⟩ := nextScanline_vblank (enterScanlines k s)
    rw [hlast, hv, hn, hnumber, hen, ihvblank, ihnmi]
    constructor
    · split
      · rw [eq_comm, decide_eq_true_eq]; omega
      split
      · rw [eq_comm, decide_eq_false_iff_not]; omega
      · rw [decide_eq_decide]; omega
    · rw [Bool.or_assoc, ← Bool.and_or_distrib_right, ← Bool.decide_or]
      have hfrom : (241 ≤ k ∨ (k + 1) % 262 = 241) ↔ 241 ≤ k + 1 := by omega
      simp only [hfrom]

/-- Settles O54: `n` dots from the start of a frame enter `n / 341` scanlines. -/
theorem vblankSchedule : Obligations.VblankSchedule := by
  intro s n h hline hdot hvblank hn
  obtain ⟨hv, hnmi⟩ := enterScanlines_vblank hline hvblank (n / 341) (by omega)
  have hstart : 241 ≤ n / 341 ↔ 82181 ≤ n := by omega
  have hend : n / 341 < 261 ↔ n < 89001 := by omega
  rw [ppuTick_eq h, hdot, Nat.zero_add]
  dsimp only
  simp only [hv, hnmi, Ppu.nmiEn_eq, hstart, hend, decide_eq_true_eq, Bool.or_eq_true, Bool.and_eq_true, true_and]

end Sys2Proof.Machine

/-!
SUPPORT. The OAM DMA by its source page (O19; R361 to R363) and the joypads as sequences of reads (O20; R365 to R369).
-/

namespace Sys2Proof.Machine

/-! ## The byte of a DMA by its page -/

section
variable {v : Byte} {i : Nat}

theorem dmaByte_ram (h : v.toNat < 0x20) (s : State) (i : Nat) :
    dmaByte v s i = s.ram.read ((v.toNat * 256 + i) % 0x800) := by
  rw [dmaByte, if_pos h]

/-- Page 0x40 holds the two joypads, and is unmapped elsewhere (R363). -/
theorem dmaByte_joypads (s : State) (i : Nat) : dmaByte 0x40 s i =
    if i = 0x16 then s.joy1.read.1 else if i = 0x17 then s.joy2.read.1 else s.config.unmappedRead := rfl

theorem dmaByte_unmapped (hlow : 0x41 ≤ v.toNat) (hhigh : v.toNat < 0x80) (s : State) (i : Nat) :
    dmaByte v s i = s.config.unmappedRead := by
  have hjoypads : v ≠ 0x40 := by rintro rfl; revert hlow; decide
  rw [dmaByte, if_neg (by omega), if_neg hjoypads, if_pos hhigh]

/-- A PRG page whose first byte does not trap has no byte that does: a page lies in one window of the mapper (R363). -/
theorem dmaByte_prg {s : State} (hpage : 0x80 ≤ v.toNat) (h : readTrap (wordOf 0 v) s = none) (hi : i < 256) :
    s.cart.readPrg (v.toNat * 256 + i) = .ok (dmaByte v s i) := by
  have hjoypads : v ≠ 0x40 := by rintro rfl; revert hpage; decide
  rw [dmaByte, if_neg (by omega), if_neg hjoypads, if_neg (by omega)]
  cases hread : s.cart.readPrg (v.toNat * 256 + i) with
  | ok b => rfl
  | error k =>
    obtain ⟨hmapper, hlow, hbank, -⟩ := (Cart.readPrg_error _ _ _).1 hread
    rw [readTrap_page, if_neg (by omega), if_pos ⟨hmapper, hpage, by omega, hbank⟩] at h
    cases h

end

/-- A DMA whose page does not trap, whole: OAM from `oam_addr` on holds the bytes of the page (R361). -/
theorem oamDma_copies {v : Byte} {s : State} (h : readTrap (wordOf 0 v) s = none) : ∃ oam,
    wr 0x4014 v s = .ok () ((dmaState v s 256 oam).bill s.config.dmaCycles.toNat) ∧
    ∀ i, i < 256 → Memory.read oam ((s.ppu.oamAddr.toNat + i) % 256) = dmaByte v s i := by
  refine ⟨_, (oamDma_def v s).2 h, fun i hi => ?_⟩
  rw [dmaOam_read v s 256 0 _ i (by omega), if_pos ⟨Nat.zero_le i, by omega⟩]

/-- Settles O19: the engine's final state, and OAM byte by byte according to the page. -/
theorem oamDmaCopiesAPage : Obligations.OamDmaCopiesAPage := by
  intro v s h
  obtain ⟨oam, hdma, hbytes⟩ := oamDma_copies h
  refine ⟨_, hdma, rfl, rfl, fun hv => ⟨if_neg fun h => hv h.1, if_neg fun h => hv h.1⟩,
    fun hv => ⟨if_pos ⟨hv, by decide⟩, if_pos ⟨hv, by decide⟩⟩, fun i hi => ?bytes⟩
  case bytes =>
    intro b
    have hb : b = dmaByte v s i := hbytes i hi
    rw [hb]
    exact ⟨fun hram => dmaByte_ram hram s i, fun hv => by rw [hv, dmaByte_joypads],
      fun hlow hhigh => dmaByte_unmapped hlow hhigh s i, fun hprg => dmaByte_prg hprg h hi⟩

/-! ## A joypad read again and again -/

/-- The bytes that `n` reads of a joypad return. -/
def Joypad.reads : Nat → Joypad → List Byte
  | 0, _ => []
  | n + 1, j => j.read.1 :: Joypad.reads n j.read.2

/-- Reads of 0x4016 are reads of joypad 1 (R72). -/
theorem readsOf_joy1 (n : Nat) : ∀ s, readsOf 0x4016 n s = s.joy1.reads n := by
  induction n with
  | zero => exact fun _ => rfl
  | succ n ih => exact fun s => congrArg (s.joy1.read.1 :: ·) (ih { s with joy1 := s.joy1.read.2 })

/-- Reads of 0x4017 are reads of joypad 2 (R72). -/
theorem readsOf_joy2 (n : Nat) : ∀ s, readsOf 0x4017 n s = s.joy2.reads n := by
  induction n with
  | zero => exact fun _ => rfl
  | succ n ih => exact fun s => congrArg (s.joy2.read.1 :: ·) (ih { s with joy2 := s.joy2.read.2 })

/-- A joypad that a read leaves as it is answers the same byte for ever. -/
theorem Joypad.reads_of_fixed {j : Joypad} {b : Byte} (h : j.read = (b, j)) (n : Nat) :
    j.reads n = List.replicate n b := by
  induction n with
  | zero => rfl
  | succ n ih => rw [Joypad.reads, h, ih, List.replicate_succ]

/-- A button as the byte that a read returns for it (R367). -/
theorem buttonByte (b : Bool) : (BitVec.ofBool b).setWidth 8 = if b then (0x01 : Byte) else 0x00 := by
  cases b <;> rfl

/-- While the strobe is 1 every read returns button A (R367). -/
theorem Joypad.reads_strobed {j : Joypad} (h : j.strobe = true) (n : Nat) :
    j.reads n = List.replicate n (if j.buttons.getLsbD 0 then 0x01 else 0x00) := by
  refine Joypad.reads_of_fixed ?_ n
  rw [Joypad.read, if_pos h, buttonByte]

/-- Behind the eighth button every read returns 1 (R367). -/
theorem Joypad.reads_exhausted {j : Joypad} (h : j.strobe = false) (hindex : 8 ≤ j.index.toNat) (n : Nat) :
    j.reads n = List.replicate n 0x01 := by
  refine Joypad.reads_of_fixed ?_ n
  rw [Joypad.read, if_neg (by simp [h]), if_pos hindex]

/-- With `m` buttons to go, the reads return these in order, and then 1 (R367, R369). -/
theorem Joypad.reads_shifting (m n : Nat) : ∀ {j : Joypad}, j.strobe = false → j.index.toNat + m = 8 →
    j.reads (m + n) = (List.range' j.index.toNat m).map (fun k => if j.buttons.getLsbD k then 0x01 else 0x00) ++
      List.replicate n 0x01 := by
  induction m with
  | zero =>
    intro j h hindex
    rw [Nat.zero_add, Joypad.reads_exhausted h (by omega)]
    rfl
  | succ m ih =>
    intro j h hindex
    have hread : j.read = (if j.buttons.getLsbD j.index.toNat then 0x01 else 0x00, { j with index := j.index + 1 }) := by
      rw [Joypad.read, if_neg (by simp [h]), if_neg (by omega), buttonByte]
    have hnext : (j.index + 1).toNat = j.index.toNat + 1 := by
      rw [BitVec.toNat_add, Nat.mod_eq_of_lt] <;> simp; omega
    have hrest := ih (j := { j with index := j.index + 1 }) h (by dsimp only; omega)
    dsimp only at hrest
    rw [Nat.add_right_comm, Joypad.reads, hread, hrest, hnext]
    rfl

/-- What both writes of the strobe protocol leave (R365). -/
theorem Joypad.write_strobe {one zero : Byte} (hone : one.getLsbD 0 = true) (hzero : zero.getLsbD 0 = false) (j : Joypad) :
    j.write one = { j with strobe := true, index := 0 } ∧
    (j.write one).write zero = { j with strobe := false, index := 0 } := by
  simp only [Joypad.write, hone, hzero, if_true, Bool.false_eq_true, if_false, and_self]

/-- What any number of reads return during and after the strobe (R365, R367, R369). -/
theorem Joypad.reads_strobe_protocol {one zero : Byte} (hone : one.getLsbD 0 = true) (hzero : zero.getLsbD 0 = false)
    (j : Joypad) (n : Nat) :
    (j.write one).reads n = List.replicate n (if j.buttons.getLsbD 0 then 0x01 else 0x00) ∧
    ((j.write one).write zero).reads (8 + n) = buttonBytes j.buttons ++ List.replicate n 0x01 := by
  obtain ⟨hfirst, hsecond⟩ := Joypad.write_strobe hone hzero j
  rw [hsecond, hfirst]
  refine ⟨Joypad.reads_strobed rfl n, ?_⟩
  rw [Joypad.reads_shifting 8 n rfl rfl]
  rfl

/-- Settles O20: either port is its joypad. -/
theorem joypadReportsItsButtons : Obligations.JoypadReportsItsButtons := by
  intro one zero s n hone hzero
  refine ⟨⟨_, _, rfl, rfl, ?_⟩, ⟨_, _, rfl, rfl, ?_⟩⟩
  · rw [readsOf_joy1, readsOf_joy1]
    exact Joypad.reads_strobe_protocol hone hzero s.joy1 n
  · rw [readsOf_joy2, readsOf_joy2]
    exact Joypad.reads_strobe_protocol hone hzero s.joy2 n

end Sys2Proof.Machine

/-!
SUPPORT. A dispatch (O40, O43; R381, R386 to R391): the interrupt that is taken as the state it leaves, and the roll-back of
every trap to the boundary.
-/

namespace Sys2Proof.Machine

/-! ## An interrupt that is taken -/

theorem dispatch_interrupt {s : State} {v : Word} (hf : s.fault = none) (hv : pendingVector s = some v) :
    dispatch s = finish s (interruptEntry v s.pc false (acknowledge s)) := by
  unfold dispatch
  simp only [hf, hv]

/-- The entry through a vector of the last bank: it consumes the request, and seven cycles pass (R386, R388). -/
theorem dispatch_entry {s : State} {v : Word} {a : Nat} (hcart : s.cart.wf = true) (hf : s.fault = none)
    (hv : pendingVector s = some v) (ha : v.toNat = a) (hlow : 0xC000 ≤ a) (hhigh : a < 0xFFFF) : dispatch s = .next { s with
      ram := framePushed s s.pc (pImage s.p 0)
      sp := s.sp - 3
      p := { s.p with i := true }
      pc := vectorAt s.cart a
      nmiPending := false
      remainingCycles := 7 } := by
  subst ha
  have himage : pImage s.p 0 = s.p.pbyte false := (pbyte_eq_pImage s.p false).symm
  rw [dispatch_interrupt hf hv, interruptEntry_def v s.pc false (acknowledge s) hcart hlow hhigh, finish_ok, himage]
  rfl

theorem nmiVector_toNat : nmiVector.toNat = 0xFFFA := by decide

theorem irqVector_toNat : irqVector.toNat = 0xFFFE := by decide

theorem pendingVector_nmi {s : State} (h : s.nmiPending = true) : pendingVector s = some nmiVector := by
  simp only [pendingVector, h, if_true]

theorem pendingVector_irq {s : State} (hnmi : s.nmiPending = false) (hirq : s.irqLine = true) (hi : s.p.i = false) :
    pendingVector s = some irqVector := by
  simp [pendingVector, hnmi, hirq, hi]

/-- Settles O40: the vector that is pending decides, and with none pending the state is undisturbed. -/
theorem interruptsAreTakenInOrder : Obligations.InterruptsAreTakenInOrder := by
  intro s hcart hf
  refine ⟨fun hnmi => ?nmi, fun hnmi hirq hi => ?irq, fun hnmi hmasked => ⟨fun i t hfetch => ?runs, fun k hfetch => ?traps⟩⟩
  case nmi => exact dispatch_entry hcart hf (pendingVector_nmi hnmi) nmiVector_toNat (by decide) (by decide)
  case irq =>
    rw [dispatch_entry hcart hf (pendingVector_irq hnmi hirq hi) irqVector_toNat (by decide) (by decide)]
    simp only [hnmi]
  case runs =>
    rw [dispatch_undisturbed ⟨hf, hnmi, hmasked⟩, hfetch]
    exact settle_runsFrom s t i
  case traps =>
    rw [dispatch_undisturbed ⟨hf, hnmi, hmasked⟩, hfetch]
    rfl

/-! ## The roll-back of a trap -/

/-- The outcome is a next state, and if that is a fault state it is the boundary `s` with `fault` set (R381). -/
def RollsBack (s : State) (r : Result) : Prop :=
  ∃ t, r = .next t ∧ ∀ k, t.fault = some k → t = { s with fault := some k }

theorem RollsBack.raiseTrap (s : State) (k : TrapKind) : RollsBack s (raiseTrap s k) :=
  ⟨_, rfl, fun _ hk => by cases hk; rfl⟩

/-- An operation that leaves `fault` clear traps only by being finished with its trap. -/
theorem RollsBack.finish {s : State} {r : Res Unit} (h : r.Ensures fun _ t => t.fault = none) :
    RollsBack s (finish s r) := by
  cases r with
  | ok u t => exact ⟨t, rfl, fun k hk => by rw [h u t rfl] at hk; cases hk⟩
  | trap k => exact .raiseTrap s k

theorem RollsBack.settle (s t : State) (i : Instr) : RollsBack s (settle s (exec i t)) := by
  obtain ⟨v, hv⟩ := exec_next i t
  obtain ⟨u, hu, hcases⟩ := settle_next s v
  refine ⟨u, by rw [hv, hu], fun k hk => ?_⟩
  obtain ⟨hnone, rfl⟩ | ⟨j, -, rfl⟩ := hcases
  · rw [hnone] at hk; cases hk
  · cases hk; rfl

/-- An interrupt entry that completes leaves `fault` as it was. -/
theorem interruptEntry_fault (vector ret : Word) (b : Bool) (s : State) :
    (interruptEntry vector ret b s).Ensures fun _ t => t.fault = s.fault :=
  .bind_ok (pushWord_def ret s) (.bind_ok (push_def _ _) ((rd16_readFrame vector _).bind fun _ _ h => .ok (by rw [h]; rfl)))

/-- A dispatch outside the fault state rolls back what traps (R381, R391). -/
theorem dispatch_rollsBack {s : State} (hf : s.fault = none) : RollsBack s (dispatch s) := by
  obtain ⟨k, hk, -⟩ | ⟨-, v, -, hd⟩ | ⟨-, -, k, -, hd⟩ | ⟨-, -, i, t, -, hd⟩ := dispatch_cases s
  · rw [hf] at hk; cases hk
  · rw [hd]
    exact .finish fun u t h => (interruptEntry_fault _ _ _ _ u t h).trans hf
  · rw [hd]; exact .raiseTrap s k
  · rw [hd]; exact .settle s t i

/-- Settles O43: in the fault state a dispatch does nothing, and outside it rolls back. -/
theorem trapsRollBack : Obligations.TrapsRollBack := by
  intro s
  cases hf : s.fault with
  | some k => exact ⟨s, dispatch_of_fault hf, fun _ h => by cases h⟩
  | none =>
    obtain ⟨t, hd, hback⟩ := dispatch_rollsBack hf
    exact ⟨t, hd, fun k _ => hback k⟩

end Sys2Proof.Machine

/-!
SUPPORT. The fetch byte by byte and the steps of the agents (O42, O55; R91, R127, R130, R430, R431, R436).
-/

namespace Sys2Proof

/-! ## Whole instructions -/

theorem lengthOf_cases (op : Byte) : lengthOf op = 1 ∨ lengthOf op = 2 ∨ lengthOf op = 3 := by
  unfold lengthOf
  cases (rowOf op).mode <;> decide

/-- Bytes that end before the instruction does are none (R134). -/
theorem decode_truncated {op : Byte} {bs : List Byte} (h : bs.length + 1 < lengthOf op) :
    decode (op :: bs) = .error (.truncated (lengthOf op) (1 + bs.length)) := by
  obtain hlen | hlen | hlen := lengthOf_cases op <;> rw [hlen] at h
  · omega
  · match bs with
    | [] => simp only [decode, hlen]
    | _ :: _ => simp only [List.length_cons] at h; omega
  · match bs with
    | [] | [_] => simp only [decode, hlen]
    | _ :: _ :: _ => simp only [List.length_cons] at h; omega

/-- Bytes that do not reach past an instruction are one exactly if they are as many as the opcode says (R130). -/
theorem decode_whole_iff {op : Byte} {bs : List Byte} (h : bs.length + 1 ≤ lengthOf op) (i : Instr) :
    decode (op :: bs) = .ok (i, []) ↔ bs.length + 1 = lengthOf op ∧ assemble op (bs.getD 0 0) (bs.getD 1 0) = i := by
  obtain hwhole | hshort := Nat.eq_or_lt_of_le h
  · have hdecode := decode_append hwhole []
    rw [List.append_nil] at hdecode
    simp [hdecode, hwhole]
  · simp [decode_truncated hshort, Nat.ne_of_lt hshort]

end Sys2Proof

namespace Sys2Proof.Machine

/-! ## The fetch -/

section
variable {s t : State} {op : Byte}

theorem fetch_of_rd_trap {k : TrapKind} (h : rd s.pc s = .trap k) : fetch s = .trap k := by
  rw [fetch, h, Res.bind_trap]

theorem fetch_one (h : rd s.pc s = .ok op t) (hlen : lengthOf op = 1) : fetch s = .ok (assemble op 0 0) t := by
  simp only [fetch, h, Res.bind_ok, hlen]

theorem fetch_two (h : rd s.pc s = .ok op t) (hlen : lengthOf op = 2) :
    fetch s = (rd (s.pc + 1) t).bind fun l u => .ok (assemble op l 0) u := by
  simp only [fetch, h, Res.bind_ok, hlen]

theorem fetch_three (h : rd s.pc s = .ok op t) (hlen : lengthOf op = 3) : fetch s =
    (rd (s.pc + 1) t).bind fun l u => (rd (s.pc + 2) u).bind fun h w => .ok (assemble op l h) w := by
  simp only [fetch, h, Res.bind_ok, hlen]

end

/-- The fetch reads byte by byte until the bytes read are a whole instruction (R91, R127, R130). -/
theorem fetchRule (s : State) : FetchRule s := by
  refine ⟨fun k => fetch_of_rd_trap, fun op t hop => ?_⟩
  have hlength := lengthOf_cases op
  have whole1 (i : Instr) : decode [op] = .ok (i, []) ↔ 1 = lengthOf op ∧ assemble op 0 0 = i :=
    decode_whole_iff (bs := []) (by simp only [List.length_nil]; omega) i
  obtain hlen | hlen := hlength
  · refine ⟨fun i hi => ?_, fun hnone => absurd ((whole1 _).2 ⟨hlen.symm, rfl⟩) (hnone _)⟩
    obtain ⟨-, rfl⟩ := (whole1 i).1 hi
    exact fetch_one hop hlen
  have whole2 (l : Byte) (i : Instr) : decode [op, l] = .ok (i, []) ↔ 2 = lengthOf op ∧ assemble op l 0 = i :=
    decode_whole_iff (bs := [l]) (by simp only [List.length_cons, List.length_nil]; omega) i
  refine ⟨fun i hi => absurd ((whole1 i).1 hi).1 (by omega), fun _ => ?_⟩
  obtain hlen | hlen := hlen
  · rw [fetch_two hop hlen]
    refine ⟨fun k hk => by rw [hk, Res.bind_trap], fun l u hl => ⟨fun i hi => ?_, fun hnone =>
      absurd ((whole2 l _).2 ⟨hlen.symm, rfl⟩) (hnone _)⟩⟩
    obtain ⟨-, rfl⟩ := (whole2 l i).1 hi
    rw [hl, Res.bind_ok]
  · rw [fetch_three hop hlen]
    refine ⟨fun k hk => by rw [hk, Res.bind_trap], fun l u hl => ?_⟩
    rw [hl, Res.bind_ok]
    refine ⟨fun i hi => absurd ((whole2 l i).1 hi).1 (by omega), fun _ => ⟨fun k hk => by rw [hk, Res.bind_trap],
      fun h w hw => ⟨assemble op l h, ?_, by rw [hw, Res.bind_ok]⟩⟩⟩
    exact (decode_whole_iff (bs := [l, h]) (Nat.le_of_eq hlen.symm) _).2 ⟨hlen.symm, rfl⟩

/-! ## A dispatch of the bytes at PC -/

/-- Where code is read from depends on RAM and the cartridge alone (R127). -/
theorem CodeAt.congr {s t : State} (hram : t.ram = s.ram) (hcart : t.cart = s.cart) {bs : List Byte} :
    ∀ {a : Word}, CodeAt s a bs → CodeAt t a bs := by
  have hbyte (a : Word) : codeByte t a = codeByte s a := by rw [codeByte, codeByte, hram, hcart]
  induction bs with
  | nil => exact fun _ => trivial
  | cons b bs ih => exact fun ⟨hfirst, hrest⟩ => ⟨(hbyte _).trans hfirst, ih hrest⟩

/-- An undisturbed dispatch runs the instruction that the bytes at PC decode to (R431). -/
theorem dispatch_code {s : State} {i : Instr} {bs : List Byte} (hdecode : decode bs = .ok (i, []))
    (hcode : CodeAt s s.pc bs) (h : Undisturbed s) :
    ∃ u, dispatch s = .next u ∧ RunsFrom s i { s with remainingCycles := 0 } u := by
  have hfetch : fetch { s with remainingCycles := 0 } = .ok i { s with remainingCycles := 0 } :=
    fetch_code hdecode hcode rfl rfl rfl
  rw [dispatch_undisturbed h, hfetch]
  exact settle_runsFrom s _ i

/-! ## The turns of the agents -/

section
variable {s : State} {n budget : Nat}

theorem tickTurn_dispatch (hf : s.fault = none) (h : s.remainingCycles ≤ budget) : tickTurn n budget s =
    dispatch (sampleIrq { s with turn := .inTick n (budget - s.remainingCycles).toNat }) := by
  simp only [tickTurn, hf, if_pos h]

theorem tickTurn_end (hf : s.fault = none) (h : budget < s.remainingCycles) : tickTurn n budget s =
    .next (ppuTick (3 * n) { s with turn := .between, remainingCycles := s.remainingCycles - budget }) := by
  simp only [tickTurn, hf, if_neg (Int.not_le.2 h)]

/-- The state in which a free run dispatches: the rest of the wait has passed, with the PPU's dots of it (log 3). -/
def freeRunBoundary (s : State) : State :=
  sampleIrq { ppuTick (3 * (s.remainingCycles - 1).toNat) s with remainingCycles := 1 }

theorem freeRun_eq {t : State} (hrom : s.rom = .ready) (hf : s.fault = none)
    (h : dispatch (freeRunBoundary s) = .next t) : freeRun s = .next (ppuTick 3 t) := by
  rw [freeRunBoundary] at h
  simp only [freeRun, hrom, hf, h]

end

/-- Settles O42: the fetch, and a step of either agent as the dispatch at its boundary. -/
theorem stepRunsTheDecodedInstruction : Obligations.StepRunsTheDecodedInstruction := by
  intro s
  refine ⟨fetchRule s, fun i bs hdecode hcode => ⟨dispatch_code hdecode hcode, fun n b hturn hwait => ?tick,
    fun hturn hmoves hrom hline => ?free⟩⟩
  case tick =>
    intro s' h
    have hf : s.fault = none := h.1
    rw [step_inTick hturn, tickTurn_dispatch hf hwait]
    exact dispatch_code hdecode (CodeAt.congr (s := s) (t := s') rfl rfl hcode) h
  case free =>
    intro s' h
    have hf : s.fault = none := h.1
    have hboundary : freeRunBoundary s = s' := by
      rw [freeRunBoundary, ppuTick_within_line hf hline]
      rfl
    obtain ⟨u, hd, hruns⟩ := dispatch_code hdecode (CodeAt.congr (s := s) (t := s') rfl rfl hcode) h
    rw [← hboundary] at hd
    exact ⟨u, by rw [step_between_nil hturn hmoves, freeRun_eq hrom hf hd], hruns⟩

theorem nextScanline_irq (s : State) :
    (nextScanline s).irqLine = s.irqLine ∧ (nextScanline s).irqLevels = s.irqLevels := by
  rw [nextScanline_frame]
  exact ⟨rfl, rfl⟩

theorem enterScanlines_irq (n : Nat) : ∀ s : State,
    (enterScanlines n s).irqLine = s.irqLine ∧ (enterScanlines n s).irqLevels = s.irqLevels := by
  induction n with
  | zero => exact fun _ => ⟨rfl, rfl⟩
  | succ n ih =>
    intro s
    obtain ⟨hline, hlevels⟩ := nextScanline_irq s
    obtain ⟨ihline, ihlevels⟩ := ih (nextScanline s)
    exact ⟨ihline.trans hline, ihlevels.trans hlevels⟩

/-- A tick of the PPU leaves the interrupt line and its coming levels alone. -/
theorem ppuTick_irq (n : Nat) (s : State) : (ppuTick n s).irqLine = s.irqLine ∧ (ppuTick n s).irqLevels = s.irqLevels := by
  cases hf : s.fault with
  | some k => rw [ppuTick_fault n s k hf]; exact ⟨rfl, rfl⟩
  | none => rw [ppuTick_eq hf]; exact enterScanlines_irq _ s

/-- Settles O55: one clause for each turn of the tick, and the free run by the dispatch at its boundary. -/
theorem tickRunsTheCpuThenThePpu : Obligations.TickRunsTheCpuThenThePpu := by
  intro s n b ms
  refine ⟨fun hturn hmoves hrom => ?opens, fun hturn hf hwait => ?dispatches, fun hturn hf hwait => ?ends,
    fun k hturn hf => ?faulted, fun hturn hmoves hrom hf => ?free⟩
  case opens =>
    rw [step_between_cons hturn hmoves]
    simp only [hostMove, hrom]
  case dispatches =>
    rw [step_inTick hturn, tickTurn_dispatch hf hwait]
    rfl
  case ends => rw [step_inTick hturn, tickTurn_end hf hwait]
  case faulted => rw [step_inTick hturn, tickTurn_of_fault n b hf]
  case free =>
    obtain ⟨t, hd, -⟩ := trapsRollBack (freeRunBoundary s)
    obtain ⟨hline, hlevels⟩ := ppuTick_irq (3 * (s.remainingCycles - 1).toNat) s
    refine ⟨t, ?_, by rw [step_between_nil hturn hmoves, freeRun_eq hrom hf hd]⟩
    rw [← hline, ← hlevels]
    exact hd

end Sys2Proof.Machine

/-!
SUPPORT. The host between ticks (O56, O60; R420 to R422, R440): a reset as the state it leaves, and each other move.
-/

namespace Sys2Proof.Machine

/-! ## The reset -/

/-- The mapper's reset leaves bank 0 selected; on NROM it is selected already (R36, R113, R116). -/
theorem Cart.reset_eq {c : Cart} (h : c.wf = true) : c.reset = { c with bankSelect := 0 } := by
  rw [Cart.reset_eq_writePrg]
  cases hm : c.mapper with
  | uxrom => rw [Cart.writePrg_uxrom hm, ← hm]; rfl
  | nrom =>
    simp only [Cart.wf, hm, Bool.and_eq_true, decide_eq_true_eq] at h
    obtain ⟨⟨⟨⟨⟨-, -, hbank⟩, -⟩, -⟩, -⟩, -⟩ := h
    rw [Cart.writePrg_nrom hm, ← hm, ← hbank]

theorem resetVector_toNat : resetVector.toNat = 0xFFFC := by decide

/-- A reset reads its vector last, from the last bank, and so without a trap (R79, R421). -/
theorem reset_eq {s : State} (hcart : s.cart.wf = true) : reset s = .next { s with
    fault := none
    ram := []
    cart := { s.cart with bankSelect := 0 }
    a := 0x00
    x := 0x00
    y := 0x00
    sp := 0xFD
    pc := vectorAt s.cart 0xFFFC
    p := Flags.reset
    nmiPending := false
    remainingCycles := 7
    ppu := Ppu.reset
    joy1 := s.joy1.clear
    joy2 := s.joy2.clear
    rom := .ready } := by
  unfold reset
  extract_lets t
  have hbank : t.cart = { s.cart with bankSelect := 0 } := Cart.reset_eq hcart
  have hvector : rd16 resetVector t = .ok (vectorAt s.cart 0xFFFC) t := by
    rw [rd16_vector resetVector t (Cart.wf_reset hcart) (by decide) (by decide), resetVector_toNat, hbank]
    rfl
  simp only [hvector]
  simp only [t, Cart.reset_eq hcart]
  rfl

/-- The host's reset is the core's once an image is loaded (R420). -/
theorem hostMove_reset_of_loaded {s : State} (h : s.rom ≠ .absent) : hostMove .reset s = reset s := by
  cases hrom : s.rom with
  | absent => exact absurd hrom h
  | loaded | ready => simp only [hostMove, hrom]

/-- Settles O56: a reset of the core, which the host may ask for once an image is loaded. -/
theorem resetEstablishesItsState : Obligations.ResetEstablishesItsState := by
  intro s ms hturn hmoves
  rw [step_between_cons hturn hmoves]
  refine ⟨fun hrom hcart => ?runs, fun hrom => ?refused⟩
  case runs =>
    rw [hostMove_reset_of_loaded (s := { s with hostMoves := ms }) hrom, reset_eq (s := { s with hostMoves := ms }) hcart]
    rfl
  case refused => simp only [hostMove, hrom]

/-! ## The other moves -/

theorem loadRom_ok {rom : List Byte} {c : Cart} (h : Cart.ofRom rom = .ok c) (s : State) :
    loadRom rom s = { s with cart := c, rom := .loaded } := by
  rw [loadRom, h]

theorem loadRom_error {rom : List Byte} {e : LoadError} (h : Cart.ofRom rom = .error e) (s : State) :
    loadRom rom s = { s with rom := .absent } := by
  rw [loadRom, h]

/-- A tick that no move of the host asks for is refused as one that is asked for (R7, R420, R422). -/
theorem step_unqueued_refused {s : State} (hturn : s.turn = .between) (hmoves : s.hostMoves = []) :
    (s.rom = .absent → step s = .refused .noCartridge) ∧ (s.rom = .loaded → step s = .refused .notReset) := by
  rw [step_between_nil hturn hmoves]
  constructor <;> intro hrom <;> simp only [freeRun, hrom]

/-- The buttons in the order of their bits (R368). -/
def buttonOrder : List Button := [.a, .b, .select, .start, .up, .down, .left, .right]

theorem bit_of_buttonOrder {key : Button} {n : Nat} (h : buttonOrder[n]? = some key) : key.bit = n := by
  have hbits : buttonOrder.map Button.bit = List.range 8 := rfl
  have hbit : (List.range 8)[n]? = some key.bit := by rw [← hbits, List.getElem?_map, h]; rfl
  obtain ⟨_, hn⟩ := List.getElem?_eq_some_iff.1 hbit
  rw [← hn, List.getElem_range]

/-- Pressing sets one bit of the buttons (R368). -/
theorem Joypad.press_getLsbD (j : Joypad) (key : Button) {k : Nat} (hk : k < 8) :
    (j.press key).buttons.getLsbD k = if k = key.bit then true else j.buttons.getLsbD k := by
  rw [Joypad.press, BitVec.getLsbD_or, BitVec.getLsbD_twoPow]
  by_cases h : k = key.bit
  · simp [← h, hk]
  · simp [h, Ne.symm h]

/-- Releasing clears one bit of the buttons (R368). -/
theorem Joypad.release_getLsbD (j : Joypad) (key : Button) {k : Nat} (hk : k < 8) :
    (j.release key).buttons.getLsbD k = if k = key.bit then false else j.buttons.getLsbD k := by
  rw [Joypad.release, BitVec.getLsbD_and, BitVec.getLsbD_not, BitVec.getLsbD_twoPow]
  by_cases h : k = key.bit
  · simp [← h, hk]
  · simp [h, hk, Ne.symm h]

/-- Settles O60: each move by its own arm, and a step with no move queued as a tick of its own. -/
theorem hostMovesBetweenTicks : Obligations.HostMovesBetweenTicks := by
  intro s m ms hturn hmoves
  rw [step_between_cons hturn hmoves]
  refine ⟨?accepted, ?refused, ?tick, ?absent, ?loaded, ?keys, ?picture, ?irq⟩
  case accepted =>
    rintro rom c rfl h
    exact congrArg _ (loadRom_ok h _)
  case refused =>
    rintro rom e rfl h
    exact congrArg _ (loadRom_error h _)
  case tick =>
    rintro n rfl
    exact ⟨fun hrom => by simp only [hostMove, hrom], fun hrom => by simp only [hostMove, hrom]⟩
  case absent => exact (step_unqueued_refused (s := { s with hostMoves := [] }) hturn rfl).1
  case loaded => exact (step_unqueued_refused (s := { s with hostMoves := [] }) hturn rfl).2
  case keys =>
    intro order key n hkey
    obtain rfl : key.bit = n := bit_of_buttonOrder hkey
    constructor
    · rintro rfl
      exact ⟨_, rfl, rfl, fun k => Joypad.press_getLsbD s.joy1 key⟩
    · rintro rfl
      exact ⟨_, rfl, rfl, fun k => Joypad.release_getLsbD s.joy1 key⟩
  case picture => rintro rfl; rfl
  case irq => rintro level rfl; rfl

end Sys2Proof.Machine
